-- ==== Sys2Proof/Word.lean ====
section
/-! DEFINITION. The word types of the block. The stream and the raster are byte addressed (20_memory.md
R50, R51); flag words have 32 bits (00_scope.md R8). -/

namespace Sys2Proof

/-- One byte of the stream space S or of the raster space R (20_memory.md R50). -/
abbrev Byte := BitVec 8

/-- A flag word or a flag mask (10_state.md R29, R30). -/
abbrev FlagWord := BitVec 32

/-- A stored chunk size Z or a payload budget `CSIZE` (10_state.md R28). -/
abbrev Size := BitVec 24

end Sys2Proof
end

