-- ==== Sys2Proof/Syntax.lean ====
section
/-! DEFINITION. The instructions of the block: the eleven chunks of 30_encoding.md R85, one constructor per
row of spec/opcode_table.json. The one explicit operand of a chunk is its stored size Z (R83), which counts
the 4-byte header; the payload items are consumed from the stream in order of demand (R96). -/

namespace Sys2Proof

/-- A chunk header as an instruction; `size` is the stored 24-bit size Z (30_encoding.md R83). -/
inductive Instr where
  /-- `LDCB.V4.F6`, id 0x20 (41_codebook_loader.md R148). -/
  | ldcbV4F6 (size : Size)
  /-- `LDCB.V4.C6`, id 0x21 (41_codebook_loader.md R149). -/
  | ldcbV4C6 (size : Size)
  /-- `LDCB.V1.F6`, id 0x22 (41_codebook_loader.md R150). -/
  | ldcbV1F6 (size : Size)
  /-- `LDCB.V1.C6`, id 0x23 (41_codebook_loader.md R151). -/
  | ldcbV1C6 (size : Size)
  /-- `LDCB.V4.F4`, id 0x24 (41_codebook_loader.md R152). -/
  | ldcbV4F4 (size : Size)
  /-- `LDCB.V4.C4`, id 0x25 (41_codebook_loader.md R153). -/
  | ldcbV4C4 (size : Size)
  /-- `LDCB.V1.F4`, id 0x26 (41_codebook_loader.md R154). -/
  | ldcbV1F4 (size : Size)
  /-- `LDCB.V1.C4`, id 0x27 (41_codebook_loader.md R155). -/
  | ldcbV1C4 (size : Size)
  /-- `VEC.SEL`, id 0x30 (42_vector_unpacker.md R175). -/
  | vecSel (size : Size)
  /-- `VEC.SKIP.SEL`, id 0x31 (42_vector_unpacker.md R176). -/
  | vecSkipSel (size : Size)
  /-- `VEC.V1`, id 0x32 (42_vector_unpacker.md R177). -/
  | vecV1 (size : Size)
  deriving DecidableEq, Repr

/-- The stored size Z of a chunk (30_encoding.md R83). -/
def Instr.size : Instr → Size
  | .ldcbV4F6 z | .ldcbV4C6 z | .ldcbV1F6 z | .ldcbV1C6 z
  | .ldcbV4F4 z | .ldcbV4C4 z | .ldcbV1F4 z | .ldcbV1C4 z
  | .vecSel z | .vecSkipSel z | .vecV1 z => z

end Sys2Proof
end

