-- ==== Sys2Proof/Decode.lean ====
section
/-! DEFINITION. The decoder of chunk headers (30_encoding.md R83 to R85, R97), total on any bytes and
rejecting by name, and after it the encoder, written from the same table. -/

namespace Sys2Proof

/-- Why bytes are no chunk header. -/
inductive DecodeError where
  /-- Fewer than the four bytes of a chunk header (30_encoding.md R83). -/
  | truncated (have_ : Nat)
  /-- The id is none of the eleven (30_encoding.md R97). -/
  | unknownChunk (id : Byte)
  deriving DecidableEq, Repr

/-- The complete set of chunk ids (30_encoding.md R85). -/
def opcodeTable : List (Byte × (Size → Instr)) :=
  [ (0x20#8, .ldcbV4F6), (0x21#8, .ldcbV4C6), (0x22#8, .ldcbV1F6), (0x23#8, .ldcbV1C6),
    (0x24#8, .ldcbV4F4), (0x25#8, .ldcbV4C4), (0x26#8, .ldcbV1F4), (0x27#8, .ldcbV1C4),
    (0x30#8, .vecSel), (0x31#8, .vecSkipSel), (0x32#8, .vecV1) ]

/-- The instruction a chunk id and a stored size stand for; dispatch is on the whole 8-bit id
(30_encoding.md R84, R85). -/
def instrOfHeader (id : Byte) (z : Size) : Option Instr :=
  (opcodeTable.find? (fun row => row.1 == id)).map (fun row => row.2 z)

/-- The 24-bit size field from its three stream bytes, big-endian (30_encoding.md R83, R86). -/
def sizeOfBytes (z2 z1 z0 : Byte) : Size := z2 ++ (z1 ++ z0)

/-- Reads one chunk header from the front of a byte list, and answers the rest of the list. -/
def decode : List Byte → Except DecodeError (Instr × List Byte)
  | id :: z2 :: z1 :: z0 :: rest =>
    match instrOfHeader id (sizeOfBytes z2 z1 z0) with
    | some i => .ok (i, rest)
    | none => .error (.unknownChunk id)
  | bs => .error (.truncated bs.length)

/-- The chunk id of an instruction (30_encoding.md R85). -/
def chunkId : Instr → Byte
  | .ldcbV4F6 _ => 0x20#8
  | .ldcbV4C6 _ => 0x21#8
  | .ldcbV1F6 _ => 0x22#8
  | .ldcbV1C6 _ => 0x23#8
  | .ldcbV4F4 _ => 0x24#8
  | .ldcbV4C4 _ => 0x25#8
  | .ldcbV1F4 _ => 0x26#8
  | .ldcbV1C4 _ => 0x27#8
  | .vecSel _ => 0x30#8
  | .vecSkipSel _ => 0x31#8
  | .vecV1 _ => 0x32#8

/-- The four header bytes of an id and a stored size, first byte first (30_encoding.md R83). -/
def headerBytes (id : Byte) (z : Size) : List Byte :=
  [id, z.extractLsb' 16 8, z.extractLsb' 8 8, z.extractLsb' 0 8]

/-- The four bytes of a chunk header. -/
def encode (i : Instr) : List Byte := headerBytes (chunkId i) i.size

/-- A 32-bit header word as the stream stores it, most significant byte first (30_encoding.md R83). -/
def wordBytes (w : BitVec 32) : List Byte :=
  [w.extractLsb' 24 8, w.extractLsb' 16 8, w.extractLsb' 8 8, w.extractLsb' 0 8]

/-- The bytes of a table word: the low `nbits` bits of `w` as one 32-bit header word (log entry 16). -/
def tableWordBytes (nbits w : Nat) : List Byte := wordBytes (BitVec.ofNat 32 (w % 2 ^ nbits))

/-- What the decoder reads from an instruction whose bits are `w`, numbered as spec/opcode_table.json
numbers them: bits 31 to 24 are the chunk id, bits 23 to 0 the stored size. -/
def decodeTableWord (nbits w : Nat) : Option Instr :=
  match decode (tableWordBytes nbits w) with
  | .ok (i, _) => some i
  | .error _ => none

end Sys2Proof
end

