-- ==== Sys2Proof/Config.lean ====
section
/-! DEFINITION. What the spec leaves open and the block does not decide: free values (constants without
a body, so that no proof can lean on what they are), and the two numbers that the model's reset state
takes for the implementation parameters. -/

namespace Sys2Proof.Config

/-- The byte that stream space S holds at an address the host has not written. The contents of S are an
input of the decode (10_state.md R41; 93_implementation_defined.md U4). Free value, log entry 1. -/
opaque freeStreamByte : Nat → Byte

/-- The byte that raster space R holds at an address (second argument) that neither the block nor the host
has written since the reset numbered by the first argument. After reset it is unspecified (10_state.md
R42; 93_implementation_defined.md U1). Free value, log entry 2. -/
opaque freeRasterByte : Nat → Nat → Byte

/-- The number of strip slots that `State.reset` takes for `MAX_STRIPS` (00_scope.md R9). DESIGN CHOICE,
log entry 3: the spec leaves it open. -/
def resetMaxStrips : Nat := 8

/-- The size of raster space R that `State.reset` takes for `RASTER_CAP` (00_scope.md R9). DESIGN CHOICE,
log entry 3: the spec leaves it open. -/
def resetRasterCap : Nat := 1048576

end Sys2Proof.Config
end

