-- ==== Sys2Proof/Machine/State.lean ====
section
/-! DEFINITION. The state of the block as plain data (10_state.md R20), the reasons a step can stop, and the
state right after reset (10_state.md R42). -/

namespace Sys2Proof.Machine

/-- A byte memory: (address, byte) pairs at strictly rising addresses (`Memory.wf` of Machine/Ops.lean). An
unlisted address has no value, so equal memories are equal lists. -/
abbrev Memory := List Host.Cell

/-- The two tables of a strip slot (10_state.md R36). -/
inductive Table where
  | v1
  | v4
  deriving DecidableEq, Repr

/-- A codebook entry: four luma samples and the biased chroma pair (10_state.md R36). -/
structure Entry where
  y0 : Byte
  y1 : Byte
  y2 : Byte
  y3 : Byte
  u : Byte
  v : Byte
  deriving DecidableEq, Repr

/-- A never-loaded entry: "zero-initialized" (10_state.md R42). -/
def Entry.zero : Entry := { y0 := 0#8, y1 := 0#8, y2 := 0#8, y3 := 0#8, u := 0#8, v := 0#8 }

/-- One record of the strip-record file (10_state.md R26). -/
structure StripRec where
  id : BitVec 16
  len : BitVec 16
  top : BitVec 32
  left : BitVec 16
  bottom : BitVec 32
  right : BitVec 16
  deriving DecidableEq, Repr

/-- The record of a slot that no strip header has written; the spec gives no reset value, DESIGN CHOICE,
log entry 4. -/
def StripRec.zero : StripRec :=
  { id := 0#16, len := 0#16, top := 0#32, left := 0#16, bottom := 0#32, right := 0#16 }

/-- The status `PHASE` (10_state.md R31). -/
inductive Phase where
  | idle
  | busy
  | done
  | failed
  deriving DecidableEq, Repr

/-- The cause codes (60_exceptions.md R201); codes 7 to 15 are never written (93_implementation_defined.md
U17). -/
inductive Cause where
  | none
  | unknownChunk
  | streamUnderrun
  | badChunkSize
  | badStripLength
  | capacity
  | dimMismatch
  deriving DecidableEq, Repr

/-- Where the sequencer stands inside one frame decode; read only while `PHASE = BUSY`. The model's own
field: it is the control position of 40_frame_decoder.md R110 to R132 (log entry 5). -/
inductive Seq where
  /-- The frame header is due (R111). -/
  | frameHeader
  /-- Inheritance and the strip header of strip `SI` are due (R116, R118). -/
  | stripHeader
  /-- The chunk-loop test of strip `SI` is due (R122). -/
  | chunkLoop
  deriving DecidableEq, Repr

/-- The registers the host can read (10_state.md R34). -/
inductive HostReg where
  | startPos
  | streamLen
  | phase
  | cause
  | finfo
  | width
  | height
  | nstrips
  | flags
  | frameLen
  deriving DecidableEq, Repr

/-- What the host can do (60_exceptions.md R215 to R218); log entry 6 says when it takes effect. -/
inductive HostCmd where
  /-- The host does nothing while the block makes one step. -/
  | wait
  /-- START (60_exceptions.md R215). -/
  | start
  /-- Reset (70_reset_and_hazards.md R230). -/
  | reset
  | writeStartPos (p : Nat)
  | writeStreamLen (n : Nat)
  /-- Stores the bytes in S from address `a` on. -/
  | writeStream (a : Nat) (bytes : List Byte)
  /-- Stores the bytes in R from address `a` on. -/
  | writeRaster (a : Nat) (bytes : List Byte)
  /-- Reads one byte of R. -/
  | readRaster (a : Nat)
  | readReg (r : HostReg)
  deriving DecidableEq, Repr

/-- The state of the block, its inputs S, `MAX_STRIPS` and `RASTER_CAP`, and the model's own four fields
`seq`, `host`, `hostData` and `epoch`. -/
structure State where
  /-- `FLAGS` (10_state.md R21). -/
  flags : BitVec 8
  /-- `FRAME_LEN` (R21). -/
  frameLen : BitVec 24
  /-- `WIDTH` (R21). -/
  width : BitVec 16
  /-- `HEIGHT` (R21). -/
  height : BitVec 16
  /-- `NSTRIPS` (R21). -/
  nstrips : BitVec 16
  /-- `ALLOC`, one bit (R22). -/
  alloc : Bool
  /-- `ALLOC_W` (R22). -/
  allocW : BitVec 16
  /-- `ALLOC_H` (R22). -/
  allocH : BitVec 16
  /-- `ALLOC_N` (R22). -/
  allocN : BitVec 16
  /-- `POS`, the program counter: a position of S, an unbounded natural (R23). -/
  pos : Nat
  /-- `ROWCUR` (R24). -/
  rowcur : BitVec 32
  /-- `SI` (R25). -/
  si : BitVec 16
  /-- The strip-record file (R26): slots at strictly rising numbers, none equal to the record an unlisted
  slot reads as. -/
  strips : List (Nat × StripRec)
  /-- `SPAN_START`, an unbounded natural (R27). -/
  spanStart : Nat
  /-- `CID` (R28). -/
  cid : BitVec 8
  /-- `CSIZE` (R28). -/
  csize : BitVec 24
  /-- `CSTART`, an unbounded natural (R28). -/
  cstart : Nat
  /-- `LI` (R29). -/
  li : BitVec 9
  /-- `LFLAG` (R29). -/
  lflag : FlagWord
  /-- `LMASK` (R29). -/
  lmask : FlagWord
  /-- `BX` (R30). -/
  bX : BitVec 17
  /-- `BY` (R30). -/
  bY : BitVec 33
  /-- `SKF` (R30). -/
  skf : FlagWord
  /-- `SKM` (R30). -/
  skm : FlagWord
  /-- `SLF` (R30). -/
  slf : FlagWord
  /-- `SLM` (R30). -/
  slm : FlagWord
  /-- `PHASE` (R31). -/
  phase : Phase
  /-- `CAUSE` (R32). -/
  cause : Cause
  /-- `FINFO`, an unbounded natural (R32). -/
  finfo : Nat
  /-- `START_POS`, an unbounded natural (R33). -/
  startPos : Nat
  /-- `STREAM_LEN`, an unbounded natural (R33). -/
  streamLen : Nat
  /-- The Codebook Store (R36): entries at strictly rising keys (slot, table, index: `cbKey` of
  Machine/Ops.lean), none equal to the zero entry, which an unlisted key reads as. -/
  cb : List (Nat × Entry)
  /-- Raster space R (20_memory.md R55): the bytes written since reset, at strictly rising addresses. -/
  raster : Memory
  /-- Stream space S (20_memory.md R51): the bytes the host has written, at strictly rising addresses. -/
  stream : Memory
  /-- `MAX_STRIPS`, a parameter that no step changes (00_scope.md R9; log entry 3). -/
  maxStrips : Nat
  /-- `RASTER_CAP`, a parameter that no step changes (00_scope.md R9; log entry 3). -/
  rasterCap : Nat
  /-- The model's own: the control position of the sequencer (log entry 5). -/
  seq : Seq
  /-- The model's own: the host's pending commands, next one first (log entry 6). -/
  host : List HostCmd
  /-- The model's own: the value the last host read returned (log entry 13). -/
  hostData : Nat
  /-- The model's own: how many resets the host has given; index of the raster's free contents (log
  entry 2). -/
  epoch : Nat
  deriving DecidableEq, Repr

/-- Why the machine stops with a fault. No chunk and no step of the sequencer raises one: the block's own
faults are states with `PHASE = FAILED` (60_exceptions.md R208). -/
inductive Fault where
  /-- Raised by a host command that reads or writes raster space R at or above `RASTER_CAP`, where R has no
  byte (20_memory.md R50). Safe: the model stops, and says nothing of what a bus does there (log entry 10). -/
  | rasterAddress (a : Nat)
  deriving DecidableEq, Repr

/-- Why a step has no meaning. -/
inductive Refusal where
  /-- An instruction without a meaning, by its mnemonic; no instruction of this model is left so. Safe. -/
  | notModelled (mnemonic : String)
  /-- Raised by a host command that writes S, `START_POS` or `STREAM_LEN`, reads or writes R, or reads a
  register other than `PHASE`, `CAUSE` and `FINFO`, while `PHASE = BUSY`: the run has no meaning in the spec
  (60_exceptions.md R218; 93_implementation_defined.md U13). Safe: no claim covers such a run (log entry 8). -/
  | hostAccessWhileBusy (cmd : HostCmd)
  deriving DecidableEq, Repr

/-- The machine right after reset (10_state.md R42): the Codebook Store all zero, `ALLOC = 0`,
`PHASE = IDLE`, `CAUSE = FINFO = 0`, the raster unspecified; every register the spec gives no reset value
is zero (DESIGN CHOICE, log entry 4). -/
def State.reset : State where
  flags := 0#8
  frameLen := 0#24
  width := 0#16
  height := 0#16
  nstrips := 0#16
  alloc := false
  allocW := 0#16
  allocH := 0#16
  allocN := 0#16
  pos := 0
  rowcur := 0#32
  si := 0#16
  strips := []
  spanStart := 0
  cid := 0#8
  csize := 0#24
  cstart := 0
  li := 0#9
  lflag := 0#32
  lmask := 0#32
  bX := 0#17
  bY := 0#33
  skf := 0#32
  skm := 0#32
  slf := 0#32
  slm := 0#32
  phase := .idle
  cause := .none
  finfo := 0
  startPos := 0
  streamLen := 0
  cb := []
  raster := []
  stream := []
  maxStrips := Config.resetMaxStrips
  rasterCap := Config.resetRasterCap
  seq := .frameHeader
  host := []
  hostData := 0
  epoch := 0

end Sys2Proof.Machine
end

