-- ==== Sys2Proof/Machine/Ops.lean ====
section
/-! DEFINITION. The named operations over memory and registers: sparse lists, the two byte memories, the
read primitives of the stream (20_memory.md R58 to R63), the Codebook Store and the strip-record file, taking
a fault (60_exceptions.md R208), ending a handler (40_frame_decoder.md R128), and the frame every chunk runs
in (R124, R129). -/

namespace Sys2Proof.Machine

/-! ### Sparse lists -/

/-- The keys of a sparse list rise strictly. -/
abbrev Rising {α : Type} (l : List (Nat × α)) : Prop := l.Pairwise (fun p q => p.1 < q.1)

/-- What a sparse list holds at a key. -/
def sparseGet {α : Type} (l : List (Nat × α)) (k : Nat) : Option α := l.lookup k

/-- Replaces whatever a sparse list holds at the `n` keys from `a` on by the pairs `mid`. -/
def sparseSplice {α : Type} (l : List (Nat × α)) (a n : Nat) (mid : List (Nat × α)) : List (Nat × α) :=
  l.filter (fun p => p.1 < a) ++ mid ++ l.filter (fun p => a + n ≤ p.1)

/-- Sets one key of a sparse list whose unlisted keys read as `d`; the value `d` is not listed. -/
def sparseSet {α : Type} [DecidableEq α] (l : List (Nat × α)) (k : Nat) (d v : α) : List (Nat × α) :=
  sparseSplice l k 1 (if v = d then [] else [(k, v)])

/-! ### Byte memories -/

/-- The canonical form of a byte memory: strictly rising addresses. Every listed byte has been written,
and an unlisted one has no value, so no entry can repeat what an unlisted address reads as. -/
abbrev Memory.wf (m : Memory) : Prop := Rising m

/-- What an address holds; none where nothing has been written. -/
def Memory.read (m : Memory) (a : Nat) : Option Byte := sparseGet m a

/-- Consecutive bytes as cells, the first at address `a`. -/
def cellsAt (a : Nat) : List Byte → Memory
  | [] => []
  | b :: bs => (a, b) :: cellsAt (a + 1) bs

/-- Stores bytes at rising addresses from `a` on (20_memory.md R56). -/
def Memory.write (m : Memory) (a : Nat) (bs : List Byte) : Memory :=
  sparseSplice m a bs.length (cellsAt a bs)

/-- The byte of S at an address (20_memory.md R52); a free value where the host has written none (log
entry 1). -/
def streamByte (s : State) (a : Nat) : Byte :=
  (s.stream.read a).getD (Config.freeStreamByte a)

/-- `MemRead(S, a, n)`: the bytes of S at `a .. a+n-1`, lowest address first (20_memory.md R52). -/
def streamBytes (s : State) (a : Nat) : Nat → List Byte
  | 0 => []
  | n + 1 => streamByte s a :: streamBytes s (a + 1) n

/-- The byte of R at an address; a free value where nothing has been written since reset (log entry 2). -/
def rasterByte (s : State) (a : Nat) : Byte :=
  (s.raster.read a).getD (Config.freeRasterByte s.epoch a)

/-! ### Status codes -/

/-- The encoding of `PHASE` (10_state.md R31). -/
def Phase.code : Phase → BitVec 2
  | .idle => 0#2
  | .busy => 1#2
  | .done => 2#2
  | .failed => 3#2

/-- The encoding of `CAUSE` (60_exceptions.md R201). -/
def Cause.code : Cause → BitVec 4
  | .none => 0#4
  | .unknownChunk => 1#4
  | .streamUnderrun => 2#4
  | .badChunkSize => 3#4
  | .badStripLength => 4#4
  | .capacity => 5#4
  | .dimMismatch => 6#4

/-! ### Taking a fault, and ending a handler -/

/-- `raise F(info)`, the block's only trap entry: `CAUSE`, `FINFO` and `PHASE <- FAILED`; nothing else is
saved or undone (60_exceptions.md R208). -/
def State.raiseFault (s : State) (c : Cause) (info : Nat) : State :=
  { s with cause := c, finfo := info, phase := .failed }

/-- How a sequence of actions ends early: by truncation (`stop`) or by a fatal fault (`raise`)
(60_exceptions.md R200). -/
inductive Ending where
  | stop
  | raise (c : Cause) (info : Nat)
  deriving DecidableEq, Repr

/-- An action of the block. Where it ends early, the state it leaves is kept (60_exceptions.md R208). -/
abbrev Act (α : Type) := EStateM Ending State α

/-- `raise` when the condition holds. -/
def raiseIf (cond : Bool) (c : Cause) (info : Nat) : Act Unit := fun s =>
  if cond then .error (.raise c info) s else .ok () s

/-- The state an action leaves: a fatal fault is taken there. -/
def settle : EStateM.Result Ending State Unit → State
  | .ok _ t => t
  | .error .stop t => t
  | .error (.raise c info) t => t.raiseFault c info

/-- A step of the sequencer or of a chunk as an outcome: always a next state, a fault being one too. -/
def finish (act : Act Unit) (s : State) : Host.Outcome State Fault Refusal :=
  .next (settle (act s))

/-- Runs a handler; its `stop` is a normal return (40_frame_decoder.md R128). -/
def stopsHere (handler : Act Unit) : Act Unit := fun s =>
  match handler s with
  | .error .stop t => .ok () t
  | r => r

/-! ### Reading the stream -/

/-- Reads `n` bytes at `POS`: all of them, or none and `StreamUnderrun(POS)` (20_memory.md R62). -/
def readBytes (n : Nat) : Act (List Byte) := fun s =>
  if s.pos + n > s.streamLen then .error (.raise .streamUnderrun s.pos) s
  else .ok (streamBytes s s.pos n) { s with pos := s.pos + n }

/-- The big-endian value of a byte list (20_memory.md R64). -/
def bigEndian (bs : List Byte) : Nat := bs.foldl (fun acc b => acc * 256 + b.toNat) 0

/-- `ReadU8()` (20_memory.md R58). -/
def readU8 : Act Byte := do
  let bs ← readBytes 1
  return BitVec.ofNat 8 (bigEndian bs)

/-- `ReadU16()` (20_memory.md R59). -/
def readU16 : Act (BitVec 16) := do
  let bs ← readBytes 2
  return BitVec.ofNat 16 (bigEndian bs)

/-- `ReadU24()`, a byte and then a 16-bit read (20_memory.md R60). -/
def readU24 : Act (BitVec 24) := do
  let hi ← readU8
  let lo ← readU16
  return BitVec.ofNat 24 (hi.toNat * 65536 + lo.toNat)

/-- `ReadU32()` (20_memory.md R61). -/
def readU32 : Act (BitVec 32) := do
  let bs ← readBytes 4
  return BitVec.ofNat 32 (bigEndian bs)

/-- `Seek(p)`: never faults (20_memory.md R63). -/
def seek (p : Nat) : Act Unit := modify fun s => { s with pos := p }

/-- `rem()`: the payload bytes of the current chunk not yet consumed (40_frame_decoder.md R126). -/
def State.rem (s : State) : Nat := s.csize.toNat - (s.pos - s.cstart)

/-- The budget test before a read of `n` payload bytes; `stop` when it fails (40_frame_decoder.md R126). -/
def needPayload (n : Nat) : Act Unit := fun s =>
  if s.rem < n then .error .stop s else .ok () s

/-! ### The Codebook Store -/

/-- The key of `CB[s][t][i]` in the sparse list of entries (10_state.md R36). -/
def cbKey (slot : Nat) (t : Table) (i : Byte) : Nat :=
  slot * 512 + (match t with | .v1 => 0 | .v4 => 256) + i.toNat

/-- The entry a store holds at a place; an entry never loaded is zero (10_state.md R42). -/
def cbGet (cb : List (Nat × Entry)) (slot : Nat) (t : Table) (i : Byte) : Entry :=
  (sparseGet cb (cbKey slot t i)).getD Entry.zero

/-- The store with one entry replaced. -/
def cbSet (cb : List (Nat × Entry)) (slot : Nat) (t : Table) (i : Byte) (e : Entry) : List (Nat × Entry) :=
  sparseSet cb (cbKey slot t i) Entry.zero e

/-- `CB[s][t][i]`. -/
def State.entry (s : State) (slot : Nat) (t : Table) (i : Byte) : Entry := cbGet s.cb slot t i

/-- `CB[s][t][i] <- e`. -/
def State.setEntry (s : State) (slot : Nat) (t : Table) (i : Byte) (e : Entry) : State :=
  { s with cb := cbSet s.cb slot t i e }

/-- The luma sample `y[k]` of an entry, `k` from 0 to 3 (10_state.md R36). -/
def Entry.luma (e : Entry) : Nat → Byte
  | 0 => e.y0
  | 1 => e.y1
  | 2 => e.y2
  | _ => e.y3

/-- All 512 (table, index) places of a strip slot. -/
def slotPlaces : List (Table × Byte) :=
  (List.range 256).map (fun i => (Table.v1, BitVec.ofNat 8 i)) ++
  (List.range 256).map (fun i => (Table.v4, BitVec.ofNat 8 i))

/-- Copies both tables of one strip slot verbatim into another, entry by entry (40_frame_decoder.md
R116). -/
def cbCopy (cb : List (Nat × Entry)) (src dst : Nat) : List (Nat × Entry) :=
  slotPlaces.foldl (fun acc p => cbSet acc dst p.1 p.2 (cbGet cb src p.1 p.2)) cb

/-! ### The strip-record file -/

/-- `STRIP[s]` (10_state.md R26). -/
def State.stripRec (s : State) (slot : Nat) : StripRec :=
  (sparseGet s.strips slot).getD StripRec.zero

/-- `STRIP[s] <- r`. -/
def State.setStripRec (s : State) (slot : Nat) (r : StripRec) : State :=
  { s with strips := sparseSet s.strips slot StripRec.zero r }

/-- The record of the current strip, `STRIP[SI]`. -/
def State.curStrip (s : State) : StripRec := s.stripRec s.si.toNat

/-- Changes the record of the current strip. -/
def State.updCurStrip (s : State) (f : StripRec → StripRec) : State :=
  s.setStripRec s.si.toNat (f s.curStrip)

/-! ### The frame every chunk runs in -/

/-- The chunk-header registers: `CID`, the size check, `CSIZE` and `CSTART`, once the header's bytes have
been read (40_frame_decoder.md R124; 30_encoding.md R88). -/
def latchHeader (id : Byte) (z : Size) : Act Unit := do
  modify fun s => { s with cid := id }
  raiseIf (decide (z.toNat < 4)) .badChunkSize z.toNat
  modify fun s => { s with csize := BitVec.ofNat 24 (z.toNat - 4), cstart := s.pos }

/-- The reposition after every handler return: `Seek(CSTART + CSIZE)` (40_frame_decoder.md R129). -/
def reposition : Act Unit := do
  let s ← get
  seek (s.cstart + s.csize.toNat)

/-- One chunk whose 4-byte header has just been read: the header registers, the handler, the
reposition (40_frame_decoder.md R124, R127 to R129). -/
def runChunk (id : Byte) (z : Size) (handler : Act Unit) (s : State) : Host.Outcome State Fault Refusal :=
  finish (do latchHeader id z; stopsHere handler; reposition) s

end Sys2Proof.Machine
end

