-- ==== Sys2Proof/Machine/Flags.lean ====
section
/-! DEFINITION. Flags. The block has no condition codes (10_state.md R35); its flags are the bits of the
32-bit flag words read from the stream, taken one per decision from bit 31 down to bit 0 (30_encoding.md
R91). Three streams of them exist: the loader's (41_codebook_loader.md R142), the skip stream and the
selector stream (42_vector_unpacker.md R164, R167). -/

namespace Sys2Proof.Machine

/-- The three flag streams, each with a word register and a mask register (10_state.md R29, R30). -/
inductive FlagStream where
  /-- `LFLAG`, `LMASK`. -/
  | loader
  /-- `SKF`, `SKM`. -/
  | skip
  /-- `SLF`, `SLM`. -/
  | sel
  deriving DecidableEq, Repr

/-- The word register of a flag stream. -/
def State.flagWord (s : State) : FlagStream → FlagWord
  | .loader => s.lflag
  | .skip => s.skf
  | .sel => s.slf

/-- The mask register of a flag stream. -/
def State.flagMask (s : State) : FlagStream → FlagWord
  | .loader => s.lmask
  | .skip => s.skm
  | .sel => s.slm

/-- Writes both registers of a flag stream. -/
def State.setFlag (s : State) (f : FlagStream) (word mask : FlagWord) : State :=
  match f with
  | .loader => { s with lflag := word, lmask := mask }
  | .skip => { s with skf := word, skm := mask }
  | .sel => { s with slf := word, slm := mask }

/-- Makes a flag stream empty: its first use fetches a word (41_codebook_loader.md R141;
42_vector_unpacker.md R161). -/
def clearFlag (f : FlagStream) : Act Unit := modify fun s => s.setFlag f 0#32 0#32

/-- The mask shift at the start of every use: logical, by one (43_yuv_to_rgb.md R192 e). -/
def shiftMask (f : FlagStream) : Act Unit :=
  modify fun s => s.setFlag f (s.flagWord f) (s.flagMask f >>> 1)

/-- The refill when the mask is exhausted: a budget test of 4 bytes, a new word, the mask at bit 31
(41_codebook_loader.md R142; 42_vector_unpacker.md R164, R167). -/
def refillFlag (f : FlagStream) : Act Unit := do
  needPayload 4
  let w ← readU32
  modify fun s => s.setFlag f w 0x80000000#32

/-- The flag under the mask. -/
def State.flagBit (s : State) (f : FlagStream) : Bool := s.flagWord f &&& s.flagMask f != 0#32

/-- Refills the flag stream if its mask is exhausted. -/
def refillIfDue (f : FlagStream) : Act Unit := fun s =>
  if s.flagMask f = 0#32 then refillFlag f s else .ok () s

/-- Takes the next flag of a stream (41_codebook_loader.md R142; 42_vector_unpacker.md R164, R167). -/
def takeFlag (f : FlagStream) : Act Bool := do
  shiftMask f
  refillIfDue f
  let s ← get
  return s.flagBit f

end Sys2Proof.Machine
end

