-- ==== Sys2Proof/Machine/Operands.lean ====
section
/-! DEFINITION. The operand forms of the chunks: the payload items of 30_encoding.md R92 to R95, and the
mode bits of a chunk id (R84). -/

namespace Sys2Proof.Machine

/-- The byte length of a codebook entry in the stream (30_encoding.md R92, R93). -/
inductive EntryForm where
  /-- Four luma bytes, U and V (R92). -/
  | six
  /-- Four luma bytes; chroma is forced to 128 (R93). -/
  | four
  deriving DecidableEq, Repr

/-- The entry width in bytes (41_codebook_loader.md R141). -/
def EntryForm.width : EntryForm → Nat
  | .six => 6
  | .four => 4

/-- The stored value of a chroma byte: `(c + 128) mod 256` (30_encoding.md R90). -/
def biasChroma (c : Byte) : Byte := c + 128#8

/-- Changes one entry of the current strip's table. -/
def State.updEntry (s : State) (t : Table) (i : Byte) (f : Entry → Entry) : State :=
  s.setEntry s.si.toNat t i (f (s.entry s.si.toNat t i))

/-- Reads one byte of an entry and writes the one field it goes to, so that an entry cut short by
`StreamUnderrun` keeps the fields already written (41_codebook_loader.md R145). -/
def loadField (t : Table) (i : Byte) (put : Byte → Entry → Entry) : Act Unit := do
  let b ← readU8
  modify fun s => s.updEntry t i (put b)

/-- The four luma bytes of either form (30_encoding.md R92). -/
def loadLuma (t : Table) (i : Byte) : Act Unit := do
  loadField t i fun b e => { e with y0 := b }
  loadField t i fun b e => { e with y1 := b }
  loadField t i fun b e => { e with y2 := b }
  loadField t i fun b e => { e with y3 := b }

/-- Reads a 6-byte entry into `CB[SI][t][i]` (41_codebook_loader.md R145). -/
def loadEntry6 (t : Table) (i : Byte) : Act Unit := do
  loadLuma t i
  loadField t i fun b e => { e with u := biasChroma b }
  loadField t i fun b e => { e with v := biasChroma b }

/-- Reads a 4-byte entry into `CB[SI][t][i]` (41_codebook_loader.md R146). -/
def loadEntry4 (t : Table) (i : Byte) : Act Unit := do
  loadLuma t i
  modify fun s => s.updEntry t i fun e => { e with u := 128#8, v := 128#8 }

/-- Reads one codebook entry in its form. -/
def loadEntry (t : Table) (form : EntryForm) (i : Byte) : Act Unit :=
  match form with
  | .six => loadEntry6 t i
  | .four => loadEntry4 t i

/-- A V1 vector: one index byte into the current strip's V1 table (42_vector_unpacker.md R169). -/
def readV1 : Act Entry := do
  needPayload 1
  let i ← readU8
  let s ← get
  return s.entry s.si.toNat .v1 i

/-- The four entries of a V4 vector, one per quadrant: 0 top-left, 1 top-right, 2 bottom-left,
3 bottom-right (30_encoding.md R95). -/
structure Quad where
  q0 : Entry
  q1 : Entry
  q2 : Entry
  q3 : Entry
  deriving DecidableEq, Repr

/-- A V4 vector: one budget test, then four index bytes into the current strip's V4 table
(42_vector_unpacker.md R171). -/
def readV4 : Act Quad := do
  needPayload 4
  let i0 ← readU8
  let i1 ← readU8
  let i2 ← readU8
  let i3 ← readU8
  let s ← get
  return { q0 := s.entry s.si.toNat .v4 i0, q1 := s.entry s.si.toNat .v4 i1,
           q2 := s.entry s.si.toNat .v4 i2, q3 := s.entry s.si.toNat .v4 i3 }

/-- `CID[1]` of a loader chunk: the target table (41_codebook_loader.md R140). -/
def tableOfId (id : Byte) : Table := if id.getLsbD 1 then .v1 else .v4

/-- `CID[0]` of a loader chunk: conditional (41_codebook_loader.md R141). -/
def conditionalOfId (id : Byte) : Bool := id.getLsbD 0

/-- `CID[2]` of a loader chunk: the entry form (41_codebook_loader.md R141). -/
def formOfId (id : Byte) : EntryForm := if id.getLsbD 2 then .four else .six

/-- `CID[0]` of a vector chunk: the skip stream is active (42_vector_unpacker.md R161). -/
def skipOfId (id : Byte) : Bool := id.getLsbD 0

/-- `CID[1]` of a vector chunk: the selector stream is active when it is clear (42_vector_unpacker.md
R161). -/
def selOfId (id : Byte) : Bool := !id.getLsbD 1

end Sys2Proof.Machine
end

