-- ==== Sys2Proof/Machine/CodebookLoader.lean ====
section
/-! DEFINITION. The unit `codebook_loader`: the shared mechanism of 41_codebook_loader.md R140 to R147 and
the eight loader chunks, R148 to R155. -/

namespace Sys2Proof.Machine

/-- The update decision of one attempt: always in unconditional mode, else the next flag (41_codebook_loader.md
R142, R143). -/
def updateDue (cond : Bool) : Act Bool :=
  if cond then takeFlag .loader else pure true

/-- The entry of one attempt, when it is updated: the budget test, then the entry's bytes
(41_codebook_loader.md R144). -/
def loadIfDue (t : Table) (form : EntryForm) (due : Bool) : Act Unit := fun s =>
  if due then (do needPayload form.width; loadEntry t form (s.li.setWidth 8)) s else .ok () s

/-- Attempt `LI`, and the step to the next (41_codebook_loader.md R144). -/
def loadAttempt (t : Table) (cond : Bool) (form : EntryForm) : Act Unit := do
  let due ← updateDue cond
  loadIfDue t form due
  modify fun s => { s with li := s.li + 1#9 }

/-- The given number of attempts, one after the other. -/
def loadAttempts (t : Table) (cond : Bool) (form : EntryForm) : Nat → Act Unit
  | 0 => pure ()
  | n + 1 => do
    loadAttempt t cond form
    loadAttempts t cond form n

/-- `LoadCodebook(T)`: empty flag stream, then exactly 256 attempts unless one ends the loader
(41_codebook_loader.md R141, R144). -/
def loadCodebook (t : Table) (cond : Bool) (form : EntryForm) : Act Unit := do
  clearFlag .loader
  modify fun s => { s with li := 0#9 }
  loadAttempts t cond form 256

/-- `LDCB.V4.F6` (41_codebook_loader.md R148). -/
def execLdcbV4F6 (z : Size) (s : State) : Host.Outcome State Fault Refusal :=
  runChunk 0x20#8 z (loadCodebook .v4 false .six) s

/-- `LDCB.V4.C6` (41_codebook_loader.md R149). -/
def execLdcbV4C6 (z : Size) (s : State) : Host.Outcome State Fault Refusal :=
  runChunk 0x21#8 z (loadCodebook .v4 true .six) s

/-- `LDCB.V1.F6` (41_codebook_loader.md R150). -/
def execLdcbV1F6 (z : Size) (s : State) : Host.Outcome State Fault Refusal :=
  runChunk 0x22#8 z (loadCodebook .v1 false .six) s

/-- `LDCB.V1.C6` (41_codebook_loader.md R151). -/
def execLdcbV1C6 (z : Size) (s : State) : Host.Outcome State Fault Refusal :=
  runChunk 0x23#8 z (loadCodebook .v1 true .six) s

/-- `LDCB.V4.F4` (41_codebook_loader.md R152). -/
def execLdcbV4F4 (z : Size) (s : State) : Host.Outcome State Fault Refusal :=
  runChunk 0x24#8 z (loadCodebook .v4 false .four) s

/-- `LDCB.V4.C4` (41_codebook_loader.md R153). -/
def execLdcbV4C4 (z : Size) (s : State) : Host.Outcome State Fault Refusal :=
  runChunk 0x25#8 z (loadCodebook .v4 true .four) s

/-- `LDCB.V1.F4` (41_codebook_loader.md R154). -/
def execLdcbV1F4 (z : Size) (s : State) : Host.Outcome State Fault Refusal :=
  runChunk 0x26#8 z (loadCodebook .v1 false .four) s

/-- `LDCB.V1.C4` (41_codebook_loader.md R155). -/
def execLdcbV1C4 (z : Size) (s : State) : Host.Outcome State Fault Refusal :=
  runChunk 0x27#8 z (loadCodebook .v1 true .four) s

end Sys2Proof.Machine
end

