-- ==== Sys2Proof/Machine/Color.lean ====
section
/-! DEFINITION. The unit `yuv_to_rgb_converter` with `pixel_clamp` (43_yuv_to_rgb.md R185 to R194) and the
block's one store, the pixel write (R190, R191). -/

namespace Sys2Proof.Machine

/-- One converted pixel. -/
structure Rgb where
  r : Byte
  g : Byte
  b : Byte
  deriving DecidableEq, Repr

/-- `clip(a, 0, 255)` (43_yuv_to_rgb.md R189). -/
def clip (a : Int) : Int := if a < 0 then 0 else if a > 255 then 255 else a

/-- A clamped value as a byte. -/
def clipByte (a : Int) : Byte := BitVec.ofNat 8 (clip a).toNat

/-- Red before the clamp (43_yuv_to_rgb.md R186). -/
def redSum (y v : Byte) : Int := (y.toNat : Int) + 2 * ((v.toNat : Int) - 128)

/-- Green before the clamp; the division truncates toward zero and applies to `U - 128` alone
(43_yuv_to_rgb.md R187). -/
def greenSum (y u v : Byte) : Int :=
  (y.toNat : Int) - Int.tdiv ((u.toNat : Int) - 128) 2 - ((v.toNat : Int) - 128)

/-- Blue before the clamp (43_yuv_to_rgb.md R188). -/
def blueSum (y u : Byte) : Int := (y.toNat : Int) + 2 * ((u.toNat : Int) - 128)

/-- The colour conversion, a pure function (43_yuv_to_rgb.md R185 to R188). -/
def convert (y u v : Byte) : Rgb :=
  { r := clipByte (redSum y v), g := clipByte (greenSum y u v), b := clipByte (blueSum y u) }

/-- The address in R of a pixel's blue byte (20_memory.md R55). -/
def pixelAddr (width x y : Nat) : Nat := (y * width + x) * 3

/-- A pixel's bytes in raster order: B, G, R (43_yuv_to_rgb.md R190). -/
def Rgb.bytes (c : Rgb) : List Byte := [c.b, c.g, c.r]

/-- R after a pixel write in a frame of the given size: three bytes in the order B, G, R, or nothing outside
the frame (43_yuv_to_rgb.md R190, R191). -/
def pixelWrite (width height : Nat) (m : Memory) (x y : Nat) (lum u v : Byte) : Memory :=
  if x < width ∧ y < height then m.write (pixelAddr width x y) (convert lum u v).bytes else m

/-- `PutPixel(x, y, Y, U, V)` (43_yuv_to_rgb.md R190). -/
def State.putPixel (s : State) (x y : Nat) (lum u v : Byte) : State :=
  { s with raster := pixelWrite s.width.toNat s.height.toNat s.raster x y lum u v }

end Sys2Proof.Machine
end

