-- ==== Sys2Proof/Machine/VectorUnpacker.lean ====
section
/-! DEFINITION. The unit `vector_unpacker`: the shared mechanism of 42_vector_unpacker.md R160 to R174 and
the three vector chunks, R175 to R177. -/

namespace Sys2Proof.Machine

/-- One pixel of a block: its place in the block and the samples it is converted from. -/
structure BlockPixel where
  dx : Nat
  dy : Nat
  lum : Byte
  u : Byte
  v : Byte
  deriving DecidableEq, Repr

/-- The sixteen (dx, dy) places of a block, row by row. -/
def blockPlaces : List (Nat × Nat) :=
  [ (0, 0), (1, 0), (2, 0), (3, 0), (0, 1), (1, 1), (2, 1), (3, 1),
    (0, 2), (1, 2), (2, 2), (3, 2), (0, 3), (1, 3), (2, 3), (3, 3) ]

/-- V1 painting: luma k covers quadrant k in raster order, all with the one chroma pair
(42_vector_unpacker.md R170). -/
def v1Pixels (e : Entry) : List BlockPixel :=
  blockPlaces.map fun p =>
    { dx := p.1, dy := p.2, lum := e.luma (2 * (p.2 / 2) + p.1 / 2), u := e.u, v := e.v }

/-- One quadrant of V4 painting: luma j goes to pixel j of quadrant q in raster order
(42_vector_unpacker.md R172). -/
def quadrantPixels (q : Nat) (e : Entry) : List BlockPixel :=
  [0, 1, 2, 3].map fun j =>
    { dx := 2 * (q % 2) + j % 2, dy := 2 * (q / 2) + j / 2, lum := e.luma j, u := e.u, v := e.v }

/-- V4 painting: entry q paints quadrant q (42_vector_unpacker.md R172). -/
def v4Pixels (e : Quad) : List BlockPixel :=
  quadrantPixels 0 e.q0 ++ quadrantPixels 1 e.q1 ++ quadrantPixels 2 e.q2 ++ quadrantPixels 3 e.q3

/-- R after the pixels of a block at (x, y) have been put, one after the other. -/
def paintPixels (width height x y : Nat) (ps : List BlockPixel) (m : Memory) : Memory :=
  ps.foldl (fun acc p => pixelWrite width height acc (x + p.dx) (y + p.dy) p.lum p.u p.v) m

/-- Puts pixels into the block at (`BX`, `BY`) (42_vector_unpacker.md R170, R172). -/
def State.paint (s : State) (ps : List BlockPixel) : State :=
  { s with raster :=
      paintPixels s.width.toNat s.height.toNat s.bX.toNat s.bY.toNat ps s.raster }

/-- A V1 block (42_vector_unpacker.md R169, R170). -/
def v1Block : Act Unit := do
  let e ← readV1
  modify fun s => s.paint (v1Pixels e)

/-- A V4 block: painted only after all four index bytes are read (42_vector_unpacker.md R171, R172,
R179). -/
def v4Block : Act Unit := do
  let e ← readV4
  modify fun s => s.paint (v4Pixels e)

/-- The next flag of an active stream; a disabled stream reads nothing and its flag is constantly 0
(42_vector_unpacker.md R162). -/
def flagIfActive (f : FlagStream) (active : Bool) : Act Bool :=
  if active then takeFlag f else pure false

/-- A block that is not skipped: selector bit 0 is V1, 1 is V4 (42_vector_unpacker.md R167, R168, R174). -/
def codedBlock (selEn : Bool) : Act Unit := do
  let isV4 ← flagIfActive .sel selEn
  if isV4 then v4Block else v1Block

/-- One block of the walk: a skip bit of 1 leaves it untouched (42_vector_unpacker.md R164 to R166,
R174). -/
def vectorBlock (skipEn selEn : Bool) : Act Unit := do
  let skip ← flagIfActive .skip skipEn
  if skip then pure () else codedBlock selEn

/-- `BX <- BX + 4` (42_vector_unpacker.md R163). -/
def nextColumn : Act Unit := modify fun s => { s with bX := s.bX + 4#17 }

/-- `BX <- STRIP[SI].LEFT` (42_vector_unpacker.md R163). -/
def firstColumn : Act Unit := modify fun s => { s with bX := s.curStrip.left.setWidth 17 }

/-- `BY <- BY + 4` (42_vector_unpacker.md R163). -/
def nextRow : Act Unit := modify fun s => { s with bY := s.bY + 4#33 }

/-- `BY <- STRIP[SI].TOP` (42_vector_unpacker.md R163). -/
def firstRow : Act Unit := modify fun s => { s with bY := s.curStrip.top.setWidth 33 }

/-- The inner loop of the block walk: while `BX < RIGHT`, one block and `BX <- BX + 4`; the number bounds
the turns (42_vector_unpacker.md R163). -/
def walkRow (skipEn selEn : Bool) : Nat → Act Unit
  | 0 => pure ()
  | n + 1 => fun s =>
    if s.bX.toNat < s.curStrip.right.toNat then
      (do vectorBlock skipEn selEn; nextColumn; walkRow skipEn selEn n) s
    else .ok () s

/-- `ceil(n / 4)`: the turns of a loop that covers `n` in steps of 4. -/
def steps4 (n : Nat) : Nat := (n + 3) / 4

/-- The blocks in one row of the walk over a strip (42_vector_unpacker.md R163). -/
def StripRec.blockCols (r : StripRec) : Nat := steps4 (r.right.toNat - r.left.toNat)

/-- The rows of blocks in the walk over a strip (42_vector_unpacker.md R163). -/
def StripRec.blockRows (r : StripRec) : Nat := steps4 (r.bottom.toNat - r.top.toNat)

/-- The outer loop of the block walk: while `BY < BOTTOM`, one row of blocks and `BY <- BY + 4`; the number
bounds the turns (42_vector_unpacker.md R163). -/
def walkRows (skipEn selEn : Bool) : Nat → Act Unit
  | 0 => pure ()
  | n + 1 => fun s =>
    if s.bY.toNat < s.curStrip.bottom.toNat then
      (do firstColumn; walkRow skipEn selEn s.curStrip.blockCols; nextRow; walkRows skipEn selEn n) s
    else .ok () s

/-- `DecodeVectors()`: both flag streams empty, then the block walk (42_vector_unpacker.md R161, R163,
R174). -/
def decodeVectors (skipEn selEn : Bool) : Act Unit := do
  clearFlag .skip
  clearFlag .sel
  firstRow
  let s ← get
  walkRows skipEn selEn s.curStrip.blockRows

/-- `VEC.SEL` (42_vector_unpacker.md R175). -/
def execVecSel (z : Size) (s : State) : Host.Outcome State Fault Refusal :=
  runChunk 0x30#8 z (decodeVectors false true) s

/-- `VEC.SKIP.SEL` (42_vector_unpacker.md R176). -/
def execVecSkipSel (z : Size) (s : State) : Host.Outcome State Fault Refusal :=
  runChunk 0x31#8 z (decodeVectors true true) s

/-- `VEC.V1` (42_vector_unpacker.md R177). -/
def execVecV1 (z : Size) (s : State) : Host.Outcome State Fault Refusal :=
  runChunk 0x32#8 z (decodeVectors false false) s

end Sys2Proof.Machine
end

