-- ==== Sys2Proof/Machine/Dispatch.lean ====
section
/-! DEFINITION. The dispatch of one chunk whose 4-byte header has been read, `POS` standing at its first
payload byte (40_frame_decoder.md R127): one arm per instruction. -/

namespace Sys2Proof.Machine

def exec (i : Instr) (s : State) : Host.Outcome State Fault Refusal :=
  match i with
  | .ldcbV4F6 z => Sys2Proof.Machine.execLdcbV4F6 z s
  | .ldcbV4C6 z => Sys2Proof.Machine.execLdcbV4C6 z s
  | .ldcbV1F6 z => Sys2Proof.Machine.execLdcbV1F6 z s
  | .ldcbV1C6 z => Sys2Proof.Machine.execLdcbV1C6 z s
  | .ldcbV4F4 z => Sys2Proof.Machine.execLdcbV4F4 z s
  | .ldcbV4C4 z => Sys2Proof.Machine.execLdcbV4C4 z s
  | .ldcbV1F4 z => Sys2Proof.Machine.execLdcbV1F4 z s
  | .ldcbV1C4 z => Sys2Proof.Machine.execLdcbV1C4 z s
  | .vecSel z => Sys2Proof.Machine.execVecSel z s
  | .vecSkipSel z => Sys2Proof.Machine.execVecSkipSel z s
  | .vecV1 z => Sys2Proof.Machine.execVecV1 z s

end Sys2Proof.Machine
end

