-- ==== Sys2Proof/Machine/Frame.lean ====
section
/-! DEFINITION. The unit `video_codec_decoder`, without its chunk loop: the frame header and the allocation
latch (40_frame_decoder.md R110 to R114), the strip header and codebook inheritance (R115 to R121), the end
of a strip and of a frame (R131, R132). -/

namespace Sys2Proof.Machine

/-- Frame decode entry, on START (40_frame_decoder.md R110). -/
def State.enterFrame (s : State) : State :=
  { s with phase := .busy, cause := .none, finfo := 0, pos := s.startPos, seq := .frameHeader }

/-- The ten bytes of the frame header; the fields read before a failing read keep their new values
(40_frame_decoder.md R111; 30_encoding.md R81). -/
def readFrameHeader : Act Unit := do
  let f ← readU8
  modify fun s => { s with flags := f }
  let n ← readU24
  modify fun s => { s with frameLen := n }
  let w ← readU16
  modify fun s => { s with width := w }
  let h ← readU16
  modify fun s => { s with height := h }
  let k ← readU16
  modify fun s => { s with nstrips := k }

/-- The raster bytes of a frame of the size in the frame registers (40_frame_decoder.md R112). -/
def State.rasterNeed (s : State) : Nat := s.width.toNat * s.height.toNat * 3

/-- First frame since reset: the capacity checks and the latch (40_frame_decoder.md R112). -/
def allocate : Act Unit := do
  let s ← get
  raiseIf (decide (s.nstrips.toNat > s.maxStrips)) .capacity 0
  raiseIf (decide (s.rasterNeed > s.rasterCap)) .capacity 1
  modify fun t =>
    { t with alloc := true, allocW := t.width, allocH := t.height, allocN := t.nstrips }

/-- Later frames: the dimensions are those latched and the strips fit (40_frame_decoder.md R113). -/
def checkAllocation : Act Unit := do
  let s ← get
  raiseIf (decide (s.width ≠ s.allocW ∨ s.height ≠ s.allocH)) .dimMismatch 0
  raiseIf (decide (s.nstrips.toNat > s.allocN.toNat)) .dimMismatch 1

/-- The first or a later frame, by the latch (40_frame_decoder.md R112, R113). -/
def acceptFrame : Act Unit := fun s => if s.alloc then checkAllocation s else allocate s

/-- Entry of the strip loop: strip 0, or the normal completion of a frame without strips
(40_frame_decoder.md R115, R132). -/
def State.enterStrips (s : State) : State :=
  if s.nstrips = 0#16 then { s with phase := .done }
  else { s with si := 0#16, seq := .stripHeader }

/-- The step from START's entry to the first strip (40_frame_decoder.md R111 to R115). -/
def frameHeaderStep : Act Unit := do
  readFrameHeader
  acceptFrame
  modify fun s => { s with rowcur := 0#32 }
  modify State.enterStrips

/-- Codebook inheritance: with `SI > 0` and `FLAGS[0] = 0`, both tables of the previous strip
(40_frame_decoder.md R116, R117). -/
def State.inherit (s : State) : State :=
  { s with cb :=
      if s.si ≠ 0#16 ∧ s.flags.getLsbD 0 = false then cbCopy s.cb (s.si.toNat - 1) s.si.toNat
      else s.cb }

/-- The twelve bytes of the strip header; the stream's own top, left and right are read and discarded
(40_frame_decoder.md R118, R119; 30_encoding.md R82, R87, R89). -/
def readStripHeader : Act Unit := do
  let i ← readU16
  modify fun s => s.updCurStrip fun r => { r with id := i }
  let l ← readU16
  raiseIf (decide (l.toNat < 12)) .badStripLength l.toNat
  modify fun s => s.updCurStrip fun r => { r with len := BitVec.ofNat 16 (l.toNat - 12) }
  let _ ← readU16
  modify fun s => s.updCurStrip fun r => { r with top := s.rowcur }
  let _ ← readU16
  modify fun s => s.updCurStrip fun r => { r with left := 0#16 }
  let h ← readU16
  modify fun s => s.updCurStrip fun r => { r with bottom := s.rowcur + h.setWidth 32 }
  let _ ← readU16
  modify fun s => s.updCurStrip fun r => { r with right := s.width }

/-- The start of a strip: inheritance, strip header, span start (40_frame_decoder.md R116, R118, R121). -/
def stripHeaderStep : Act Unit := do
  modify State.inherit
  readStripHeader
  modify fun s => { s with spanStart := s.pos, seq := .chunkLoop }

/-- The end of the current strip's span (40_frame_decoder.md R122). -/
def State.spanEnd (s : State) : Nat := s.spanStart + s.curStrip.len.toNat

/-- The end of a strip: the row cursor advances, then the next strip or the normal completion of the frame
(40_frame_decoder.md R115, R131, R132). -/
def State.endStrip (s : State) : State :=
  if s.si.toNat + 1 < s.nstrips.toNat then
    { s with rowcur := s.curStrip.bottom, si := s.si + 1#16, seq := .stripHeader }
  else { s with rowcur := s.curStrip.bottom, phase := .done }

end Sys2Proof.Machine
end

