-- ==== Sys2Proof/Machine/HostPort.lean ====
section
/-! DEFINITION. The host interface (60_exceptions.md R215 to R219; 10_state.md R34; 70_reset_and_hazards.md
R230 to R232): what each command of the host does. -/

namespace Sys2Proof.Machine

/-- The level output `done` (60_exceptions.md R212; 20_memory.md R74). -/
def State.doneLine (s : State) : Bool := s.phase = .done || s.phase = .failed

/-- What the host reads from a register (10_state.md R34). -/
def State.hostReg (s : State) : HostReg → Nat
  | .startPos => s.startPos
  | .streamLen => s.streamLen
  | .phase => s.phase.code.toNat
  | .cause => s.cause.code.toNat
  | .finfo => s.finfo
  | .width => s.width.toNat
  | .height => s.height.toNat
  | .nstrips => s.nstrips.toNat
  | .flags => s.flags.toNat
  | .frameLen => s.frameLen.toNat

/-- What the host may do while `PHASE = BUSY`: wait, reset, START (which is ignored), and read the status
(60_exceptions.md R216, R218; log entry 8). -/
def HostCmd.allowedWhileBusy : HostCmd → Bool
  | .wait => true
  | .start => true
  | .reset => true
  | .readReg .phase => true
  | .readReg .cause => true
  | .readReg .finfo => true
  | _ => false

/-- START: a frame decode begins, or nothing happens while one runs (60_exceptions.md R215, R216). -/
def State.start (s : State) : State := if s.phase = .busy then s else s.enterFrame

/-- Reset: every register of the block to its reset value, the raster unspecified; S, the parameters and
the host's own pending commands are no state of the block (70_reset_and_hazards.md R230 to R232; 10_state.md
R41; log entry 7). -/
def State.hostReset (s : State) : State :=
  { State.reset with
    stream := s.stream, maxStrips := s.maxStrips, rasterCap := s.rasterCap,
    host := s.host, hostData := s.hostData, epoch := s.epoch + 1 }

/-- A write of bytes into R by the host (60_exceptions.md R218). -/
def State.hostWriteRaster (s : State) (a : Nat) (bytes : List Byte) : Host.Outcome State Fault Refusal :=
  if a + bytes.length ≤ s.rasterCap then .next { s with raster := s.raster.write a bytes }
  else .fault (.rasterAddress (max a s.rasterCap))

/-- A read of a byte of R by the host (60_exceptions.md R217, R218). -/
def State.hostReadRaster (s : State) (a : Nat) : Host.Outcome State Fault Refusal :=
  if a < s.rasterCap then .next { s with hostData := (rasterByte s a).toNat }
  else .fault (.rasterAddress a)

/-- The effect of a command the host is free to give. -/
def State.runCmd (s : State) : HostCmd → Host.Outcome State Fault Refusal
  | .wait => .next s
  | .start => .next s.start
  | .reset => .next s.hostReset
  | .writeStartPos p => .next { s with startPos := p }
  | .writeStreamLen n => .next { s with streamLen := n }
  | .writeStream a bytes => .next { s with stream := s.stream.write a bytes }
  | .writeRaster a bytes => s.hostWriteRaster a bytes
  | .readRaster a => s.hostReadRaster a
  | .readReg r => .next { s with hostData := s.hostReg r }

/-- One command of the host. A breach of the host's duties while `PHASE = BUSY` has no meaning in the spec
and is refused (60_exceptions.md R218; 93_implementation_defined.md U13). -/
def State.hostCmd (s : State) (c : HostCmd) : Host.Outcome State Fault Refusal :=
  if s.phase = .busy ∧ c.allowedWhileBusy = false then .refused (.hostAccessWhileBusy c)
  else s.runCmd c

end Sys2Proof.Machine
end

