-- ==== Sys2Proof/Machine/Sequencer.lean ====
section
/-! DEFINITION. The chunk loop of the frame sequencer (40_frame_decoder.md R122 to R130), and the order in
which the block and the host take steps (00_scope.md R7; log entries 5 and 6). -/

namespace Sys2Proof.Machine

/-- Reads the four bytes of a chunk header at `POS`: the id, which goes to `CID` at once, then the two parts
of the size (40_frame_decoder.md R124, R125). -/
def fetchHeader : Act (List Byte) := do
  let id ← readU8
  modify fun s => { s with cid := id }
  let z ← readU24
  return headerBytes id z

/-- A header whose id is none of the eleven: the size is judged first, then `UnknownChunk(CID)` is raised
(40_frame_decoder.md R125, R127; 60_exceptions.md R202). -/
def rejectHeader (id : Byte) (z : Size) : Act Unit := do
  latchHeader id z
  raiseIf true .unknownChunk id.toNat

/-- Dispatch on the header bytes just read (40_frame_decoder.md R127). -/
def dispatchHeader (bytes : List Byte) (s : State) : Host.Outcome State Fault Refusal :=
  match decode bytes with
  | .ok (i, _) => exec i s
  | .error _ =>
    match bytes with
    | id :: z2 :: z1 :: z0 :: _ => finish (rejectHeader id (sizeOfBytes z2 z1 z0)) s
    | _ => .next s

/-- One turn of the chunk loop: header, dispatch, handler, reposition (40_frame_decoder.md R122 to R129). -/
def chunkStep (s : State) : Host.Outcome State Fault Refusal :=
  match fetchHeader s with
  | .ok bytes t => dispatchHeader bytes t
  | .error (.raise c info) t => .next (t.raiseFault c info)
  | .error .stop t => .next t

/-- The chunk loop's test, then one chunk or the end of the strip (40_frame_decoder.md R122, R131). -/
def chunkLoopStep (s : State) : Host.Outcome State Fault Refusal :=
  if s.pos < s.spanEnd then chunkStep s else .next s.endStrip

/-- One step of the block by itself. While `PHASE` is not `BUSY` it makes no change (60_exceptions.md
R219). -/
def advance (s : State) : Host.Outcome State Fault Refusal :=
  match s.phase with
  | .busy =>
    match s.seq with
    | .frameHeader => finish frameHeaderStep s
    | .stripHeader => finish stripHeaderStep s
    | .chunkLoop => chunkLoopStep s
  | _ => .next s

/-- One step of the block and its host: the host's next command, or a step of the block where the host has
none or waits. -/
def hostOrBlock (s : State) : Host.Outcome State Fault Refusal :=
  match s.host with
  | [] => advance s
  | .wait :: rest => advance { s with host := rest }
  | c :: rest => ({ s with host := rest } : State).hostCmd c

/-- The most payload bytes a loader chunk can consume: eight flag words and 256 entries of 6 bytes
(41_codebook_loader.md, section 2). -/
def longestLoaderPayload : Nat := 1568

/-- Stores a chunk header at `POS`, followed by its payload of zero bytes, and puts the sequencer in front of
it: what a run from START to this chunk would have left (log entry 15). -/
def State.placeChunk (s : State) (header : List Byte) (z : Nat) : State :=
  ({ s with
      stream := s.stream.write s.pos (header ++ List.replicate (min (z - 4) longestLoaderPayload) 0#8)
      streamLen := max s.streamLen (s.pos + max z 4)
      spanStart := s.pos
      phase := .busy
      seq := .chunkLoop
      host := [] } : State).updCurStrip fun r => { r with len := 4#16 }

end Sys2Proof.Machine
end

