-- ==== Sys2Proof/Machine/Step.lean ====
section
/-! DEFINITION. The one step function, and the placing of an instruction where it fetches the next one. -/

namespace Sys2Proof.Machine

/-- One step of the machine. -/
def step (s : State) : Host.Outcome State Fault Refusal := hostOrBlock s

/-- The state in which the very next step fetches and runs the instruction of the table word (log entry
15). -/
def State.withFetchWord (s : State) (nbits w : Nat) : State :=
  s.placeChunk (tableWordBytes nbits w) (w % 2 ^ nbits % 2 ^ 24)

end Sys2Proof.Machine
end

