-- ==== Sys2Proof/WellFormed.lean ====
section
/-! DEFINITION. Which chunk headers are well formed. A chunk's total length is Z, never less than the 4
bytes of its own header (30_encoding.md R88, R99); every other value of the 24-bit field is legal. A header
with Z below 4 still decodes, and running it raises `BadChunkSize` (40_frame_decoder.md R124). -/

namespace Sys2Proof

/-- The stored size covers the header it counts (30_encoding.md R88, R99). -/
abbrev Instr.WellFormed (i : Instr) : Prop := 4 ≤ i.size.toNat

end Sys2Proof
end

