-- ==== Sys2Proof/Safety.lean ====
section
/-! DEFINITION. What a sound state is, and the terms the statements use: the fields of a header read straight
from the stream, the entry a payload position holds, and two closed forms of a chunk's payload
(30_encoding.md R96) that mention no mask, no flag register and no loop: which entries a conditional loader
replaces, and what a vector chunk does with each block; beside each, which of its reads the end of the stream
cuts. -/

namespace Sys2Proof.Machine

/-! ### Invariants -/

/-- Every sparse component is in its canonical form, so that equal contents are equal data. -/
def State.Canonical (s : State) : Prop :=
  s.raster.wf ∧ s.stream.wf ∧ (Rising s.cb ∧ ∀ p ∈ s.cb, p.2 ≠ Entry.zero) ∧
    (Rising s.strips ∧ ∀ p ∈ s.strips, p.2 ≠ StripRec.zero)

/-- `STRIP[s].LEFT` is hardwired to 0 (10_state.md R26, R34). -/
def State.LeftZero (s : State) : Prop := ∀ slot, (s.stripRec slot).left = 0#16

/-- `CAUSE` is 0 exactly while `PHASE` is not `FAILED`, and `FINFO` is 0 then (10_state.md R32). -/
def State.StatusAgrees (s : State) : Prop :=
  (s.phase = .failed ↔ s.cause ≠ .none) ∧ (s.cause = .none → s.finfo = 0)

/-- The latched frame fits the implementation's capacities (40_frame_decoder.md R112). -/
def State.LatchFits (s : State) : Prop :=
  s.alloc = true →
    s.allocN.toNat ≤ s.maxStrips ∧ s.allocW.toNat * s.allocH.toNat * 3 ≤ s.rasterCap

/-- Between the frame header and the end of the frame: the header was accepted, `SI` is a strip of the frame,
and the row cursor cannot have wrapped (10_state.md R24, R25; 40_frame_decoder.md R112, R113, R115). -/
def State.FrameAccepted (s : State) : Prop :=
  s.phase = .busy → s.seq ≠ .frameHeader →
    s.alloc = true ∧ s.width = s.allocW ∧ s.height = s.allocH ∧ s.nstrips.toNat ≤ s.allocN.toNat ∧
      s.si.toNat < s.nstrips.toNat ∧ s.rowcur.toNat ≤ s.si.toNat * 65535

/-- In the chunk loop: the current record is the current strip's (40_frame_decoder.md R118, R121). -/
def State.StripCurrent (s : State) : Prop :=
  s.phase = .busy → s.seq = .chunkLoop →
    s.curStrip.top = s.rowcur ∧ s.curStrip.right = s.width ∧
      s.rowcur.toNat ≤ s.curStrip.bottom.toNat ∧ s.curStrip.bottom.toNat ≤ s.rowcur.toNat + 65535 ∧
      s.spanStart ≤ s.pos

/-- Nothing is held outside the implementation's capacities (00_scope.md R9; 20_memory.md R50). -/
def State.WithinCapacity (s : State) : Prop :=
  (∀ p ∈ s.raster, p.1 < s.rasterCap) ∧ (∀ p ∈ s.cb, p.1 < s.maxStrips * 512) ∧
    (∀ p ∈ s.strips, p.1 < s.maxStrips)

/-- The invariant of a frame decode. -/
def State.FrameInv (s : State) : Prop :=
  s.LatchFits ∧ s.FrameAccepted ∧ s.StripCurrent ∧ s.WithinCapacity

/-! ### Positions of a run -/

/-- The block is in the chunk loop of a running decode, with no pending host command and span left. -/
def State.AtChunk (s : State) : Prop :=
  s.host = [] ∧ s.phase = .busy ∧ s.seq = .chunkLoop ∧ s.pos < s.spanEnd

/-- The block is about to read a frame header. -/
def State.AtFrameHeader (s : State) : Prop := s.host = [] ∧ s.phase = .busy ∧ s.seq = .frameHeader

/-- The block is about to start a strip. -/
def State.AtStripHeader (s : State) : Prop := s.host = [] ∧ s.phase = .busy ∧ s.seq = .stripHeader

/-! ### Fields read straight from the stream -/

/-- The 16-bit field of S at an address (20_memory.md R59). -/
def State.field16 (s : State) (a : Nat) : Nat := (streamByte s a).toNat * 256 + (streamByte s (a + 1)).toNat

/-- The 24-bit field of S at an address (20_memory.md R60). -/
def State.field24 (s : State) (a : Nat) : Nat := (streamByte s a).toNat * 65536 + s.field16 (a + 1)

/-- The 32-bit field of S at an address (20_memory.md R61). -/
def State.field32 (s : State) (a : Nat) : Nat := s.field16 a * 65536 + s.field16 (a + 2)

/-- The state with the five frame registers read from the ten bytes at `POS` (30_encoding.md R81). -/
def State.withFrameHeader (s : State) : State :=
  { s with
    flags := streamByte s s.pos
    frameLen := BitVec.ofNat 24 (s.field24 (s.pos + 1))
    width := BitVec.ofNat 16 (s.field16 (s.pos + 4))
    height := BitVec.ofNat 16 (s.field16 (s.pos + 6))
    nstrips := BitVec.ofNat 16 (s.field16 (s.pos + 8))
    pos := s.pos + 10 }

/-- The record the twelve bytes of a strip header at `POS` give, with the row cursor and the frame width
(30_encoding.md R82; 40_frame_decoder.md R118). -/
def State.stripOfHeader (s : State) : StripRec :=
  { id := BitVec.ofNat 16 (s.field16 s.pos)
    len := BitVec.ofNat 16 (s.field16 (s.pos + 2) - 12)
    top := s.rowcur
    left := 0#16
    bottom := BitVec.ofNat 32 (s.rowcur.toNat + s.field16 (s.pos + 8))
    right := s.width }

/-! ### Payload positions -/

/-- Byte `k` of a payload that begins at `POS`. -/
def State.payload (s : State) (k : Nat) : Byte := streamByte s (s.pos + k)

/-- The codebook entry whose bytes begin at payload position `o` (30_encoding.md R90, R92, R93). -/
def entryAt (form : EntryForm) (p : Nat → Byte) (o : Nat) : Entry :=
  { y0 := p o, y1 := p (o + 1), y2 := p (o + 2), y3 := p (o + 3)
    u := match form with
      | .six => BitVec.ofNat 8 (((p (o + 4)).toNat + 128) % 256)
      | .four => 128#8
    v := match form with
      | .six => BitVec.ofNat 8 (((p (o + 5)).toNat + 128) % 256)
      | .four => 128#8 }

/-- What reading that entry leaves in its place when the stream holds `n` of its bytes: all of it, or the fields
already written new and the rest old (41_codebook_loader.md R145, R146; 60_exceptions.md R208). -/
def entryHeld (form : EntryForm) (p : Nat → Byte) (o n : Nat) (old : Entry) : Entry :=
  let new := entryAt form p o
  if form.width ≤ n then new
  else
    { y0 := if 0 < n then new.y0 else old.y0
      y1 := if 1 < n then new.y1 else old.y1
      y2 := if 2 < n then new.y2 else old.y2
      y3 := if 3 < n then new.y3 else old.y3
      u := if 4 < n then new.u else old.u
      v := old.v }

/-- How many bytes the stream holds at and after `POS` (20_memory.md R62). -/
def State.avail (s : State) : Nat := s.streamLen - s.pos

/-- Decision `k` (0 to 31) of the flag word at payload position `o`: bit `31 - k` of the big-endian word,
that is bit `7 - k mod 8` of its byte `k / 8` (30_encoding.md R91). -/
def flagAt (p : Nat → Byte) (o k : Nat) : Bool := (p (o + k / 8)).getLsbD (7 - k % 8)

/-! ### Which entries a conditional loader replaces -/

/-- Where attempt `k` of a conditional loader finds things: the flag word in force and the next unread
payload position. -/
structure LoadCursor where
  word : Nat
  next : Nat
  deriving DecidableEq, Repr

/-- A flag word falls due at every 32nd attempt (30_encoding.md R96). -/
def LoadCursor.atAttempt (c : LoadCursor) (k : Nat) : LoadCursor :=
  if k % 32 = 0 then { word := c.next, next := c.next + 4 } else c

/-- The cursor before attempt `k`, or none when the payload budget ended the loader before it
(41_codebook_loader.md R147). -/
def loadCursor (p : Nat → Byte) (width budget : Nat) : Nat → Option LoadCursor
  | 0 => some { word := 0, next := 0 }
  | k + 1 =>
    match loadCursor p width budget k with
    | none => none
    | some c =>
      let d := c.atAttempt k
      if budget < d.next then none
      else if flagAt p d.word (k % 32) then
        if budget < d.next + width then none else some { d with next := d.next + width }
      else some d

/-- The payload position of the entry that replaces entry `k`, or none when entry `k` is left alone. -/
def replacedFrom (p : Nat → Byte) (width budget k : Nat) : Option Nat :=
  match loadCursor p width budget k with
  | none => none
  | some c =>
    let d := c.atAttempt k
    if d.next ≤ budget ∧ flagAt p d.word (k % 32) = true ∧ d.next + width ≤ budget then some d.next
    else none

/-- The payload position of the entry that an unconditional loader reads into entry `k`, or none when the budget
ends the loader before it (41_codebook_loader.md R144, R147). -/
def inOrderFrom (width budget k : Nat) : Option Nat :=
  if (k + 1) * width ≤ budget then some (k * width) else none

/-! ### Where the end of the stream cuts a loader (20_memory.md R62; 60_exceptions.md R205, R210) -/

/-- The payload position of the read that a stream of `avail` bytes cuts in attempt `k` of a conditional loader:
a flag word's own position, or within an entry the end of the stream; none when it holds the reads that the
budget admits. -/
def attemptCut (p : Nat → Byte) (width budget avail k : Nat) (c : LoadCursor) : Option Nat :=
  let d := c.atAttempt k
  if budget < d.next then none
  else if avail < d.next then some c.next
  else if flagAt p d.word (k % 32) = true ∧ d.next + width ≤ budget ∧ avail < d.next + width then some avail
  else none

/-- The first cut within the given number of attempts of a conditional loader. -/
def loadCut (p : Nat → Byte) (width budget avail : Nat) : Nat → Option Nat
  | 0 => none
  | k + 1 =>
    match loadCut p width budget avail k with
    | some next => some next
    | none =>
      match loadCursor p width budget k with
      | none => none
      | some c => attemptCut p width budget avail k c

/-- Where the stream cuts a conditional loader of size `z`; none when it holds every read. -/
def State.flaggedCut (s : State) (form : EntryForm) (z : Size) : Option Nat :=
  loadCut s.payload form.width (z.toNat - 4) s.avail 256

/-- Where the stream cuts an unconditional loader of size `z`; none when it holds the whole entries that the
payload has room for, 256 at most. -/
def State.inOrderCut (s : State) (form : EntryForm) (z : Size) : Option Nat :=
  if s.avail < min 256 ((z.toNat - 4) / form.width) * form.width then some s.avail else none

/-! ### What a vector chunk does with each block -/

/-- What a vector chunk does with one block (42_vector_unpacker.md R166, R169, R171). -/
inductive BlockAct where
  | skip
  | v1 (i : Byte)
  | v4 (i0 i1 i2 i3 : Byte)
  deriving DecidableEq, Repr

/-- Where a vector chunk stands before a block: the flag words in force, the next unread payload position,
and how many blocks have been coded. -/
structure VecCursor where
  skipWord : Nat
  selWord : Nat
  next : Nat
  coded : Nat
  deriving DecidableEq, Repr

/-- The start of a vector chunk. -/
def VecCursor.start : VecCursor := { skipWord := 0, selWord := 0, next := 0, coded := 0 }

/-- A skip word falls due at every 32nd block (30_encoding.md R96; 42_vector_unpacker.md R164). -/
def VecCursor.serveSkip (c : VecCursor) (skipEn : Bool) (b : Nat) : VecCursor :=
  if skipEn = true ∧ b % 32 = 0 then { c with skipWord := c.next, next := c.next + 4 } else c

/-- A selector word falls due at every 32nd coded block (30_encoding.md R96; 42_vector_unpacker.md R167). -/
def VecCursor.serveSel (c : VecCursor) (selEn : Bool) : VecCursor :=
  if selEn = true ∧ c.coded % 32 = 0 then { c with selWord := c.next, next := c.next + 4 } else c

/-- The index bytes of a coded block, if the budget holds them (42_vector_unpacker.md R169, R171). -/
def codeBlock (p : Nat → Byte) (budget : Nat) (isV4 : Bool) (c : VecCursor) : Option (BlockAct × VecCursor) :=
  if isV4 then
    if budget < c.next + 4 then none
    else some (.v4 (p c.next) (p (c.next + 1)) (p (c.next + 2)) (p (c.next + 3)),
      { c with next := c.next + 4, coded := c.coded + 1 })
  else
    if budget < c.next + 1 then none
    else some (.v1 (p c.next), { c with next := c.next + 1, coded := c.coded + 1 })

/-- Block `b` of a vector chunk, or none when the payload budget ends the walk there (42_vector_unpacker.md
R173, R174). -/
def planBlock (skipEn selEn : Bool) (p : Nat → Byte) (budget b : Nat) (c : VecCursor) :
    Option (BlockAct × VecCursor) :=
  let c1 := c.serveSkip skipEn b
  if budget < c1.next then none
  else if skipEn && flagAt p c1.skipWord (b % 32) then some (.skip, c1)
  else
    let c2 := c1.serveSel selEn
    if budget < c2.next then none
    else codeBlock p budget (selEn && flagAt p c2.selWord (c2.coded % 32)) c2

/-- The cursor before block `b`, or none when the walk ended before it. -/
def vecCursor (skipEn selEn : Bool) (p : Nat → Byte) (budget : Nat) : Nat → Option VecCursor
  | 0 => some VecCursor.start
  | b + 1 =>
    match vecCursor skipEn selEn p budget b with
    | none => none
    | some c => (planBlock skipEn selEn p budget b c).map Prod.snd

/-- What a vector chunk does with block `b` of its walk, or none when the walk ended before it was done. -/
def vecPlan (skipEn selEn : Bool) (p : Nat → Byte) (budget b : Nat) : Option BlockAct :=
  match vecCursor skipEn selEn p budget b with
  | none => none
  | some c => (planBlock skipEn selEn p budget b c).map Prod.fst

/-! ### Where the end of the stream cuts a vector chunk (20_memory.md R62; 60_exceptions.md R205, R210) -/

/-- The block a vector chunk was at when the stream cut it, and the payload position of the cut read. -/
structure VecCut where
  block : Nat
  next : Nat
  deriving DecidableEq, Repr

/-- The payload position of the read that a stream of `avail` bytes cuts in block `b`: a flag word's own position,
or among index bytes the end of the stream; none when it holds the reads that the budget admits. -/
def blockCut (skipEn selEn : Bool) (p : Nat → Byte) (budget avail b : Nat) (c : VecCursor) : Option Nat :=
  let c1 := c.serveSkip skipEn b
  if budget < c1.next then none
  else if avail < c1.next then some c.next
  else if skipEn && flagAt p c1.skipWord (b % 32) then none
  else
    let c2 := c1.serveSel selEn
    if budget < c2.next then none
    else if avail < c2.next then some c1.next
    else
      let n := if selEn && flagAt p c2.selWord (c2.coded % 32) then 4 else 1
      if c2.next + n ≤ budget ∧ avail < c2.next + n then some avail else none

/-- The first cut within the given number of blocks. -/
def vecCut (skipEn selEn : Bool) (p : Nat → Byte) (budget avail : Nat) : Nat → Option VecCut
  | 0 => none
  | b + 1 =>
    match vecCut skipEn selEn p budget avail b with
    | some cut => some cut
    | none =>
      match vecCursor skipEn selEn p budget b with
      | none => none
      | some c => (blockCut skipEn selEn p budget avail b c).map fun next => { block := b, next := next }

/-- Where the stream cuts a vector chunk of size `z` on the walk of the current strip; none when it holds every
read. -/
def State.vectorCut (s : State) (skipEn selEn : Bool) (z : Size) : Option VecCut :=
  vecCut skipEn selEn s.payload (z.toNat - 4) s.avail (s.curStrip.blockCols * s.curStrip.blockRows)

/-- The number, in walk order, of the block of a strip that holds the pixel (x, y); none outside the walk
(42_vector_unpacker.md R163). -/
def StripRec.blockOf (r : StripRec) (x y : Nat) : Option Nat :=
  if r.left.toNat ≤ x ∧ (x - r.left.toNat) / 4 < r.blockCols ∧
      r.top.toNat ≤ y ∧ (y - r.top.toNat) / 4 < r.blockRows then
    some ((y - r.top.toNat) / 4 * r.blockCols + (x - r.left.toNat) / 4)
  else none

/-- The colour an action gives the pixel (dx, dy) of its block, with the tables of the current strip; none
for a skipped block (42_vector_unpacker.md R166, R170, R172). -/
def State.actColour (s : State) (act : BlockAct) (dx dy : Nat) : Option Rgb :=
  match act with
  | .skip => none
  | .v1 i =>
    let e := s.entry s.si.toNat .v1 i
    some (convert (e.luma (2 * (dy / 2) + dx / 2)) e.u e.v)
  | .v4 i0 i1 i2 i3 =>
    let e := s.entry s.si.toNat .v4
      (if dy < 2 then (if dx < 2 then i0 else i1) else (if dx < 2 then i2 else i3))
    some (convert (e.luma (2 * (dy % 2) + dx % 2)) e.u e.v)

/-- The colour a plan gives the pixel (x, y), or none when the plan leaves it alone. -/
def State.planColour (s : State) (plan : Nat → Option BlockAct) (x y : Nat) : Option Rgb :=
  match s.curStrip.blockOf x y with
  | none => none
  | some b =>
    match plan b with
    | none => none
    | some act =>
      s.actColour act ((x - s.curStrip.left.toNat) % 4) ((y - s.curStrip.top.toNat) % 4)

/-! ### The shape of a chunk's result -/

/-- An unconditional loader's result: a next state in which the payload's entries fill the table from index 0
on, and nothing else of the store, and no register but the chunk's and the loader's, has changed. -/
def LoadsInOrder (out : Host.Outcome State Fault Refusal) (s : State) (id : Byte) (z : Size) (t : Table)
    (form : EntryForm) : Prop :=
  ∃ u : State, out = .next u ∧
    u = { s with cid := id, csize := BitVec.ofNat 24 (z.toNat - 4), cstart := s.pos,
                 pos := s.pos + (z.toNat - 4), lflag := 0#32, lmask := 0#32,
                 li := BitVec.ofNat 9 (min 256 ((z.toNat - 4) / form.width)), cb := u.cb } ∧
    (∀ k : Byte, u.entry s.si.toNat t k =
      if k.toNat < (z.toNat - 4) / form.width then entryAt form s.payload (k.toNat * form.width)
      else s.entry s.si.toNat t k) ∧
    ∀ slot t' (k : Byte), slot ≠ s.si.toNat ∨ t' ≠ t → u.entry slot t' k = s.entry slot t' k

/-- A conditional loader's result: a next state in which exactly the flagged entries that the budget
reaches are replaced. -/
def LoadsFlagged (out : Host.Outcome State Fault Refusal) (s : State) (id : Byte) (z : Size) (t : Table)
    (form : EntryForm) : Prop :=
  ∃ u : State, out = .next u ∧
    u = { s with cid := id, csize := BitVec.ofNat 24 (z.toNat - 4), cstart := s.pos,
                 pos := s.pos + (z.toNat - 4), lflag := u.lflag, lmask := u.lmask, li := u.li,
                 cb := u.cb } ∧
    (∀ k : Byte, u.entry s.si.toNat t k =
      match replacedFrom s.payload form.width (z.toNat - 4) k.toNat with
      | some o => entryAt form s.payload o
      | none => s.entry s.si.toNat t k) ∧
    ∀ slot t' (k : Byte), slot ≠ s.si.toNat ∨ t' ≠ t → u.entry slot t' k = s.entry slot t' k

/-- A loader's result when the stream cuts a read at payload position `cut`: the frame has failed with
`StreamUnderrun` there; the entries of the plan that lie before it are loaded, the one it falls into has the
fields whose bytes lie before it, and nothing else of the store, and no register but the chunk's, the loader's
and the status, has changed (60_exceptions.md R205, R208). -/
def LoadsUntilCut (out : Host.Outcome State Fault Refusal) (s : State) (id : Byte) (z : Size) (t : Table)
    (form : EntryForm) (plan : Nat → Option Nat) (cut : Nat) : Prop :=
  ∃ u : State, out = .next u ∧
    u = { s with cid := id, csize := BitVec.ofNat 24 (z.toNat - 4), cstart := s.pos,
                 pos := s.pos + cut, lflag := u.lflag, lmask := u.lmask, li := u.li, cb := u.cb,
                 phase := .failed, cause := .streamUnderrun, finfo := s.pos + cut } ∧
    (∀ k : Byte, u.entry s.si.toNat t k =
      match plan k.toNat with
      | some o => entryHeld form s.payload o (cut - o) (s.entry s.si.toNat t k)
      | none => s.entry s.si.toNat t k) ∧
    ∀ slot t' (k : Byte), slot ≠ s.si.toNat ∨ t' ≠ t → u.entry slot t' k = s.entry slot t' k

/-- R after a plan: every pixel the plan colours has that colour's three bytes, and every other byte of R is as
it was. -/
def Painted (s u : State) (plan : Nat → Option BlockAct) : Prop :=
  (∀ x y c : Nat, x < s.width.toNat → y < s.height.toNat → c < 3 →
    u.raster.read (pixelAddr s.width.toNat x y + c) =
      match s.planColour plan x y with
      | some rgb => rgb.bytes[c]?
      | none => s.raster.read (pixelAddr s.width.toNat x y + c)) ∧
  ∀ a, s.width.toNat * s.height.toNat * 3 ≤ a → u.raster.read a = s.raster.read a

/-- A vector chunk's result: a next state in which R is as the plan paints it, and no register but the chunk's
and the unpacker's has changed. -/
def PaintsPlan (out : Host.Outcome State Fault Refusal) (s : State) (id : Byte) (z : Size)
    (plan : Nat → Option BlockAct) : Prop :=
  ∃ u : State, out = .next u ∧
    u = { s with cid := id, csize := BitVec.ofNat 24 (z.toNat - 4), cstart := s.pos,
                 pos := s.pos + (z.toNat - 4), bX := u.bX, bY := u.bY, skf := u.skf, skm := u.skm,
                 slf := u.slf, slm := u.slm, raster := u.raster } ∧
    Painted s u plan

/-- A vector chunk's result when the stream cuts it: the frame has failed with `StreamUnderrun` at the cut read;
the blocks before it are as the plan paints them, and no other byte of R, and no register but the chunk's, the
unpacker's and the status, has changed (60_exceptions.md R205, R208; 42_vector_unpacker.md R179). -/
def PaintsUntilCut (out : Host.Outcome State Fault Refusal) (s : State) (id : Byte) (z : Size)
    (plan : Nat → Option BlockAct) (cut : VecCut) : Prop :=
  ∃ u : State, out = .next u ∧
    u = { s with cid := id, csize := BitVec.ofNat 24 (z.toNat - 4), cstart := s.pos,
                 pos := s.pos + cut.next, bX := u.bX, bY := u.bY, skf := u.skf, skm := u.skm,
                 slf := u.slf, slm := u.slm, raster := u.raster,
                 phase := .failed, cause := .streamUnderrun, finfo := s.pos + cut.next } ∧
    Painted s u fun b => if b < cut.block then plan b else none

/-- What the chunks of a loader may change: the chunk's and the loader's registers, the status, and one
table of the current strip. -/
def LoaderFrame (s u : State) (t : Table) : Prop :=
  u = { s with cid := u.cid, csize := u.csize, cstart := u.cstart, pos := u.pos, lflag := u.lflag,
               lmask := u.lmask, li := u.li, cb := u.cb, phase := u.phase, cause := u.cause,
               finfo := u.finfo } ∧
  ∀ slot t' (k : Byte), slot ≠ s.si.toNat ∨ t' ≠ t → u.entry slot t' k = s.entry slot t' k

/-- What a vector chunk may change: the chunk's and the unpacker's registers, the status, and in R the pixels
of the frame that lie in a block of the strip's walk. -/
def VectorFrame (s u : State) : Prop :=
  u = { s with cid := u.cid, csize := u.csize, cstart := u.cstart, pos := u.pos, bX := u.bX, bY := u.bY,
               skf := u.skf, skm := u.skm, slf := u.slf, slm := u.slm, raster := u.raster,
               phase := u.phase, cause := u.cause, finfo := u.finfo } ∧
  (∀ x y c, x < s.width.toNat → y < s.height.toNat → c < 3 → s.curStrip.blockOf x y = none →
    u.raster.read (pixelAddr s.width.toNat x y + c) = s.raster.read (pixelAddr s.width.toNat x y + c)) ∧
  ∀ a, s.width.toNat * s.height.toNat * 3 ≤ a → u.raster.read a = s.raster.read a

end Sys2Proof.Machine
end

