-- ==== Sys2Proof/Certificates/Slice0/Obligations.lean ====
section
/-! DEFINITION. The statements for the provers. Each says what the spec's rules named in its docstring say of
the machine; a statement about the model's own choice says so. -/

open Sys2Proof Sys2Proof.Machine

/-! ### Reading the stream -/

/-- 20_memory.md R58 to R62: the four reads are big-endian, advance `POS` by their bytes, and where they do
not fit read nothing and raise `StreamUnderrun(POS)`, as a read of any number of bytes does; the 24-bit read
is an 8-bit and a 16-bit read. -/
def Obligations.StreamReadsAreBigEndianOrUnderrun : Prop :=
  ∀ s : State,
    (readU8 s =
      if s.streamLen < s.pos + 1 then .error (.raise .streamUnderrun s.pos) s
      else .ok (streamByte s s.pos) { s with pos := s.pos + 1 }) ∧
    (readU16 s =
      if s.streamLen < s.pos + 2 then .error (.raise .streamUnderrun s.pos) s
      else .ok (BitVec.ofNat 16 (s.field16 s.pos)) { s with pos := s.pos + 2 }) ∧
    (readU24 s =
      if s.streamLen < s.pos + 1 then .error (.raise .streamUnderrun s.pos) s
      else if s.streamLen < s.pos + 3 then
        .error (.raise .streamUnderrun (s.pos + 1)) { s with pos := s.pos + 1 }
      else .ok (BitVec.ofNat 24 (s.field24 s.pos)) { s with pos := s.pos + 3 }) ∧
    (readU32 s =
      if s.streamLen < s.pos + 4 then .error (.raise .streamUnderrun s.pos) s
      else .ok (BitVec.ofNat 32 (s.field32 s.pos)) { s with pos := s.pos + 4 }) ∧
    ∀ n, readBytes n s =
      if s.streamLen < s.pos + n then .error (.raise .streamUnderrun s.pos) s
      else .ok ((List.range n).map fun k => streamByte s (s.pos + k)) { s with pos := s.pos + n }

/-! ### Memory and the raster -/

/-- 20_memory.md R56: a write stores its bytes at rising addresses, the first at the lowest, and has no other
effect; the memory keeps its canonical form. -/
def Obligations.MemoryWriteStoresItsBytesOnly : Prop :=
  ∀ (m : Memory) (a : Nat) (bs : List Byte),
    (∀ k, (m.write a bs).read k = if a ≤ k ∧ k < a + bs.length then bs[k - a]? else m.read k) ∧
    (m.wf → (m.write a bs).wf)

/-- 43_yuv_to_rgb.md R190: `PutPixel` stores blue, green and red of the converted samples at
`(y * WIDTH + x) * 3`, and nothing when the pixel is outside the frame. -/
def Obligations.PutPixelStoresBlueGreenRed : Prop :=
  ∀ (s : State) (x y : Nat) (lum u v : Byte),
    (x < s.width.toNat ∧ y < s.height.toNat →
      s.putPixel x y lum u v = { s with raster := (s.putPixel x y lum u v).raster } ∧
      ∀ a, (s.putPixel x y lum u v).raster.read a =
        if a = (y * s.width.toNat + x) * 3 then some (convert lum u v).b
        else if a = (y * s.width.toNat + x) * 3 + 1 then some (convert lum u v).g
        else if a = (y * s.width.toNat + x) * 3 + 2 then some (convert lum u v).r
        else s.raster.read a) ∧
    (¬ (x < s.width.toNat ∧ y < s.height.toNat) → s.putPixel x y lum u v = s)

/-! ### The colour conversion -/

/-- 43_yuv_to_rgb.md R186 to R189: the three channels are the clamped exact sums, which stay in the ranges the
rules give; the halved chroma truncates toward zero. -/
def Obligations.ColourChannelsAreClampedSums : Prop :=
  (∀ lum u v : Byte,
    ((convert lum u v).r.toNat : Int) = max 0 (min 255 ((lum.toNat : Int) + 2 * ((v.toNat : Int) - 128))) ∧
    ((convert lum u v).g.toNat : Int) =
      max 0 (min 255
        ((lum.toNat : Int) - Int.tdiv ((u.toNat : Int) - 128) 2 - ((v.toNat : Int) - 128))) ∧
    ((convert lum u v).b.toNat : Int) = max 0 (min 255 ((lum.toNat : Int) + 2 * ((u.toNat : Int) - 128))) ∧
    (-256 ≤ redSum lum v ∧ redSum lum v ≤ 509) ∧
    (-190 ≤ greenSum lum u v ∧ greenSum lum u v ≤ 447) ∧
    (-256 ≤ blueSum lum u ∧ blueSum lum u ≤ 509)) ∧
  [-1, -3, -127, -128, 1, 127].map (fun a : Int => Int.tdiv a 2) = [0, -1, -63, -64, 0, 63]

/-- 43_yuv_to_rgb.md R193: neutral chroma gives grey; the chroma of a never-loaded entry gives no red, no
blue, and `min(Y + 192, 255)` green. -/
def Obligations.NeutralAndUnloadedChroma : Prop :=
  ∀ lum : Byte,
    convert lum 128#8 128#8 = { r := lum, g := lum, b := lum } ∧
    (convert lum 0#8 0#8).r = 0#8 ∧ (convert lum 0#8 0#8).g.toNat = min (lum.toNat + 192) 255 ∧
    (convert lum 0#8 0#8).b = 0#8

/-- 43_yuv_to_rgb.md R194: the eleven worked values, as raster bytes B, G, R. -/
def Obligations.WorkedColourValues : Prop :=
  (convert 100#8 150#8 150#8).bytes = [0x90#8, 0x43#8, 0x90#8] ∧
  (convert 255#8 255#8 255#8).bytes = [0xFF#8, 0x41#8, 0xFF#8] ∧
  (convert 0#8 0#8 0#8).bytes = [0x00#8, 0xC0#8, 0x00#8] ∧
  (convert 255#8 0#8 0#8).bytes = [0x00#8, 0xFF#8, 0x00#8] ∧
  (convert 0#8 255#8 255#8).bytes = [0xFE#8, 0x00#8, 0xFE#8] ∧
  (convert 128#8 128#8 128#8).bytes = [0x80#8, 0x80#8, 0x80#8] ∧
  (convert 128#8 127#8 128#8).bytes = [0x7E#8, 0x80#8, 0x80#8] ∧
  (convert 128#8 125#8 128#8).bytes = [0x7A#8, 0x81#8, 0x80#8] ∧
  (convert 128#8 129#8 128#8).bytes = [0x82#8, 0x80#8, 0x80#8] ∧
  (convert 16#8 128#8 0#8).bytes = [0x10#8, 0x90#8, 0x00#8] ∧
  (convert 200#8 255#8 128#8).bytes = [0xFF#8, 0x89#8, 0xC8#8]

/-! ### Encoding -/

/-- 30_encoding.md R83, R85: every instruction, with every size, is what its own bytes decode to. -/
def Obligations.DecodeOfEncodeIsTheInstruction : Prop :=
  ∀ (i : Instr) (rest : List Byte), decode (encode i ++ rest) = .ok (i, rest)

/-- 30_encoding.md R83, R85: bytes that decode are the encoding of what they decode to. -/
def Obligations.DecodedBytesAreTheEncoding : Prop :=
  ∀ (bs : List Byte) (i : Instr) (rest : List Byte), decode bs = .ok (i, rest) → bs = encode i ++ rest

/-- 30_encoding.md R97: an id that is no instruction's is rejected as an unknown chunk, whatever the size
says; 245 of the 256 ids are. -/
def Obligations.UnlistedIdsAreUnknownChunks : Prop :=
  (∀ (id z2 z1 z0 : Byte) (rest : List Byte), (∀ i : Instr, chunkId i ≠ id) →
    decode (id :: z2 :: z1 :: z0 :: rest) = .error (.unknownChunk id)) ∧
  ((List.range 256).filter fun n => (instrOfHeader (BitVec.ofNat 8 n) 4#24).isNone).length = 245

/-- 30_encoding.md R85: a header word written out from the encoding of each instruction (the worked examples
of R148 to R155 and R175 to R177) decodes to it. -/
def Obligations.HeaderWordsDecode : Prop :=
  decodeTableWord 32 0x20000010 = some (.ldcbV4F6 16#24) ∧
  decodeTableWord 32 0x21000014 = some (.ldcbV4C6 20#24) ∧
  decodeTableWord 32 0x2200000A = some (.ldcbV1F6 10#24) ∧
  decodeTableWord 32 0x2300000E = some (.ldcbV1C6 14#24) ∧
  decodeTableWord 32 0x2400000C = some (.ldcbV4F4 12#24) ∧
  decodeTableWord 32 0x2500000C = some (.ldcbV4C4 12#24) ∧
  decodeTableWord 32 0x2600000A = some (.ldcbV1F4 10#24) ∧
  decodeTableWord 32 0x27000007 = some (.ldcbV1C4 7#24) ∧
  decodeTableWord 32 0x3000000D = some (.vecSel 13#24) ∧
  decodeTableWord 32 0x31000008 = some (.vecSkipSel 8#24) ∧
  decodeTableWord 32 0x32000006 = some (.vecV1 6#24) ∧
  decodeTableWord 32 0x33000004 = none

/-- 30_encoding.md R84; 41_codebook_loader.md R140, R141; 42_vector_unpacker.md R161: what each of the eleven
meanings does is what the mode bits of its id say. -/
def Obligations.MeaningsFollowTheModeBits : Prop :=
  (∀ (i : Instr) (s : State), (chunkId i).extractLsb' 4 4 = 2#4 →
    exec i s = runChunk (chunkId i) i.size
      (loadCodebook (tableOfId (chunkId i)) (conditionalOfId (chunkId i)) (formOfId (chunkId i))) s) ∧
  ∀ (i : Instr) (s : State), (chunkId i).extractLsb' 4 4 = 3#4 →
    exec i s = runChunk (chunkId i) i.size
      (decodeVectors (skipOfId (chunkId i)) (selOfId (chunkId i))) s

/-- 10_state.md R31 and 60_exceptions.md R201: the encodings of `PHASE` and `CAUSE`. -/
def Obligations.CodesOfPhaseAndCause : Prop :=
  [Phase.idle, .busy, .done, .failed].map Phase.code = [0#2, 1#2, 2#2, 3#2] ∧
  [Cause.none, .unknownChunk, .streamUnderrun, .badChunkSize, .badStripLength, .capacity,
    .dimMismatch].map Cause.code = [0#4, 1#4, 2#4, 3#4, 4#4, 5#4, 6#4]

/-! ### Reset and the host -/

/-- 10_state.md R42, 70_reset_and_hazards.md R230: what the spec says reset leaves; of the raster no byte has a
value. -/
def Obligations.ResetLeavesTheSpecifiedValues : Prop :=
  State.reset.phase = .idle ∧ State.reset.cause = .none ∧ State.reset.finfo = 0 ∧
  State.reset.alloc = false ∧ State.reset.raster = [] ∧
  ∀ (slot : Nat) (t : Table) (i : Byte), State.reset.entry slot t i = Entry.zero

/-- 70_reset_and_hazards.md R230 to R232: the reset command, in any phase, gives every register of the block
its reset value and keeps S. That it also keeps the parameters and counts the reset is the model's own
choice (log entries 2, 3 and 7). -/
def Obligations.ResetCommandRestoresTheBlock : Prop :=
  ∀ (s : State) (rest : List HostCmd), s.host = .reset :: rest →
    step s = .next { State.reset with
      stream := s.stream, maxStrips := s.maxStrips, rasterCap := s.rasterCap, host := rest,
      hostData := s.hostData, epoch := s.epoch + 1 }

/-- 60_exceptions.md R215, 40_frame_decoder.md R110: START outside `BUSY` enters the frame decode and
touches nothing but `PHASE`, `CAUSE`, `FINFO` and `POS` (and the sequencer's position, log entry 5). -/
def Obligations.StartEntersTheFrameDecode : Prop :=
  ∀ (s : State) (rest : List HostCmd), s.host = .start :: rest → s.phase ≠ .busy →
    step s = .next { s with host := rest, phase := .busy, cause := .none, finfo := 0, pos := s.startPos,
                            seq := .frameHeader }

/-- 60_exceptions.md R216: START while `BUSY` has no effect. -/
def Obligations.StartWhileBusyIsIgnored : Prop :=
  ∀ (s : State) (rest : List HostCmd), s.host = .start :: rest → s.phase = .busy →
    step s = .next { s with host := rest }

/-- 60_exceptions.md R218: outside `BUSY` the host may write `START_POS`, `STREAM_LEN` and S, and write and
read R; nothing else changes. Three things are the model's choice: that an access that reaches beyond R stops
with the lowest address beyond it (log entry 10), that the value read appears in `hostData` (log entry 13), and
that S can be written at any address, also at or above `STREAM_LEN` (log entry 17). -/
def Obligations.HostAccessesOutsideBusy : Prop :=
  ∀ (s : State) (rest : List HostCmd) (n a : Nat) (bs : List Byte), s.phase ≠ .busy →
    step { s with host := .writeStartPos n :: rest } = .next { s with host := rest, startPos := n } ∧
    step { s with host := .writeStreamLen n :: rest } = .next { s with host := rest, streamLen := n } ∧
    step { s with host := .writeStream a bs :: rest } =
      .next { s with host := rest, stream := s.stream.write a bs } ∧
    (a + bs.length ≤ s.rasterCap → step { s with host := .writeRaster a bs :: rest } =
      .next { s with host := rest, raster := s.raster.write a bs }) ∧
    (s.rasterCap < a + bs.length → step { s with host := .writeRaster a bs :: rest } =
      .fault (.rasterAddress (max a s.rasterCap))) ∧
    (a < s.rasterCap → step { s with host := .readRaster a :: rest } =
      .next { s with host := rest, hostData := (rasterByte s a).toNat }) ∧
    (s.rasterCap ≤ a → step { s with host := .readRaster a :: rest } = .fault (.rasterAddress a))

/-- 60_exceptions.md R218, 93_implementation_defined.md U13: while `BUSY`, a host write of S, `START_POS` or
`STREAM_LEN`, or an access to R, is refused (log entry 8). -/
def Obligations.HostAccessesWhileBusyAreRefused : Prop :=
  ∀ (s : State) (rest : List HostCmd) (n a : Nat) (bs : List Byte), s.phase = .busy →
    ∀ c ∈ [HostCmd.writeStartPos n, .writeStreamLen n, .writeStream a bs, .writeRaster a bs, .readRaster a],
      step { s with host := c :: rest } = .refused (.hostAccessWhileBusy c)

/-- 10_state.md R31, R34, 60_exceptions.md R201, R218: a register the host reads gives its value, `PHASE` and
`CAUSE` their codes; `PHASE` can be read at any time, the registers of R34 outside `BUSY`. The model's choices:
that `CAUSE` and `FINFO` can be read while `BUSY` too, where R218 speaks of `PHASE` alone, and that a read of any
other register while `BUSY` is refused (log entry 8); that a read of `WIDTH`, `HEIGHT`, `NSTRIPS`, `FLAGS` or
`FRAME_LEN` outside `BUSY` gives what the register holds also where R34 does not call it valid, and that the value
appears in `hostData` (log entry 13). -/
def Obligations.HostReadsReturnTheRegisters : Prop :=
  (∀ (s : State) (rest : List HostCmd) (r : HostReg),
    (s.phase ≠ .busy ∨ r = .phase ∨ r = .cause ∨ r = .finfo →
      step { s with host := .readReg r :: rest } = .next { s with host := rest, hostData := s.hostReg r }) ∧
    (s.phase = .busy → r ≠ .phase → r ≠ .cause → r ≠ .finfo →
      step { s with host := .readReg r :: rest } = .refused (.hostAccessWhileBusy (.readReg r)))) ∧
  ∀ s : State,
    s.hostReg .phase = (match s.phase with | .idle => 0 | .busy => 1 | .done => 2 | .failed => 3) ∧
    s.hostReg .cause = (match s.cause with
      | .none => 0 | .unknownChunk => 1 | .streamUnderrun => 2 | .badChunkSize => 3 | .badStripLength => 4
      | .capacity => 5 | .dimMismatch => 6) ∧
    s.hostReg .finfo = s.finfo ∧ s.hostReg .width = s.width.toNat ∧ s.hostReg .height = s.height.toNat ∧
    s.hostReg .nstrips = s.nstrips.toNat ∧ s.hostReg .flags = s.flags.toNat ∧
    s.hostReg .frameLen = s.frameLen.toNat ∧ s.hostReg .startPos = s.startPos ∧
    s.hostReg .streamLen = s.streamLen

/-- 60_exceptions.md R219: outside `BUSY`, with no command of the host pending, no state changes. -/
def Obligations.QuiescentPhasesChangeNothing : Prop :=
  ∀ s : State, s.host = [] → s.phase ≠ .busy → step s = .next s

/-! ### The frame header -/

/-- 40_frame_decoder.md R111, R112, R114, R115, R132, 60_exceptions.md R210: a first frame within the
capacities sets the frame registers, the latch and the row cursor, and goes to strip 0, or to `DONE` when it
has none; one beyond a capacity fails, strips before raster, and the latch stays clear. That a frame without
strips leaves `SI` as it was is the model's inference (log entry 12). -/
def Obligations.FirstFrameIsCheckedAndLatched : Prop :=
  ∀ s : State, s.AtFrameHeader → s.alloc = false → s.pos + 10 ≤ s.streamLen →
    (s.maxStrips < s.withFrameHeader.nstrips.toNat →
      step s = .next { s.withFrameHeader with phase := .failed, cause := .capacity, finfo := 0 }) ∧
    (s.withFrameHeader.nstrips.toNat ≤ s.maxStrips →
      s.rasterCap < s.withFrameHeader.width.toNat * s.withFrameHeader.height.toNat * 3 →
      step s = .next { s.withFrameHeader with phase := .failed, cause := .capacity, finfo := 1 }) ∧
    (s.withFrameHeader.nstrips.toNat ≤ s.maxStrips →
      s.withFrameHeader.width.toNat * s.withFrameHeader.height.toNat * 3 ≤ s.rasterCap →
      step s = .next
        (if s.withFrameHeader.nstrips = 0#16 then
          { s.withFrameHeader with
              alloc := true, allocW := s.withFrameHeader.width, allocH := s.withFrameHeader.height,
              allocN := s.withFrameHeader.nstrips, rowcur := 0#32, phase := .done }
        else
          { s.withFrameHeader with
              alloc := true, allocW := s.withFrameHeader.width, allocH := s.withFrameHeader.height,
              allocN := s.withFrameHeader.nstrips, rowcur := 0#32, si := 0#16, seq := .stripHeader }))

/-- 40_frame_decoder.md R111, R113 to R115, R132: a later frame needs the latched dimensions and no more than the
latched strips; the dimensions are judged first (60_exceptions.md R210). That a frame without strips leaves `SI`
as it was is the model's inference (log entry 12). -/
def Obligations.LaterFrameMustMatchTheLatch : Prop :=
  ∀ s : State, s.AtFrameHeader → s.alloc = true → s.pos + 10 ≤ s.streamLen →
    (s.withFrameHeader.width ≠ s.allocW ∨ s.withFrameHeader.height ≠ s.allocH →
      step s = .next { s.withFrameHeader with phase := .failed, cause := .dimMismatch, finfo := 0 }) ∧
    (s.withFrameHeader.width = s.allocW → s.withFrameHeader.height = s.allocH →
      s.allocN.toNat < s.withFrameHeader.nstrips.toNat →
      step s = .next { s.withFrameHeader with phase := .failed, cause := .dimMismatch, finfo := 1 }) ∧
    (s.withFrameHeader.width = s.allocW → s.withFrameHeader.height = s.allocH →
      s.withFrameHeader.nstrips.toNat ≤ s.allocN.toNat →
      step s = .next
        (if s.withFrameHeader.nstrips = 0#16 then
          { s.withFrameHeader with rowcur := 0#32, phase := .done }
        else { s.withFrameHeader with rowcur := 0#32, si := 0#16, seq := .stripHeader }))

/-- 40_frame_decoder.md R111, 60_exceptions.md R205, R208: a frame header the stream does not hold fails with
`StreamUnderrun` at the read that does not fit; the registers already read keep their new values, and
nothing else changes. -/
def Obligations.CutFrameHeaderFails : Prop :=
  ∀ s : State, s.AtFrameHeader → s.streamLen < s.pos + 10 →
    ∃ u : State, step s = .next u ∧
      u = { s with flags := u.flags, frameLen := u.frameLen, width := u.width, height := u.height,
                   pos := u.pos, phase := .failed, cause := .streamUnderrun, finfo := u.pos } ∧
      u.flags = (if s.pos + 1 ≤ s.streamLen then s.withFrameHeader.flags else s.flags) ∧
      u.frameLen = (if s.pos + 4 ≤ s.streamLen then s.withFrameHeader.frameLen else s.frameLen) ∧
      u.width = (if s.pos + 6 ≤ s.streamLen then s.withFrameHeader.width else s.width) ∧
      u.height = (if s.pos + 8 ≤ s.streamLen then s.withFrameHeader.height else s.height) ∧
      u.pos = s.pos + (if s.streamLen < s.pos + 1 then 0 else if s.streamLen < s.pos + 2 then 1
        else if s.streamLen < s.pos + 4 then 2 else if s.streamLen < s.pos + 6 then 4
        else if s.streamLen < s.pos + 8 then 6 else 8)

/-! ### Strips -/

/-- 40_frame_decoder.md R116: copying tables makes the destination slot read as the source slot did, entry
for entry and field for field, and changes no other slot. -/
def Obligations.TableCopyIsVerbatim : Prop :=
  ∀ (cb : List (Nat × Entry)) (src dst slot : Nat) (t : Table) (i : Byte),
    cbGet (cbCopy cb src dst) slot t i = if slot = dst then cbGet cb src t i else cbGet cb slot t i

/-- 40_frame_decoder.md R116 to R118, R121: the start of a strip inherits the tables when `SI > 0` and
`FLAGS[0] = 0`, writes the record of slot `SI` from the header, the row cursor and the width, sets the span
start, and changes nothing else. -/
def Obligations.StripHeaderWritesItsRecord : Prop :=
  ∀ s : State, s.AtStripHeader → s.pos + 12 ≤ s.streamLen → 12 ≤ s.field16 (s.pos + 2) →
    ∃ u : State, step s = .next u ∧
      u = { s with cb := u.cb, strips := u.strips, pos := s.pos + 12, spanStart := s.pos + 12,
                   seq := .chunkLoop } ∧
      (∀ slot, u.stripRec slot = if slot = s.si.toNat then s.stripOfHeader else s.stripRec slot) ∧
      (∀ slot t (i : Byte), u.entry slot t i =
        if slot = s.si.toNat ∧ 0 < s.si.toNat ∧ s.flags.getLsbD 0 = false then
          s.entry (s.si.toNat - 1) t i
        else s.entry slot t i)

/-- 30_encoding.md R87, 60_exceptions.md R207: a stored strip length below 12 fails right after the length is
read, with `FINFO` the length; the inheritance copy has been made, only `ID` of the record is new. -/
def Obligations.ShortStripLengthFails : Prop :=
  ∀ s : State, s.AtStripHeader → s.pos + 4 ≤ s.streamLen → s.field16 (s.pos + 2) < 12 →
    ∃ u : State, step s = .next u ∧
      u = { s with cb := s.inherit.cb, strips := u.strips, pos := s.pos + 4, phase := .failed,
                   cause := .badStripLength, finfo := s.field16 (s.pos + 2) } ∧
      ∀ slot, u.stripRec slot =
        if slot = s.si.toNat then { s.curStrip with id := BitVec.ofNat 16 (s.field16 s.pos) }
        else s.stripRec slot

/-- 40_frame_decoder.md R116, R118, 60_exceptions.md R205, R210: a strip header the stream does not hold fails
with `StreamUnderrun` at the read that does not fit, unless its length fails first; the inheritance copy has
been made, and the fields of the record written before that read are new. -/
def Obligations.CutStripHeaderFails : Prop :=
  ∀ s : State, s.AtStripHeader → s.streamLen < s.pos + 12 →
    (s.pos + 4 ≤ s.streamLen → 12 ≤ s.field16 (s.pos + 2)) →
    ∃ u : State, step s = .next u ∧
      u = { s with cb := s.inherit.cb, strips := u.strips, pos := u.pos, phase := .failed,
                   cause := .streamUnderrun, finfo := u.pos } ∧
      u.pos = s.pos + (if s.streamLen < s.pos + 2 then 0 else if s.streamLen < s.pos + 4 then 2
        else if s.streamLen < s.pos + 6 then 4 else if s.streamLen < s.pos + 8 then 6
        else if s.streamLen < s.pos + 10 then 8 else 10) ∧
      ∀ slot, u.stripRec slot =
        if slot = s.si.toNat then
          { id := if s.pos + 2 ≤ s.streamLen then s.stripOfHeader.id else s.curStrip.id
            len := if s.pos + 4 ≤ s.streamLen then s.stripOfHeader.len else s.curStrip.len
            top := if s.pos + 6 ≤ s.streamLen then s.stripOfHeader.top else s.curStrip.top
            left := if s.pos + 8 ≤ s.streamLen then s.stripOfHeader.left else s.curStrip.left
            bottom := if s.pos + 10 ≤ s.streamLen then s.stripOfHeader.bottom else s.curStrip.bottom
            right := s.curStrip.right }
        else s.stripRec slot

/-- 40_frame_decoder.md R131, R115, R132: at the end of the span the row cursor goes to the strip's `BOTTOM`,
then the next strip starts, or the frame is `DONE`. That `SI` keeps the last strip's number then is the model's
inference (log entry 12). -/
def Obligations.EndOfSpanAdvancesTheRowCursor : Prop :=
  ∀ s : State, s.host = [] → s.phase = .busy → s.seq = .chunkLoop → s.spanEnd ≤ s.pos →
    step s = .next
      (if s.si.toNat + 1 < s.nstrips.toNat then
        { s with rowcur := s.curStrip.bottom, si := BitVec.ofNat 16 (s.si.toNat + 1), seq := .stripHeader }
      else { s with rowcur := s.curStrip.bottom, phase := .done })

/-! ### Chunk headers -/

/-- 40_frame_decoder.md R122, R124, R127: where the four bytes at `POS` decode to an instruction, the step is
that instruction's meaning, with `CID` written and `POS` past the header. -/
def Obligations.StepRunsTheDecodedInstruction : Prop :=
  ∀ (s : State) (i : Instr) (rest : List Byte), s.AtChunk → s.pos + 4 ≤ s.streamLen →
    decode (streamBytes s s.pos 4) = .ok (i, rest) →
    step s = exec i { s with cid := streamByte s s.pos, pos := s.pos + 4 }

/-- 40_frame_decoder.md R124, R125: a chunk header the stream does not hold fails with `StreamUnderrun`, first
on the id, then on either part of the size; an id that was read stays in `CID`. -/
def Obligations.CutChunkHeaderFails : Prop :=
  ∀ s : State, s.AtChunk →
    (s.streamLen < s.pos + 1 →
      step s = .next { s with phase := .failed, cause := .streamUnderrun, finfo := s.pos }) ∧
    (s.pos + 1 = s.streamLen →
      step s = .next { s with cid := streamByte s s.pos, pos := s.pos + 1, phase := .failed,
                              cause := .streamUnderrun, finfo := s.pos + 1 }) ∧
    (s.pos + 2 ≤ s.streamLen → s.streamLen < s.pos + 4 →
      step s = .next { s with cid := streamByte s s.pos, pos := s.pos + 2, phase := .failed,
                              cause := .streamUnderrun, finfo := s.pos + 2 })

/-- 40_frame_decoder.md R125, 60_exceptions.md R207: a stored size below 4 fails whatever the id is, with
`FINFO` the size; `CSIZE` and `CSTART` keep the previous chunk's values. -/
def Obligations.SmallChunkSizeFailsBeforeTheId : Prop :=
  ∀ s : State, s.AtChunk → s.pos + 4 ≤ s.streamLen → s.field24 (s.pos + 1) < 4 →
    step s = .next { s with cid := streamByte s s.pos, pos := s.pos + 4, phase := .failed,
                            cause := .badChunkSize, finfo := s.field24 (s.pos + 1) }

/-- 60_exceptions.md R202: an unknown id with a legal size fails with `FINFO` the id and `POS` at `CSTART`,
after the header; nothing else changes. -/
def Obligations.UnknownChunkFails : Prop :=
  ∀ s : State, s.AtChunk → s.pos + 4 ≤ s.streamLen → 4 ≤ s.field24 (s.pos + 1) →
    (∀ i : Instr, chunkId i ≠ streamByte s s.pos) →
    step s = .next { s with cid := streamByte s s.pos, pos := s.pos + 4, cstart := s.pos + 4,
                            csize := BitVec.ofNat 24 (s.field24 (s.pos + 1) - 4), phase := .failed,
                            cause := .unknownChunk, finfo := (streamByte s s.pos).toNat }

/-- 30_encoding.md R88: every one of the eleven instructions with a stored size below 4 raises
`BadChunkSize(Z)` and does nothing else but set `CID`. -/
def Obligations.EveryChunkTrapsOnASmallSize : Prop :=
  ∀ (i : Instr) (s : State), i.size.toNat < 4 →
    exec i s = .next { s with cid := chunkId i, phase := .failed, cause := .badChunkSize,
                              finfo := i.size.toNat }

/-- 40_frame_decoder.md R126, R128, R129, 60_exceptions.md R205: every instruction with a legal size ends either
with `POS` exactly its size after its header and the status as it was, or with `StreamUnderrun` at a read
inside its payload, and then the stream ends inside the payload. -/
def Obligations.ChunksEndAtTheirSizeOrUnderrun : Prop :=
  ∀ (i : Instr) (s : State), 4 ≤ i.size.toNat →
    ∃ u : State, exec i s = .next u ∧
      ((u.pos = s.pos + (i.size.toNat - 4) ∧ u.phase = s.phase ∧ u.cause = s.cause ∧
          u.finfo = s.finfo) ∨
        (u.phase = .failed ∧ u.cause = .streamUnderrun ∧ u.finfo = u.pos ∧ s.pos ≤ u.pos ∧
          u.pos < s.pos + (i.size.toNat - 4) ∧ s.streamLen < u.pos + 4 ∧
          s.streamLen < s.pos + (i.size.toNat - 4)))

/-! ### Flag streams -/

/-- 41_codebook_loader.md R142, 42_vector_unpacker.md R162, R164, R167: while a stream's mask has a bit left
below it, the next flag is the next lower bit of its word, and nothing is read; when the mask is exhausted a
word is fetched if the budget and the stream hold it, and its bit 31 is the flag. -/
def Obligations.FlagsRunFromBit31Down : Prop :=
  ∀ (s : State) (f : FlagStream),
    (∀ k, k < 31 → s.flagMask f = BitVec.twoPow 32 (k + 1) →
      takeFlag f s =
        .ok ((s.flagWord f).getLsbD k) (s.setFlag f (s.flagWord f) (BitVec.twoPow 32 k))) ∧
    (s.flagMask f = 0#32 ∨ s.flagMask f = 1#32 →
      (s.rem < 4 → takeFlag f s = .error .stop (s.setFlag f (s.flagWord f) 0#32)) ∧
      (4 ≤ s.rem → s.streamLen < s.pos + 4 →
        takeFlag f s = .error (.raise .streamUnderrun s.pos) (s.setFlag f (s.flagWord f) 0#32)) ∧
      (4 ≤ s.rem → s.pos + 4 ≤ s.streamLen →
        takeFlag f s = .ok ((BitVec.ofNat 32 (s.field32 s.pos)).getLsbD 31)
          (({ s with pos := s.pos + 4 } : State).setFlag f (BitVec.ofNat 32 (s.field32 s.pos))
            (BitVec.twoPow 32 31))))

/-! ### The codebook loader -/

/-- 41_codebook_loader.md R145, R146: an entry that fits in the stream fills all six fields of its place from
the bytes at `POS`, in either form, and changes no other entry. -/
def Obligations.EntryReadFillsItsPlace : Prop :=
  ∀ (s : State) (t : Table) (form : EntryForm) (i : Byte), s.pos + form.width ≤ s.streamLen →
    ∃ u : State, loadEntry t form i s = .ok () u ∧
      u = { s with pos := s.pos + form.width, cb := u.cb } ∧
      ∀ slot t' (k : Byte), u.entry slot t' k =
        if slot = s.si.toNat ∧ t' = t ∧ k = i then entryAt form s.payload 0 else s.entry slot t' k

/-- 41_codebook_loader.md R145, R146, 60_exceptions.md R208: an entry of either form cut short by the end of the
stream keeps the fields already written, the rest keep their old values. -/
def Obligations.EntryCutShortKeepsItsFields : Prop :=
  ∀ (s : State) (t : Table) (form : EntryForm) (i : Byte) (n : Nat), n < form.width → s.pos + n = s.streamLen →
    ∃ u : State, loadEntry t form i s = .error (.raise .streamUnderrun (s.pos + n)) u ∧
      u = { s with pos := s.pos + n, cb := u.cb } ∧
      ∀ slot t' (k : Byte), u.entry slot t' k =
        if slot = s.si.toNat ∧ t' = t ∧ k = i then
          { y0 := if 0 < n then (entryAt form s.payload 0).y0 else (s.entry slot t i).y0
            y1 := if 1 < n then (entryAt form s.payload 0).y1 else (s.entry slot t i).y1
            y2 := if 2 < n then (entryAt form s.payload 0).y2 else (s.entry slot t i).y2
            y3 := if 3 < n then (entryAt form s.payload 0).y3 else (s.entry slot t i).y3
            u := if 4 < n then (entryAt form s.payload 0).u else (s.entry slot t i).u
            v := (s.entry slot t i).v }
        else s.entry slot t' k

/-- 41_codebook_loader.md R144, R147, R148, R150, R152, R154; 40_frame_decoder.md R129; 20_memory.md R63: the four
unconditional loaders complete when the stream holds the whole entries of their payload, 256 at most: entry k of
the payload lands at index k of their table, everything else stays, and `POS` goes to the end of the payload,
which may lie beyond the stream. The value `LI` keeps is the model's inference (log entry 11). -/
def Obligations.UnconditionalLoadersFillFromIndexZero : Prop :=
  ∀ (s : State) (z : Size), 4 ≤ z.toNat →
    (s.inOrderCut .six z = none →
      LoadsInOrder (exec (.ldcbV4F6 z) s) s 0x20#8 z .v4 .six ∧
      LoadsInOrder (exec (.ldcbV1F6 z) s) s 0x22#8 z .v1 .six) ∧
    (s.inOrderCut .four z = none →
      LoadsInOrder (exec (.ldcbV4F4 z) s) s 0x24#8 z .v4 .four ∧
      LoadsInOrder (exec (.ldcbV1F4 z) s) s 0x26#8 z .v1 .four)

/-- 41_codebook_loader.md R142 to R144, R147, R149, R151, R153, R155; 40_frame_decoder.md R129; 20_memory.md R63:
the four conditional loaders complete when the stream holds the flag words and entries they read: exactly the
entries whose flag is 1 and whose bytes the budget holds are replaced, each by its own bytes, everything else
stays, and `POS` goes to the end of the payload, which may lie beyond the stream. -/
def Obligations.ConditionalLoadersReplaceFlaggedEntries : Prop :=
  ∀ (s : State) (z : Size), 4 ≤ z.toNat →
    (s.flaggedCut .six z = none →
      LoadsFlagged (exec (.ldcbV4C6 z) s) s 0x21#8 z .v4 .six ∧
      LoadsFlagged (exec (.ldcbV1C6 z) s) s 0x23#8 z .v1 .six) ∧
    (s.flaggedCut .four z = none →
      LoadsFlagged (exec (.ldcbV4C4 z) s) s 0x25#8 z .v4 .four ∧
      LoadsFlagged (exec (.ldcbV1C4 z) s) s 0x27#8 z .v1 .four)

/-- 41_codebook_loader.md R145, R146; 60_exceptions.md R205, R208, R209: a loader that the end of the stream cuts
fails with `StreamUnderrun` at the cut read, and what it loaded before that read stays: whole entries, and of the
entry it was reading the fields already written; everything else is as it was. -/
def Obligations.CutLoadersKeepWhatTheyLoaded : Prop :=
  ∀ (s : State) (z : Size) (cut : Nat), 4 ≤ z.toNat →
    (s.inOrderCut .six z = some cut →
      LoadsUntilCut (exec (.ldcbV4F6 z) s) s 0x20#8 z .v4 .six (inOrderFrom 6 (z.toNat - 4)) cut ∧
      LoadsUntilCut (exec (.ldcbV1F6 z) s) s 0x22#8 z .v1 .six (inOrderFrom 6 (z.toNat - 4)) cut) ∧
    (s.inOrderCut .four z = some cut →
      LoadsUntilCut (exec (.ldcbV4F4 z) s) s 0x24#8 z .v4 .four (inOrderFrom 4 (z.toNat - 4)) cut ∧
      LoadsUntilCut (exec (.ldcbV1F4 z) s) s 0x26#8 z .v1 .four (inOrderFrom 4 (z.toNat - 4)) cut) ∧
    (s.flaggedCut .six z = some cut →
      LoadsUntilCut (exec (.ldcbV4C6 z) s) s 0x21#8 z .v4 .six (replacedFrom s.payload 6 (z.toNat - 4)) cut ∧
      LoadsUntilCut (exec (.ldcbV1C6 z) s) s 0x23#8 z .v1 .six (replacedFrom s.payload 6 (z.toNat - 4)) cut) ∧
    (s.flaggedCut .four z = some cut →
      LoadsUntilCut (exec (.ldcbV4C4 z) s) s 0x25#8 z .v4 .four (replacedFrom s.payload 4 (z.toNat - 4)) cut ∧
      LoadsUntilCut (exec (.ldcbV1C4 z) s) s 0x27#8 z .v1 .four (replacedFrom s.payload 4 (z.toNat - 4)) cut)

/-- 41_codebook_loader.md R140: whatever happens, a loader writes only entries of its own table of the current
strip, the chunk's and the loader's registers and the status; never R. -/
def Obligations.LoadersTouchOnlyTheirTable : Prop :=
  ∀ (s u : State) (z : Size),
    (exec (.ldcbV4F6 z) s = .next u → LoaderFrame s u .v4) ∧
    (exec (.ldcbV4C6 z) s = .next u → LoaderFrame s u .v4) ∧
    (exec (.ldcbV1F6 z) s = .next u → LoaderFrame s u .v1) ∧
    (exec (.ldcbV1C6 z) s = .next u → LoaderFrame s u .v1) ∧
    (exec (.ldcbV4F4 z) s = .next u → LoaderFrame s u .v4) ∧
    (exec (.ldcbV4C4 z) s = .next u → LoaderFrame s u .v4) ∧
    (exec (.ldcbV1F4 z) s = .next u → LoaderFrame s u .v1) ∧
    (exec (.ldcbV1C4 z) s = .next u → LoaderFrame s u .v1)

/-! ### The vector unpacker -/

/-- 42_vector_unpacker.md R169, R170, R173: a V1 block reads one index byte and paints the pixels of its block
that are in the frame, luma k in quadrant k, and no other byte of R; without budget it stops, without stream
it fails, and nothing is painted. -/
def Obligations.V1BlockPaintsItsQuadrants : Prop :=
  ∀ s : State,
    (s.rem < 1 → v1Block s = .error .stop s) ∧
    (1 ≤ s.rem → s.streamLen < s.pos + 1 →
      v1Block s = .error (.raise .streamUnderrun s.pos) s) ∧
    (1 ≤ s.rem → s.pos + 1 ≤ s.streamLen →
      ∃ u : State, v1Block s = .ok () u ∧ u = { s with pos := s.pos + 1, raster := u.raster } ∧
        (∀ dx dy c, dx < 4 → dy < 4 → c < 3 → s.bX.toNat + dx < s.width.toNat →
          s.bY.toNat + dy < s.height.toNat →
          u.raster.read (pixelAddr s.width.toNat (s.bX.toNat + dx) (s.bY.toNat + dy) + c) =
            (convert ((s.entry s.si.toNat .v1 (s.payload 0)).luma (2 * (dy / 2) + dx / 2))
              (s.entry s.si.toNat .v1 (s.payload 0)).u
              (s.entry s.si.toNat .v1 (s.payload 0)).v).bytes[c]?) ∧
        ∀ a, (∀ dx dy c, dx < 4 → dy < 4 → c < 3 → s.bX.toNat + dx < s.width.toNat →
            s.bY.toNat + dy < s.height.toNat →
            a ≠ pixelAddr s.width.toNat (s.bX.toNat + dx) (s.bY.toNat + dy) + c) →
          u.raster.read a = s.raster.read a)

/-- 42_vector_unpacker.md R171, R172, R173, R179: a V4 block reads four index bytes and paints quadrant q from
entry q alone, luma j at pixel j of the quadrant, and no other byte of R; without budget for all four it stops
with nothing read, and without stream it fails at the end of the stream, and nothing is painted. -/
def Obligations.V4BlockPaintsEachQuadrantFromItsEntry : Prop :=
  ∀ s : State,
    (s.rem < 4 → v4Block s = .error .stop s) ∧
    (4 ≤ s.rem → s.streamLen < s.pos + 4 →
      v4Block s = .error (.raise .streamUnderrun (max s.pos s.streamLen))
        { s with pos := max s.pos s.streamLen }) ∧
    (4 ≤ s.rem → s.pos + 4 ≤ s.streamLen →
      ∃ u : State, v4Block s = .ok () u ∧ u = { s with pos := s.pos + 4, raster := u.raster } ∧
        (∀ dx dy c, dx < 4 → dy < 4 → c < 3 → s.bX.toNat + dx < s.width.toNat →
          s.bY.toNat + dy < s.height.toNat →
          u.raster.read (pixelAddr s.width.toNat (s.bX.toNat + dx) (s.bY.toNat + dy) + c) =
            (convert
              ((s.entry s.si.toNat .v4 (s.payload (2 * (dy / 2) + dx / 2))).luma (2 * (dy % 2) + dx % 2))
              (s.entry s.si.toNat .v4 (s.payload (2 * (dy / 2) + dx / 2))).u
              (s.entry s.si.toNat .v4 (s.payload (2 * (dy / 2) + dx / 2))).v).bytes[c]?) ∧
        ∀ a, (∀ dx dy c, dx < 4 → dy < 4 → c < 3 → s.bX.toNat + dx < s.width.toNat →
            s.bY.toNat + dy < s.height.toNat →
            a ≠ pixelAddr s.width.toNat (s.bX.toNat + dx) (s.bY.toNat + dy) + c) →
          u.raster.read a = s.raster.read a)

/-- 42_vector_unpacker.md R166, R167, R168, R174: a set skip flag ends the block with nothing more read or
written; else selector 1 is a V4 block and 0 a V1 block; a disabled stream is never read. -/
def Obligations.BlockDecisionPolicy : Prop :=
  ∀ (s t : State) (b selEn : Bool),
    (takeFlag .skip s = .ok true t → vectorBlock true selEn s = .ok () t ∧ t.raster = s.raster) ∧
    (takeFlag .skip s = .ok false t → vectorBlock true selEn s = codedBlock selEn t) ∧
    vectorBlock false selEn s = codedBlock selEn s ∧
    (takeFlag .sel s = .ok b t → codedBlock true s = if b then v4Block t else v1Block t) ∧
    codedBlock false s = v1Block s ∧
    (∀ e, takeFlag .skip s = .error e t → vectorBlock true selEn s = .error e t) ∧
    (∀ e, takeFlag .sel s = .error e t → codedBlock true s = .error e t)

/-- 42_vector_unpacker.md R163 to R168, R173 to R176; 40_frame_decoder.md R129; 20_memory.md R63: `VEC.SEL` and
`VEC.SKIP.SEL` complete when the stream holds the flag words and indices they read: every block of the walk is
treated as the payload's own layout says, up to where the budget ends, nothing else of R or of the registers
changes, and `POS` goes to the end of the payload, which may lie beyond the stream. -/
def Obligations.FlaggedVectorChunksPaintTheirPlan : Prop :=
  ∀ (s : State) (z : Size), 4 ≤ z.toNat →
    (s.vectorCut false true z = none →
      PaintsPlan (exec (.vecSel z) s) s 0x30#8 z (vecPlan false true s.payload (z.toNat - 4))) ∧
    (s.vectorCut true true z = none →
      PaintsPlan (exec (.vecSkipSel z) s) s 0x31#8 z (vecPlan true true s.payload (z.toNat - 4)))

/-- 42_vector_unpacker.md R170, R173, R177; 40_frame_decoder.md R129; 20_memory.md R63: `VEC.V1` completes when the
stream holds an index for every block of the walk that the budget reaches: block b is painted from the V1 entry
that payload byte b names, for as many blocks as there are bytes, nothing else changes, and `POS` goes to the end
of the payload, which may lie beyond the stream. -/
def Obligations.VecV1PaintsOneIndexPerBlock : Prop :=
  ∀ (s : State) (z : Size), 4 ≤ z.toNat →
    min (z.toNat - 4) (s.curStrip.blockCols * s.curStrip.blockRows) ≤ s.avail →
    PaintsPlan (exec (.vecV1 z) s) s 0x32#8 z
      (fun b => if b < z.toNat - 4 then some (.v1 (s.payload b)) else none)

/-- 42_vector_unpacker.md R179; 60_exceptions.md R205, R208, R209: a vector chunk that the end of the stream cuts
fails with `StreamUnderrun` at the cut read; the blocks painted before it stay painted, the block it was at and
every later one are as they were, and so is everything else. -/
def Obligations.CutVectorChunksKeepWhatTheyPainted : Prop :=
  ∀ (s : State) (z : Size) (cut : VecCut), 4 ≤ z.toNat →
    (s.vectorCut false true z = some cut →
      PaintsUntilCut (exec (.vecSel z) s) s 0x30#8 z (vecPlan false true s.payload (z.toNat - 4)) cut) ∧
    (s.vectorCut true true z = some cut →
      PaintsUntilCut (exec (.vecSkipSel z) s) s 0x31#8 z (vecPlan true true s.payload (z.toNat - 4)) cut) ∧
    (s.vectorCut false false z = some cut →
      PaintsUntilCut (exec (.vecV1 z) s) s 0x32#8 z (vecPlan false false s.payload (z.toNat - 4)) cut)

/-- 42_vector_unpacker.md R160, R163, 20_memory.md R55: whatever happens, a vector chunk writes no codebook, no
byte of R beyond the frame's or outside the blocks of its strip's walk, and no register but the chunk's, its
own and the status. -/
def Obligations.VectorChunksNeverTouchTables : Prop :=
  ∀ (s u : State) (z : Size),
    (exec (.vecSel z) s = .next u → VectorFrame s u) ∧
    (exec (.vecSkipSel z) s = .next u → VectorFrame s u) ∧
    (exec (.vecV1 z) s = .next u → VectorFrame s u)

/-! ### Whole-machine rules -/

/-- 20_memory.md R63: `POS` never decreases while a frame decode runs. -/
def Obligations.PositionNeverDecreases : Prop :=
  ∀ s t : State, s.host = [] → s.phase = .busy → step s = .next t → s.pos ≤ t.pos

/-- 10_state.md R38: a step of the block changes entries of strip slot `SI` alone. -/
def Obligations.StoreChangesOnlyInTheCurrentSlot : Prop :=
  ∀ s t : State, s.host = [] → step s = .next t →
    ∀ slot tbl (i : Byte), slot ≠ s.si.toNat → t.entry slot tbl i = s.entry slot tbl i

/-- 20_memory.md R50, R55, R72: a step of the block writes neither S nor a host-written register nor a byte of
R beyond the frame. -/
def Obligations.BlockNeverWritesItsInputs : Prop :=
  ∀ s t : State, s.host = [] → step s = .next t →
    t.stream = s.stream ∧ t.streamLen = s.streamLen ∧ t.startPos = s.startPos ∧
    t.maxStrips = s.maxStrips ∧ t.rasterCap = s.rasterCap ∧ t.epoch = s.epoch ∧
    t.hostData = s.hostData ∧ t.host = [] ∧
    ∀ a, s.width.toNat * s.height.toNat * 3 ≤ a → t.raster.read a = s.raster.read a

/-- The block by itself never stops with a fault or a refusal: its own faults are states with
`PHASE = FAILED` (60_exceptions.md R208). -/
def Obligations.BlockAlwaysAnswersANextState : Prop :=
  ∀ s : State, s.host = [] → ∃ t, step s = .next t

/-- 40_frame_decoder.md R130, 60_exceptions.md R219: every frame decode, from any state of it and on any
stream, ends in `DONE` or `FAILED` in finitely many steps. -/
def Obligations.EveryFrameDecodeEnds : Prop :=
  ∀ s : State, s.host = [] → s.phase = .busy →
    ∃ (n : Nat) (t : State), Host.Core.run Sys2Proof.core n s = .next t ∧
      (t.phase = .done ∨ t.phase = .failed)

/-! ### Invariants -/

/-- The reset state meets the three invariants below. The capacity clauses rest on the parameters the model
chose for reset (log entry 3) only through nothing being held yet. -/
def Obligations.ResetMeetsTheInvariants : Prop :=
  State.reset.Canonical ∧ State.reset.LeftZero ∧ State.reset.StatusAgrees ∧ State.reset.FrameInv

/-- Every step, of the block or of the host, keeps the sparse components canonical and `STRIP[s].LEFT` at its
hardwired 0 (10_state.md R26, R34). -/
def Obligations.StepKeepsCanonicalForm : Prop :=
  ∀ s t : State, s.Canonical → s.LeftZero → step s = .next t → t.Canonical ∧ t.LeftZero

/-- Every step keeps the frame invariant: the capacities bound what is held, `SI < NSTRIPS`, `ROWCUR` cannot
wrap, and the current record is the current strip's (10_state.md R24, R25; 40_frame_decoder.md R112, R113,
R118). -/
def Obligations.StepKeepsTheFrameInvariant : Prop :=
  ∀ s t : State, s.FrameInv → step s = .next t → t.FrameInv

/-- 10_state.md R32: every step keeps `CAUSE` at 0, and `FINFO` with it, exactly outside `FAILED`. -/
def Obligations.StepKeepsTheStatusAgreement : Prop :=
  ∀ s t : State, s.StatusAgrees → step s = .next t → t.StatusAgrees
end

