-- ==== Sys2Proof/Laws/State.lean ====
section
/-! SUPPORT. One lemma per field per named update of the state, so that no proof unfolds an update. -/

namespace Sys2Proof.Machine

/-! ### `State.raiseFault` -/

@[simp] theorem State.raiseFault_flags (s : State) (c : Cause) (n : Nat) :
    (s.raiseFault c n).flags = s.flags := rfl
@[simp] theorem State.raiseFault_frameLen (s : State) (c : Cause) (n : Nat) :
    (s.raiseFault c n).frameLen = s.frameLen := rfl
@[simp] theorem State.raiseFault_width (s : State) (c : Cause) (n : Nat) :
    (s.raiseFault c n).width = s.width := rfl
@[simp] theorem State.raiseFault_height (s : State) (c : Cause) (n : Nat) :
    (s.raiseFault c n).height = s.height := rfl
@[simp] theorem State.raiseFault_nstrips (s : State) (c : Cause) (n : Nat) :
    (s.raiseFault c n).nstrips = s.nstrips := rfl
@[simp] theorem State.raiseFault_alloc (s : State) (c : Cause) (n : Nat) :
    (s.raiseFault c n).alloc = s.alloc := rfl
@[simp] theorem State.raiseFault_allocW (s : State) (c : Cause) (n : Nat) :
    (s.raiseFault c n).allocW = s.allocW := rfl
@[simp] theorem State.raiseFault_allocH (s : State) (c : Cause) (n : Nat) :
    (s.raiseFault c n).allocH = s.allocH := rfl
@[simp] theorem State.raiseFault_allocN (s : State) (c : Cause) (n : Nat) :
    (s.raiseFault c n).allocN = s.allocN := rfl
@[simp] theorem State.raiseFault_pos (s : State) (c : Cause) (n : Nat) :
    (s.raiseFault c n).pos = s.pos := rfl
@[simp] theorem State.raiseFault_rowcur (s : State) (c : Cause) (n : Nat) :
    (s.raiseFault c n).rowcur = s.rowcur := rfl
@[simp] theorem State.raiseFault_si (s : State) (c : Cause) (n : Nat) :
    (s.raiseFault c n).si = s.si := rfl
@[simp] theorem State.raiseFault_strips (s : State) (c : Cause) (n : Nat) :
    (s.raiseFault c n).strips = s.strips := rfl
@[simp] theorem State.raiseFault_spanStart (s : State) (c : Cause) (n : Nat) :
    (s.raiseFault c n).spanStart = s.spanStart := rfl
@[simp] theorem State.raiseFault_cid (s : State) (c : Cause) (n : Nat) :
    (s.raiseFault c n).cid = s.cid := rfl
@[simp] theorem State.raiseFault_csize (s : State) (c : Cause) (n : Nat) :
    (s.raiseFault c n).csize = s.csize := rfl
@[simp] theorem State.raiseFault_cstart (s : State) (c : Cause) (n : Nat) :
    (s.raiseFault c n).cstart = s.cstart := rfl
@[simp] theorem State.raiseFault_li (s : State) (c : Cause) (n : Nat) :
    (s.raiseFault c n).li = s.li := rfl
@[simp] theorem State.raiseFault_lflag (s : State) (c : Cause) (n : Nat) :
    (s.raiseFault c n).lflag = s.lflag := rfl
@[simp] theorem State.raiseFault_lmask (s : State) (c : Cause) (n : Nat) :
    (s.raiseFault c n).lmask = s.lmask := rfl
@[simp] theorem State.raiseFault_bX (s : State) (c : Cause) (n : Nat) :
    (s.raiseFault c n).bX = s.bX := rfl
@[simp] theorem State.raiseFault_bY (s : State) (c : Cause) (n : Nat) :
    (s.raiseFault c n).bY = s.bY := rfl
@[simp] theorem State.raiseFault_skf (s : State) (c : Cause) (n : Nat) :
    (s.raiseFault c n).skf = s.skf := rfl
@[simp] theorem State.raiseFault_skm (s : State) (c : Cause) (n : Nat) :
    (s.raiseFault c n).skm = s.skm := rfl
@[simp] theorem State.raiseFault_slf (s : State) (c : Cause) (n : Nat) :
    (s.raiseFault c n).slf = s.slf := rfl
@[simp] theorem State.raiseFault_slm (s : State) (c : Cause) (n : Nat) :
    (s.raiseFault c n).slm = s.slm := rfl
@[simp] theorem State.raiseFault_phase (s : State) (c : Cause) (n : Nat) :
    (s.raiseFault c n).phase = Phase.failed := rfl
@[simp] theorem State.raiseFault_cause (s : State) (c : Cause) (n : Nat) :
    (s.raiseFault c n).cause = c := rfl
@[simp] theorem State.raiseFault_finfo (s : State) (c : Cause) (n : Nat) :
    (s.raiseFault c n).finfo = n := rfl
@[simp] theorem State.raiseFault_startPos (s : State) (c : Cause) (n : Nat) :
    (s.raiseFault c n).startPos = s.startPos := rfl
@[simp] theorem State.raiseFault_streamLen (s : State) (c : Cause) (n : Nat) :
    (s.raiseFault c n).streamLen = s.streamLen := rfl
@[simp] theorem State.raiseFault_cb (s : State) (c : Cause) (n : Nat) :
    (s.raiseFault c n).cb = s.cb := rfl
@[simp] theorem State.raiseFault_raster (s : State) (c : Cause) (n : Nat) :
    (s.raiseFault c n).raster = s.raster := rfl
@[simp] theorem State.raiseFault_stream (s : State) (c : Cause) (n : Nat) :
    (s.raiseFault c n).stream = s.stream := rfl
@[simp] theorem State.raiseFault_maxStrips (s : State) (c : Cause) (n : Nat) :
    (s.raiseFault c n).maxStrips = s.maxStrips := rfl
@[simp] theorem State.raiseFault_rasterCap (s : State) (c : Cause) (n : Nat) :
    (s.raiseFault c n).rasterCap = s.rasterCap := rfl
@[simp] theorem State.raiseFault_seq (s : State) (c : Cause) (n : Nat) :
    (s.raiseFault c n).seq = s.seq := rfl
@[simp] theorem State.raiseFault_host (s : State) (c : Cause) (n : Nat) :
    (s.raiseFault c n).host = s.host := rfl
@[simp] theorem State.raiseFault_hostData (s : State) (c : Cause) (n : Nat) :
    (s.raiseFault c n).hostData = s.hostData := rfl
@[simp] theorem State.raiseFault_epoch (s : State) (c : Cause) (n : Nat) :
    (s.raiseFault c n).epoch = s.epoch := rfl

/-! ### `State.setFlag` -/

@[simp] theorem State.setFlag_flags (s : State) (f : FlagStream) (w m : FlagWord) :
    (s.setFlag f w m).flags = s.flags := by cases f <;> rfl
@[simp] theorem State.setFlag_frameLen (s : State) (f : FlagStream) (w m : FlagWord) :
    (s.setFlag f w m).frameLen = s.frameLen := by cases f <;> rfl
@[simp] theorem State.setFlag_width (s : State) (f : FlagStream) (w m : FlagWord) :
    (s.setFlag f w m).width = s.width := by cases f <;> rfl
@[simp] theorem State.setFlag_height (s : State) (f : FlagStream) (w m : FlagWord) :
    (s.setFlag f w m).height = s.height := by cases f <;> rfl
@[simp] theorem State.setFlag_nstrips (s : State) (f : FlagStream) (w m : FlagWord) :
    (s.setFlag f w m).nstrips = s.nstrips := by cases f <;> rfl
@[simp] theorem State.setFlag_alloc (s : State) (f : FlagStream) (w m : FlagWord) :
    (s.setFlag f w m).alloc = s.alloc := by cases f <;> rfl
@[simp] theorem State.setFlag_allocW (s : State) (f : FlagStream) (w m : FlagWord) :
    (s.setFlag f w m).allocW = s.allocW := by cases f <;> rfl
@[simp] theorem State.setFlag_allocH (s : State) (f : FlagStream) (w m : FlagWord) :
    (s.setFlag f w m).allocH = s.allocH := by cases f <;> rfl
@[simp] theorem State.setFlag_allocN (s : State) (f : FlagStream) (w m : FlagWord) :
    (s.setFlag f w m).allocN = s.allocN := by cases f <;> rfl
@[simp] theorem State.setFlag_pos (s : State) (f : FlagStream) (w m : FlagWord) :
    (s.setFlag f w m).pos = s.pos := by cases f <;> rfl
@[simp] theorem State.setFlag_rowcur (s : State) (f : FlagStream) (w m : FlagWord) :
    (s.setFlag f w m).rowcur = s.rowcur := by cases f <;> rfl
@[simp] theorem State.setFlag_si (s : State) (f : FlagStream) (w m : FlagWord) :
    (s.setFlag f w m).si = s.si := by cases f <;> rfl
@[simp] theorem State.setFlag_strips (s : State) (f : FlagStream) (w m : FlagWord) :
    (s.setFlag f w m).strips = s.strips := by cases f <;> rfl
@[simp] theorem State.setFlag_spanStart (s : State) (f : FlagStream) (w m : FlagWord) :
    (s.setFlag f w m).spanStart = s.spanStart := by cases f <;> rfl
@[simp] theorem State.setFlag_cid (s : State) (f : FlagStream) (w m : FlagWord) :
    (s.setFlag f w m).cid = s.cid := by cases f <;> rfl
@[simp] theorem State.setFlag_csize (s : State) (f : FlagStream) (w m : FlagWord) :
    (s.setFlag f w m).csize = s.csize := by cases f <;> rfl
@[simp] theorem State.setFlag_cstart (s : State) (f : FlagStream) (w m : FlagWord) :
    (s.setFlag f w m).cstart = s.cstart := by cases f <;> rfl
@[simp] theorem State.setFlag_li (s : State) (f : FlagStream) (w m : FlagWord) :
    (s.setFlag f w m).li = s.li := by cases f <;> rfl
@[simp] theorem State.setFlag_bX (s : State) (f : FlagStream) (w m : FlagWord) :
    (s.setFlag f w m).bX = s.bX := by cases f <;> rfl
@[simp] theorem State.setFlag_bY (s : State) (f : FlagStream) (w m : FlagWord) :
    (s.setFlag f w m).bY = s.bY := by cases f <;> rfl
@[simp] theorem State.setFlag_phase (s : State) (f : FlagStream) (w m : FlagWord) :
    (s.setFlag f w m).phase = s.phase := by cases f <;> rfl
@[simp] theorem State.setFlag_cause (s : State) (f : FlagStream) (w m : FlagWord) :
    (s.setFlag f w m).cause = s.cause := by cases f <;> rfl
@[simp] theorem State.setFlag_finfo (s : State) (f : FlagStream) (w m : FlagWord) :
    (s.setFlag f w m).finfo = s.finfo := by cases f <;> rfl
@[simp] theorem State.setFlag_startPos (s : State) (f : FlagStream) (w m : FlagWord) :
    (s.setFlag f w m).startPos = s.startPos := by cases f <;> rfl
@[simp] theorem State.setFlag_streamLen (s : State) (f : FlagStream) (w m : FlagWord) :
    (s.setFlag f w m).streamLen = s.streamLen := by cases f <;> rfl
@[simp] theorem State.setFlag_cb (s : State) (f : FlagStream) (w m : FlagWord) :
    (s.setFlag f w m).cb = s.cb := by cases f <;> rfl
@[simp] theorem State.setFlag_raster (s : State) (f : FlagStream) (w m : FlagWord) :
    (s.setFlag f w m).raster = s.raster := by cases f <;> rfl
@[simp] theorem State.setFlag_stream (s : State) (f : FlagStream) (w m : FlagWord) :
    (s.setFlag f w m).stream = s.stream := by cases f <;> rfl
@[simp] theorem State.setFlag_maxStrips (s : State) (f : FlagStream) (w m : FlagWord) :
    (s.setFlag f w m).maxStrips = s.maxStrips := by cases f <;> rfl
@[simp] theorem State.setFlag_rasterCap (s : State) (f : FlagStream) (w m : FlagWord) :
    (s.setFlag f w m).rasterCap = s.rasterCap := by cases f <;> rfl
@[simp] theorem State.setFlag_seq (s : State) (f : FlagStream) (w m : FlagWord) :
    (s.setFlag f w m).seq = s.seq := by cases f <;> rfl
@[simp] theorem State.setFlag_host (s : State) (f : FlagStream) (w m : FlagWord) :
    (s.setFlag f w m).host = s.host := by cases f <;> rfl
@[simp] theorem State.setFlag_hostData (s : State) (f : FlagStream) (w m : FlagWord) :
    (s.setFlag f w m).hostData = s.hostData := by cases f <;> rfl
@[simp] theorem State.setFlag_epoch (s : State) (f : FlagStream) (w m : FlagWord) :
    (s.setFlag f w m).epoch = s.epoch := by cases f <;> rfl

/-! ### `State.setEntry` -/

@[simp] theorem State.setEntry_flags (s : State) (j : Nat) (t : Table) (i : Byte) (e : Entry) :
    (s.setEntry j t i e).flags = s.flags := rfl
@[simp] theorem State.setEntry_frameLen (s : State) (j : Nat) (t : Table) (i : Byte) (e : Entry) :
    (s.setEntry j t i e).frameLen = s.frameLen := rfl
@[simp] theorem State.setEntry_width (s : State) (j : Nat) (t : Table) (i : Byte) (e : Entry) :
    (s.setEntry j t i e).width = s.width := rfl
@[simp] theorem State.setEntry_height (s : State) (j : Nat) (t : Table) (i : Byte) (e : Entry) :
    (s.setEntry j t i e).height = s.height := rfl
@[simp] theorem State.setEntry_nstrips (s : State) (j : Nat) (t : Table) (i : Byte) (e : Entry) :
    (s.setEntry j t i e).nstrips = s.nstrips := rfl
@[simp] theorem State.setEntry_alloc (s : State) (j : Nat) (t : Table) (i : Byte) (e : Entry) :
    (s.setEntry j t i e).alloc = s.alloc := rfl
@[simp] theorem State.setEntry_allocW (s : State) (j : Nat) (t : Table) (i : Byte) (e : Entry) :
    (s.setEntry j t i e).allocW = s.allocW := rfl
@[simp] theorem State.setEntry_allocH (s : State) (j : Nat) (t : Table) (i : Byte) (e : Entry) :
    (s.setEntry j t i e).allocH = s.allocH := rfl
@[simp] theorem State.setEntry_allocN (s : State) (j : Nat) (t : Table) (i : Byte) (e : Entry) :
    (s.setEntry j t i e).allocN = s.allocN := rfl
@[simp] theorem State.setEntry_pos (s : State) (j : Nat) (t : Table) (i : Byte) (e : Entry) :
    (s.setEntry j t i e).pos = s.pos := rfl
@[simp] theorem State.setEntry_rowcur (s : State) (j : Nat) (t : Table) (i : Byte) (e : Entry) :
    (s.setEntry j t i e).rowcur = s.rowcur := rfl
@[simp] theorem State.setEntry_si (s : State) (j : Nat) (t : Table) (i : Byte) (e : Entry) :
    (s.setEntry j t i e).si = s.si := rfl
@[simp] theorem State.setEntry_strips (s : State) (j : Nat) (t : Table) (i : Byte) (e : Entry) :
    (s.setEntry j t i e).strips = s.strips := rfl
@[simp] theorem State.setEntry_spanStart (s : State) (j : Nat) (t : Table) (i : Byte) (e : Entry) :
    (s.setEntry j t i e).spanStart = s.spanStart := rfl
@[simp] theorem State.setEntry_cid (s : State) (j : Nat) (t : Table) (i : Byte) (e : Entry) :
    (s.setEntry j t i e).cid = s.cid := rfl
@[simp] theorem State.setEntry_csize (s : State) (j : Nat) (t : Table) (i : Byte) (e : Entry) :
    (s.setEntry j t i e).csize = s.csize := rfl
@[simp] theorem State.setEntry_cstart (s : State) (j : Nat) (t : Table) (i : Byte) (e : Entry) :
    (s.setEntry j t i e).cstart = s.cstart := rfl
@[simp] theorem State.setEntry_li (s : State) (j : Nat) (t : Table) (i : Byte) (e : Entry) :
    (s.setEntry j t i e).li = s.li := rfl
@[simp] theorem State.setEntry_lflag (s : State) (j : Nat) (t : Table) (i : Byte) (e : Entry) :
    (s.setEntry j t i e).lflag = s.lflag := rfl
@[simp] theorem State.setEntry_lmask (s : State) (j : Nat) (t : Table) (i : Byte) (e : Entry) :
    (s.setEntry j t i e).lmask = s.lmask := rfl
@[simp] theorem State.setEntry_bX (s : State) (j : Nat) (t : Table) (i : Byte) (e : Entry) :
    (s.setEntry j t i e).bX = s.bX := rfl
@[simp] theorem State.setEntry_bY (s : State) (j : Nat) (t : Table) (i : Byte) (e : Entry) :
    (s.setEntry j t i e).bY = s.bY := rfl
@[simp] theorem State.setEntry_skf (s : State) (j : Nat) (t : Table) (i : Byte) (e : Entry) :
    (s.setEntry j t i e).skf = s.skf := rfl
@[simp] theorem State.setEntry_skm (s : State) (j : Nat) (t : Table) (i : Byte) (e : Entry) :
    (s.setEntry j t i e).skm = s.skm := rfl
@[simp] theorem State.setEntry_slf (s : State) (j : Nat) (t : Table) (i : Byte) (e : Entry) :
    (s.setEntry j t i e).slf = s.slf := rfl
@[simp] theorem State.setEntry_slm (s : State) (j : Nat) (t : Table) (i : Byte) (e : Entry) :
    (s.setEntry j t i e).slm = s.slm := rfl
@[simp] theorem State.setEntry_phase (s : State) (j : Nat) (t : Table) (i : Byte) (e : Entry) :
    (s.setEntry j t i e).phase = s.phase := rfl
@[simp] theorem State.setEntry_cause (s : State) (j : Nat) (t : Table) (i : Byte) (e : Entry) :
    (s.setEntry j t i e).cause = s.cause := rfl
@[simp] theorem State.setEntry_finfo (s : State) (j : Nat) (t : Table) (i : Byte) (e : Entry) :
    (s.setEntry j t i e).finfo = s.finfo := rfl
@[simp] theorem State.setEntry_startPos (s : State) (j : Nat) (t : Table) (i : Byte) (e : Entry) :
    (s.setEntry j t i e).startPos = s.startPos := rfl
@[simp] theorem State.setEntry_streamLen (s : State) (j : Nat) (t : Table) (i : Byte) (e : Entry) :
    (s.setEntry j t i e).streamLen = s.streamLen := rfl
@[simp] theorem State.setEntry_cb (s : State) (j : Nat) (t : Table) (i : Byte) (e : Entry) :
    (s.setEntry j t i e).cb = cbSet s.cb j t i e := rfl
@[simp] theorem State.setEntry_raster (s : State) (j : Nat) (t : Table) (i : Byte) (e : Entry) :
    (s.setEntry j t i e).raster = s.raster := rfl
@[simp] theorem State.setEntry_stream (s : State) (j : Nat) (t : Table) (i : Byte) (e : Entry) :
    (s.setEntry j t i e).stream = s.stream := rfl
@[simp] theorem State.setEntry_maxStrips (s : State) (j : Nat) (t : Table) (i : Byte) (e : Entry) :
    (s.setEntry j t i e).maxStrips = s.maxStrips := rfl
@[simp] theorem State.setEntry_rasterCap (s : State) (j : Nat) (t : Table) (i : Byte) (e : Entry) :
    (s.setEntry j t i e).rasterCap = s.rasterCap := rfl
@[simp] theorem State.setEntry_seq (s : State) (j : Nat) (t : Table) (i : Byte) (e : Entry) :
    (s.setEntry j t i e).seq = s.seq := rfl
@[simp] theorem State.setEntry_host (s : State) (j : Nat) (t : Table) (i : Byte) (e : Entry) :
    (s.setEntry j t i e).host = s.host := rfl
@[simp] theorem State.setEntry_hostData (s : State) (j : Nat) (t : Table) (i : Byte) (e : Entry) :
    (s.setEntry j t i e).hostData = s.hostData := rfl
@[simp] theorem State.setEntry_epoch (s : State) (j : Nat) (t : Table) (i : Byte) (e : Entry) :
    (s.setEntry j t i e).epoch = s.epoch := rfl

/-! ### `State.updEntry` -/

@[simp] theorem State.updEntry_flags (s : State) (t : Table) (i : Byte) (g : Entry → Entry) :
    (s.updEntry t i g).flags = s.flags := rfl
@[simp] theorem State.updEntry_frameLen (s : State) (t : Table) (i : Byte) (g : Entry → Entry) :
    (s.updEntry t i g).frameLen = s.frameLen := rfl
@[simp] theorem State.updEntry_width (s : State) (t : Table) (i : Byte) (g : Entry → Entry) :
    (s.updEntry t i g).width = s.width := rfl
@[simp] theorem State.updEntry_height (s : State) (t : Table) (i : Byte) (g : Entry → Entry) :
    (s.updEntry t i g).height = s.height := rfl
@[simp] theorem State.updEntry_nstrips (s : State) (t : Table) (i : Byte) (g : Entry → Entry) :
    (s.updEntry t i g).nstrips = s.nstrips := rfl
@[simp] theorem State.updEntry_alloc (s : State) (t : Table) (i : Byte) (g : Entry → Entry) :
    (s.updEntry t i g).alloc = s.alloc := rfl
@[simp] theorem State.updEntry_allocW (s : State) (t : Table) (i : Byte) (g : Entry → Entry) :
    (s.updEntry t i g).allocW = s.allocW := rfl
@[simp] theorem State.updEntry_allocH (s : State) (t : Table) (i : Byte) (g : Entry → Entry) :
    (s.updEntry t i g).allocH = s.allocH := rfl
@[simp] theorem State.updEntry_allocN (s : State) (t : Table) (i : Byte) (g : Entry → Entry) :
    (s.updEntry t i g).allocN = s.allocN := rfl
@[simp] theorem State.updEntry_pos (s : State) (t : Table) (i : Byte) (g : Entry → Entry) :
    (s.updEntry t i g).pos = s.pos := rfl
@[simp] theorem State.updEntry_rowcur (s : State) (t : Table) (i : Byte) (g : Entry → Entry) :
    (s.updEntry t i g).rowcur = s.rowcur := rfl
@[simp] theorem State.updEntry_si (s : State) (t : Table) (i : Byte) (g : Entry → Entry) :
    (s.updEntry t i g).si = s.si := rfl
@[simp] theorem State.updEntry_strips (s : State) (t : Table) (i : Byte) (g : Entry → Entry) :
    (s.updEntry t i g).strips = s.strips := rfl
@[simp] theorem State.updEntry_spanStart (s : State) (t : Table) (i : Byte) (g : Entry → Entry) :
    (s.updEntry t i g).spanStart = s.spanStart := rfl
@[simp] theorem State.updEntry_cid (s : State) (t : Table) (i : Byte) (g : Entry → Entry) :
    (s.updEntry t i g).cid = s.cid := rfl
@[simp] theorem State.updEntry_csize (s : State) (t : Table) (i : Byte) (g : Entry → Entry) :
    (s.updEntry t i g).csize = s.csize := rfl
@[simp] theorem State.updEntry_cstart (s : State) (t : Table) (i : Byte) (g : Entry → Entry) :
    (s.updEntry t i g).cstart = s.cstart := rfl
@[simp] theorem State.updEntry_li (s : State) (t : Table) (i : Byte) (g : Entry → Entry) :
    (s.updEntry t i g).li = s.li := rfl
@[simp] theorem State.updEntry_lflag (s : State) (t : Table) (i : Byte) (g : Entry → Entry) :
    (s.updEntry t i g).lflag = s.lflag := rfl
@[simp] theorem State.updEntry_lmask (s : State) (t : Table) (i : Byte) (g : Entry → Entry) :
    (s.updEntry t i g).lmask = s.lmask := rfl
@[simp] theorem State.updEntry_bX (s : State) (t : Table) (i : Byte) (g : Entry → Entry) :
    (s.updEntry t i g).bX = s.bX := rfl
@[simp] theorem State.updEntry_bY (s : State) (t : Table) (i : Byte) (g : Entry → Entry) :
    (s.updEntry t i g).bY = s.bY := rfl
@[simp] theorem State.updEntry_skf (s : State) (t : Table) (i : Byte) (g : Entry → Entry) :
    (s.updEntry t i g).skf = s.skf := rfl
@[simp] theorem State.updEntry_skm (s : State) (t : Table) (i : Byte) (g : Entry → Entry) :
    (s.updEntry t i g).skm = s.skm := rfl
@[simp] theorem State.updEntry_slf (s : State) (t : Table) (i : Byte) (g : Entry → Entry) :
    (s.updEntry t i g).slf = s.slf := rfl
@[simp] theorem State.updEntry_slm (s : State) (t : Table) (i : Byte) (g : Entry → Entry) :
    (s.updEntry t i g).slm = s.slm := rfl
@[simp] theorem State.updEntry_phase (s : State) (t : Table) (i : Byte) (g : Entry → Entry) :
    (s.updEntry t i g).phase = s.phase := rfl
@[simp] theorem State.updEntry_cause (s : State) (t : Table) (i : Byte) (g : Entry → Entry) :
    (s.updEntry t i g).cause = s.cause := rfl
@[simp] theorem State.updEntry_finfo (s : State) (t : Table) (i : Byte) (g : Entry → Entry) :
    (s.updEntry t i g).finfo = s.finfo := rfl
@[simp] theorem State.updEntry_startPos (s : State) (t : Table) (i : Byte) (g : Entry → Entry) :
    (s.updEntry t i g).startPos = s.startPos := rfl
@[simp] theorem State.updEntry_streamLen (s : State) (t : Table) (i : Byte) (g : Entry → Entry) :
    (s.updEntry t i g).streamLen = s.streamLen := rfl
@[simp] theorem State.updEntry_cb (s : State) (t : Table) (i : Byte) (g : Entry → Entry) :
    (s.updEntry t i g).cb = cbSet s.cb s.si.toNat t i (g (s.entry s.si.toNat t i)) := rfl
@[simp] theorem State.updEntry_raster (s : State) (t : Table) (i : Byte) (g : Entry → Entry) :
    (s.updEntry t i g).raster = s.raster := rfl
@[simp] theorem State.updEntry_stream (s : State) (t : Table) (i : Byte) (g : Entry → Entry) :
    (s.updEntry t i g).stream = s.stream := rfl
@[simp] theorem State.updEntry_maxStrips (s : State) (t : Table) (i : Byte) (g : Entry → Entry) :
    (s.updEntry t i g).maxStrips = s.maxStrips := rfl
@[simp] theorem State.updEntry_rasterCap (s : State) (t : Table) (i : Byte) (g : Entry → Entry) :
    (s.updEntry t i g).rasterCap = s.rasterCap := rfl
@[simp] theorem State.updEntry_seq (s : State) (t : Table) (i : Byte) (g : Entry → Entry) :
    (s.updEntry t i g).seq = s.seq := rfl
@[simp] theorem State.updEntry_host (s : State) (t : Table) (i : Byte) (g : Entry → Entry) :
    (s.updEntry t i g).host = s.host := rfl
@[simp] theorem State.updEntry_hostData (s : State) (t : Table) (i : Byte) (g : Entry → Entry) :
    (s.updEntry t i g).hostData = s.hostData := rfl
@[simp] theorem State.updEntry_epoch (s : State) (t : Table) (i : Byte) (g : Entry → Entry) :
    (s.updEntry t i g).epoch = s.epoch := rfl

/-! ### `State.setStripRec` -/

@[simp] theorem State.setStripRec_flags (s : State) (j : Nat) (r : StripRec) :
    (s.setStripRec j r).flags = s.flags := rfl
@[simp] theorem State.setStripRec_frameLen (s : State) (j : Nat) (r : StripRec) :
    (s.setStripRec j r).frameLen = s.frameLen := rfl
@[simp] theorem State.setStripRec_width (s : State) (j : Nat) (r : StripRec) :
    (s.setStripRec j r).width = s.width := rfl
@[simp] theorem State.setStripRec_height (s : State) (j : Nat) (r : StripRec) :
    (s.setStripRec j r).height = s.height := rfl
@[simp] theorem State.setStripRec_nstrips (s : State) (j : Nat) (r : StripRec) :
    (s.setStripRec j r).nstrips = s.nstrips := rfl
@[simp] theorem State.setStripRec_alloc (s : State) (j : Nat) (r : StripRec) :
    (s.setStripRec j r).alloc = s.alloc := rfl
@[simp] theorem State.setStripRec_allocW (s : State) (j : Nat) (r : StripRec) :
    (s.setStripRec j r).allocW = s.allocW := rfl
@[simp] theorem State.setStripRec_allocH (s : State) (j : Nat) (r : StripRec) :
    (s.setStripRec j r).allocH = s.allocH := rfl
@[simp] theorem State.setStripRec_allocN (s : State) (j : Nat) (r : StripRec) :
    (s.setStripRec j r).allocN = s.allocN := rfl
@[simp] theorem State.setStripRec_pos (s : State) (j : Nat) (r : StripRec) :
    (s.setStripRec j r).pos = s.pos := rfl
@[simp] theorem State.setStripRec_rowcur (s : State) (j : Nat) (r : StripRec) :
    (s.setStripRec j r).rowcur = s.rowcur := rfl
@[simp] theorem State.setStripRec_si (s : State) (j : Nat) (r : StripRec) :
    (s.setStripRec j r).si = s.si := rfl
@[simp] theorem State.setStripRec_strips (s : State) (j : Nat) (r : StripRec) :
    (s.setStripRec j r).strips = sparseSet s.strips j StripRec.zero r := rfl
@[simp] theorem State.setStripRec_spanStart (s : State) (j : Nat) (r : StripRec) :
    (s.setStripRec j r).spanStart = s.spanStart := rfl
@[simp] theorem State.setStripRec_cid (s : State) (j : Nat) (r : StripRec) :
    (s.setStripRec j r).cid = s.cid := rfl
@[simp] theorem State.setStripRec_csize (s : State) (j : Nat) (r : StripRec) :
    (s.setStripRec j r).csize = s.csize := rfl
@[simp] theorem State.setStripRec_cstart (s : State) (j : Nat) (r : StripRec) :
    (s.setStripRec j r).cstart = s.cstart := rfl
@[simp] theorem State.setStripRec_li (s : State) (j : Nat) (r : StripRec) :
    (s.setStripRec j r).li = s.li := rfl
@[simp] theorem State.setStripRec_lflag (s : State) (j : Nat) (r : StripRec) :
    (s.setStripRec j r).lflag = s.lflag := rfl
@[simp] theorem State.setStripRec_lmask (s : State) (j : Nat) (r : StripRec) :
    (s.setStripRec j r).lmask = s.lmask := rfl
@[simp] theorem State.setStripRec_bX (s : State) (j : Nat) (r : StripRec) :
    (s.setStripRec j r).bX = s.bX := rfl
@[simp] theorem State.setStripRec_bY (s : State) (j : Nat) (r : StripRec) :
    (s.setStripRec j r).bY = s.bY := rfl
@[simp] theorem State.setStripRec_skf (s : State) (j : Nat) (r : StripRec) :
    (s.setStripRec j r).skf = s.skf := rfl
@[simp] theorem State.setStripRec_skm (s : State) (j : Nat) (r : StripRec) :
    (s.setStripRec j r).skm = s.skm := rfl
@[simp] theorem State.setStripRec_slf (s : State) (j : Nat) (r : StripRec) :
    (s.setStripRec j r).slf = s.slf := rfl
@[simp] theorem State.setStripRec_slm (s : State) (j : Nat) (r : StripRec) :
    (s.setStripRec j r).slm = s.slm := rfl
@[simp] theorem State.setStripRec_phase (s : State) (j : Nat) (r : StripRec) :
    (s.setStripRec j r).phase = s.phase := rfl
@[simp] theorem State.setStripRec_cause (s : State) (j : Nat) (r : StripRec) :
    (s.setStripRec j r).cause = s.cause := rfl
@[simp] theorem State.setStripRec_finfo (s : State) (j : Nat) (r : StripRec) :
    (s.setStripRec j r).finfo = s.finfo := rfl
@[simp] theorem State.setStripRec_startPos (s : State) (j : Nat) (r : StripRec) :
    (s.setStripRec j r).startPos = s.startPos := rfl
@[simp] theorem State.setStripRec_streamLen (s : State) (j : Nat) (r : StripRec) :
    (s.setStripRec j r).streamLen = s.streamLen := rfl
@[simp] theorem State.setStripRec_cb (s : State) (j : Nat) (r : StripRec) :
    (s.setStripRec j r).cb = s.cb := rfl
@[simp] theorem State.setStripRec_raster (s : State) (j : Nat) (r : StripRec) :
    (s.setStripRec j r).raster = s.raster := rfl
@[simp] theorem State.setStripRec_stream (s : State) (j : Nat) (r : StripRec) :
    (s.setStripRec j r).stream = s.stream := rfl
@[simp] theorem State.setStripRec_maxStrips (s : State) (j : Nat) (r : StripRec) :
    (s.setStripRec j r).maxStrips = s.maxStrips := rfl
@[simp] theorem State.setStripRec_rasterCap (s : State) (j : Nat) (r : StripRec) :
    (s.setStripRec j r).rasterCap = s.rasterCap := rfl
@[simp] theorem State.setStripRec_seq (s : State) (j : Nat) (r : StripRec) :
    (s.setStripRec j r).seq = s.seq := rfl
@[simp] theorem State.setStripRec_host (s : State) (j : Nat) (r : StripRec) :
    (s.setStripRec j r).host = s.host := rfl
@[simp] theorem State.setStripRec_hostData (s : State) (j : Nat) (r : StripRec) :
    (s.setStripRec j r).hostData = s.hostData := rfl
@[simp] theorem State.setStripRec_epoch (s : State) (j : Nat) (r : StripRec) :
    (s.setStripRec j r).epoch = s.epoch := rfl

/-! ### `State.updCurStrip` -/

@[simp] theorem State.updCurStrip_flags (s : State) (g : StripRec → StripRec) :
    (s.updCurStrip g).flags = s.flags := rfl
@[simp] theorem State.updCurStrip_frameLen (s : State) (g : StripRec → StripRec) :
    (s.updCurStrip g).frameLen = s.frameLen := rfl
@[simp] theorem State.updCurStrip_width (s : State) (g : StripRec → StripRec) :
    (s.updCurStrip g).width = s.width := rfl
@[simp] theorem State.updCurStrip_height (s : State) (g : StripRec → StripRec) :
    (s.updCurStrip g).height = s.height := rfl
@[simp] theorem State.updCurStrip_nstrips (s : State) (g : StripRec → StripRec) :
    (s.updCurStrip g).nstrips = s.nstrips := rfl
@[simp] theorem State.updCurStrip_alloc (s : State) (g : StripRec → StripRec) :
    (s.updCurStrip g).alloc = s.alloc := rfl
@[simp] theorem State.updCurStrip_allocW (s : State) (g : StripRec → StripRec) :
    (s.updCurStrip g).allocW = s.allocW := rfl
@[simp] theorem State.updCurStrip_allocH (s : State) (g : StripRec → StripRec) :
    (s.updCurStrip g).allocH = s.allocH := rfl
@[simp] theorem State.updCurStrip_allocN (s : State) (g : StripRec → StripRec) :
    (s.updCurStrip g).allocN = s.allocN := rfl
@[simp] theorem State.updCurStrip_pos (s : State) (g : StripRec → StripRec) :
    (s.updCurStrip g).pos = s.pos := rfl
@[simp] theorem State.updCurStrip_rowcur (s : State) (g : StripRec → StripRec) :
    (s.updCurStrip g).rowcur = s.rowcur := rfl
@[simp] theorem State.updCurStrip_si (s : State) (g : StripRec → StripRec) :
    (s.updCurStrip g).si = s.si := rfl
@[simp] theorem State.updCurStrip_strips (s : State) (g : StripRec → StripRec) :
    (s.updCurStrip g).strips = sparseSet s.strips s.si.toNat StripRec.zero (g s.curStrip) := rfl
@[simp] theorem State.updCurStrip_spanStart (s : State) (g : StripRec → StripRec) :
    (s.updCurStrip g).spanStart = s.spanStart := rfl
@[simp] theorem State.updCurStrip_cid (s : State) (g : StripRec → StripRec) :
    (s.updCurStrip g).cid = s.cid := rfl
@[simp] theorem State.updCurStrip_csize (s : State) (g : StripRec → StripRec) :
    (s.updCurStrip g).csize = s.csize := rfl
@[simp] theorem State.updCurStrip_cstart (s : State) (g : StripRec → StripRec) :
    (s.updCurStrip g).cstart = s.cstart := rfl
@[simp] theorem State.updCurStrip_li (s : State) (g : StripRec → StripRec) :
    (s.updCurStrip g).li = s.li := rfl
@[simp] theorem State.updCurStrip_lflag (s : State) (g : StripRec → StripRec) :
    (s.updCurStrip g).lflag = s.lflag := rfl
@[simp] theorem State.updCurStrip_lmask (s : State) (g : StripRec → StripRec) :
    (s.updCurStrip g).lmask = s.lmask := rfl
@[simp] theorem State.updCurStrip_bX (s : State) (g : StripRec → StripRec) :
    (s.updCurStrip g).bX = s.bX := rfl
@[simp] theorem State.updCurStrip_bY (s : State) (g : StripRec → StripRec) :
    (s.updCurStrip g).bY = s.bY := rfl
@[simp] theorem State.updCurStrip_skf (s : State) (g : StripRec → StripRec) :
    (s.updCurStrip g).skf = s.skf := rfl
@[simp] theorem State.updCurStrip_skm (s : State) (g : StripRec → StripRec) :
    (s.updCurStrip g).skm = s.skm := rfl
@[simp] theorem State.updCurStrip_slf (s : State) (g : StripRec → StripRec) :
    (s.updCurStrip g).slf = s.slf := rfl
@[simp] theorem State.updCurStrip_slm (s : State) (g : StripRec → StripRec) :
    (s.updCurStrip g).slm = s.slm := rfl
@[simp] theorem State.updCurStrip_phase (s : State) (g : StripRec → StripRec) :
    (s.updCurStrip g).phase = s.phase := rfl
@[simp] theorem State.updCurStrip_cause (s : State) (g : StripRec → StripRec) :
    (s.updCurStrip g).cause = s.cause := rfl
@[simp] theorem State.updCurStrip_finfo (s : State) (g : StripRec → StripRec) :
    (s.updCurStrip g).finfo = s.finfo := rfl
@[simp] theorem State.updCurStrip_startPos (s : State) (g : StripRec → StripRec) :
    (s.updCurStrip g).startPos = s.startPos := rfl
@[simp] theorem State.updCurStrip_streamLen (s : State) (g : StripRec → StripRec) :
    (s.updCurStrip g).streamLen = s.streamLen := rfl
@[simp] theorem State.updCurStrip_cb (s : State) (g : StripRec → StripRec) :
    (s.updCurStrip g).cb = s.cb := rfl
@[simp] theorem State.updCurStrip_raster (s : State) (g : StripRec → StripRec) :
    (s.updCurStrip g).raster = s.raster := rfl
@[simp] theorem State.updCurStrip_stream (s : State) (g : StripRec → StripRec) :
    (s.updCurStrip g).stream = s.stream := rfl
@[simp] theorem State.updCurStrip_maxStrips (s : State) (g : StripRec → StripRec) :
    (s.updCurStrip g).maxStrips = s.maxStrips := rfl
@[simp] theorem State.updCurStrip_rasterCap (s : State) (g : StripRec → StripRec) :
    (s.updCurStrip g).rasterCap = s.rasterCap := rfl
@[simp] theorem State.updCurStrip_seq (s : State) (g : StripRec → StripRec) :
    (s.updCurStrip g).seq = s.seq := rfl
@[simp] theorem State.updCurStrip_host (s : State) (g : StripRec → StripRec) :
    (s.updCurStrip g).host = s.host := rfl
@[simp] theorem State.updCurStrip_hostData (s : State) (g : StripRec → StripRec) :
    (s.updCurStrip g).hostData = s.hostData := rfl
@[simp] theorem State.updCurStrip_epoch (s : State) (g : StripRec → StripRec) :
    (s.updCurStrip g).epoch = s.epoch := rfl

/-! ### `State.putPixel` -/

@[simp] theorem State.putPixel_flags (s : State) (x y : Nat) (l u v : Byte) :
    (s.putPixel x y l u v).flags = s.flags := rfl
@[simp] theorem State.putPixel_frameLen (s : State) (x y : Nat) (l u v : Byte) :
    (s.putPixel x y l u v).frameLen = s.frameLen := rfl
@[simp] theorem State.putPixel_width (s : State) (x y : Nat) (l u v : Byte) :
    (s.putPixel x y l u v).width = s.width := rfl
@[simp] theorem State.putPixel_height (s : State) (x y : Nat) (l u v : Byte) :
    (s.putPixel x y l u v).height = s.height := rfl
@[simp] theorem State.putPixel_nstrips (s : State) (x y : Nat) (l u v : Byte) :
    (s.putPixel x y l u v).nstrips = s.nstrips := rfl
@[simp] theorem State.putPixel_alloc (s : State) (x y : Nat) (l u v : Byte) :
    (s.putPixel x y l u v).alloc = s.alloc := rfl
@[simp] theorem State.putPixel_allocW (s : State) (x y : Nat) (l u v : Byte) :
    (s.putPixel x y l u v).allocW = s.allocW := rfl
@[simp] theorem State.putPixel_allocH (s : State) (x y : Nat) (l u v : Byte) :
    (s.putPixel x y l u v).allocH = s.allocH := rfl
@[simp] theorem State.putPixel_allocN (s : State) (x y : Nat) (l u v : Byte) :
    (s.putPixel x y l u v).allocN = s.allocN := rfl
@[simp] theorem State.putPixel_pos (s : State) (x y : Nat) (l u v : Byte) :
    (s.putPixel x y l u v).pos = s.pos := rfl
@[simp] theorem State.putPixel_rowcur (s : State) (x y : Nat) (l u v : Byte) :
    (s.putPixel x y l u v).rowcur = s.rowcur := rfl
@[simp] theorem State.putPixel_si (s : State) (x y : Nat) (l u v : Byte) :
    (s.putPixel x y l u v).si = s.si := rfl
@[simp] theorem State.putPixel_strips (s : State) (x y : Nat) (l u v : Byte) :
    (s.putPixel x y l u v).strips = s.strips := rfl
@[simp] theorem State.putPixel_spanStart (s : State) (x y : Nat) (l u v : Byte) :
    (s.putPixel x y l u v).spanStart = s.spanStart := rfl
@[simp] theorem State.putPixel_cid (s : State) (x y : Nat) (l u v : Byte) :
    (s.putPixel x y l u v).cid = s.cid := rfl
@[simp] theorem State.putPixel_csize (s : State) (x y : Nat) (l u v : Byte) :
    (s.putPixel x y l u v).csize = s.csize := rfl
@[simp] theorem State.putPixel_cstart (s : State) (x y : Nat) (l u v : Byte) :
    (s.putPixel x y l u v).cstart = s.cstart := rfl
@[simp] theorem State.putPixel_li (s : State) (x y : Nat) (l u v : Byte) :
    (s.putPixel x y l u v).li = s.li := rfl
@[simp] theorem State.putPixel_lflag (s : State) (x y : Nat) (l u v : Byte) :
    (s.putPixel x y l u v).lflag = s.lflag := rfl
@[simp] theorem State.putPixel_lmask (s : State) (x y : Nat) (l u v : Byte) :
    (s.putPixel x y l u v).lmask = s.lmask := rfl
@[simp] theorem State.putPixel_bX (s : State) (x y : Nat) (l u v : Byte) :
    (s.putPixel x y l u v).bX = s.bX := rfl
@[simp] theorem State.putPixel_bY (s : State) (x y : Nat) (l u v : Byte) :
    (s.putPixel x y l u v).bY = s.bY := rfl
@[simp] theorem State.putPixel_skf (s : State) (x y : Nat) (l u v : Byte) :
    (s.putPixel x y l u v).skf = s.skf := rfl
@[simp] theorem State.putPixel_skm (s : State) (x y : Nat) (l u v : Byte) :
    (s.putPixel x y l u v).skm = s.skm := rfl
@[simp] theorem State.putPixel_slf (s : State) (x y : Nat) (l u v : Byte) :
    (s.putPixel x y l u v).slf = s.slf := rfl
@[simp] theorem State.putPixel_slm (s : State) (x y : Nat) (l u v : Byte) :
    (s.putPixel x y l u v).slm = s.slm := rfl
@[simp] theorem State.putPixel_phase (s : State) (x y : Nat) (l u v : Byte) :
    (s.putPixel x y l u v).phase = s.phase := rfl
@[simp] theorem State.putPixel_cause (s : State) (x y : Nat) (l u v : Byte) :
    (s.putPixel x y l u v).cause = s.cause := rfl
@[simp] theorem State.putPixel_finfo (s : State) (x y : Nat) (l u v : Byte) :
    (s.putPixel x y l u v).finfo = s.finfo := rfl
@[simp] theorem State.putPixel_startPos (s : State) (x y : Nat) (l u v : Byte) :
    (s.putPixel x y l u v).startPos = s.startPos := rfl
@[simp] theorem State.putPixel_streamLen (s : State) (x y : Nat) (l u v : Byte) :
    (s.putPixel x y l u v).streamLen = s.streamLen := rfl
@[simp] theorem State.putPixel_cb (s : State) (x y : Nat) (l u v : Byte) :
    (s.putPixel x y l u v).cb = s.cb := rfl
@[simp] theorem State.putPixel_raster (s : State) (x y : Nat) (l u v : Byte) :
    (s.putPixel x y l u v).raster = pixelWrite s.width.toNat s.height.toNat s.raster x y l u v := rfl
@[simp] theorem State.putPixel_stream (s : State) (x y : Nat) (l u v : Byte) :
    (s.putPixel x y l u v).stream = s.stream := rfl
@[simp] theorem State.putPixel_maxStrips (s : State) (x y : Nat) (l u v : Byte) :
    (s.putPixel x y l u v).maxStrips = s.maxStrips := rfl
@[simp] theorem State.putPixel_rasterCap (s : State) (x y : Nat) (l u v : Byte) :
    (s.putPixel x y l u v).rasterCap = s.rasterCap := rfl
@[simp] theorem State.putPixel_seq (s : State) (x y : Nat) (l u v : Byte) :
    (s.putPixel x y l u v).seq = s.seq := rfl
@[simp] theorem State.putPixel_host (s : State) (x y : Nat) (l u v : Byte) :
    (s.putPixel x y l u v).host = s.host := rfl
@[simp] theorem State.putPixel_hostData (s : State) (x y : Nat) (l u v : Byte) :
    (s.putPixel x y l u v).hostData = s.hostData := rfl
@[simp] theorem State.putPixel_epoch (s : State) (x y : Nat) (l u v : Byte) :
    (s.putPixel x y l u v).epoch = s.epoch := rfl

/-! ### `State.paint` -/

@[simp] theorem State.paint_flags (s : State) (ps : List BlockPixel) :
    (s.paint ps).flags = s.flags := rfl
@[simp] theorem State.paint_frameLen (s : State) (ps : List BlockPixel) :
    (s.paint ps).frameLen = s.frameLen := rfl
@[simp] theorem State.paint_width (s : State) (ps : List BlockPixel) :
    (s.paint ps).width = s.width := rfl
@[simp] theorem State.paint_height (s : State) (ps : List BlockPixel) :
    (s.paint ps).height = s.height := rfl
@[simp] theorem State.paint_nstrips (s : State) (ps : List BlockPixel) :
    (s.paint ps).nstrips = s.nstrips := rfl
@[simp] theorem State.paint_alloc (s : State) (ps : List BlockPixel) :
    (s.paint ps).alloc = s.alloc := rfl
@[simp] theorem State.paint_allocW (s : State) (ps : List BlockPixel) :
    (s.paint ps).allocW = s.allocW := rfl
@[simp] theorem State.paint_allocH (s : State) (ps : List BlockPixel) :
    (s.paint ps).allocH = s.allocH := rfl
@[simp] theorem State.paint_allocN (s : State) (ps : List BlockPixel) :
    (s.paint ps).allocN = s.allocN := rfl
@[simp] theorem State.paint_pos (s : State) (ps : List BlockPixel) :
    (s.paint ps).pos = s.pos := rfl
@[simp] theorem State.paint_rowcur (s : State) (ps : List BlockPixel) :
    (s.paint ps).rowcur = s.rowcur := rfl
@[simp] theorem State.paint_si (s : State) (ps : List BlockPixel) :
    (s.paint ps).si = s.si := rfl
@[simp] theorem State.paint_strips (s : State) (ps : List BlockPixel) :
    (s.paint ps).strips = s.strips := rfl
@[simp] theorem State.paint_spanStart (s : State) (ps : List BlockPixel) :
    (s.paint ps).spanStart = s.spanStart := rfl
@[simp] theorem State.paint_cid (s : State) (ps : List BlockPixel) :
    (s.paint ps).cid = s.cid := rfl
@[simp] theorem State.paint_csize (s : State) (ps : List BlockPixel) :
    (s.paint ps).csize = s.csize := rfl
@[simp] theorem State.paint_cstart (s : State) (ps : List BlockPixel) :
    (s.paint ps).cstart = s.cstart := rfl
@[simp] theorem State.paint_li (s : State) (ps : List BlockPixel) :
    (s.paint ps).li = s.li := rfl
@[simp] theorem State.paint_lflag (s : State) (ps : List BlockPixel) :
    (s.paint ps).lflag = s.lflag := rfl
@[simp] theorem State.paint_lmask (s : State) (ps : List BlockPixel) :
    (s.paint ps).lmask = s.lmask := rfl
@[simp] theorem State.paint_bX (s : State) (ps : List BlockPixel) :
    (s.paint ps).bX = s.bX := rfl
@[simp] theorem State.paint_bY (s : State) (ps : List BlockPixel) :
    (s.paint ps).bY = s.bY := rfl
@[simp] theorem State.paint_skf (s : State) (ps : List BlockPixel) :
    (s.paint ps).skf = s.skf := rfl
@[simp] theorem State.paint_skm (s : State) (ps : List BlockPixel) :
    (s.paint ps).skm = s.skm := rfl
@[simp] theorem State.paint_slf (s : State) (ps : List BlockPixel) :
    (s.paint ps).slf = s.slf := rfl
@[simp] theorem State.paint_slm (s : State) (ps : List BlockPixel) :
    (s.paint ps).slm = s.slm := rfl
@[simp] theorem State.paint_phase (s : State) (ps : List BlockPixel) :
    (s.paint ps).phase = s.phase := rfl
@[simp] theorem State.paint_cause (s : State) (ps : List BlockPixel) :
    (s.paint ps).cause = s.cause := rfl
@[simp] theorem State.paint_finfo (s : State) (ps : List BlockPixel) :
    (s.paint ps).finfo = s.finfo := rfl
@[simp] theorem State.paint_startPos (s : State) (ps : List BlockPixel) :
    (s.paint ps).startPos = s.startPos := rfl
@[simp] theorem State.paint_streamLen (s : State) (ps : List BlockPixel) :
    (s.paint ps).streamLen = s.streamLen := rfl
@[simp] theorem State.paint_cb (s : State) (ps : List BlockPixel) :
    (s.paint ps).cb = s.cb := rfl
@[simp] theorem State.paint_raster (s : State) (ps : List BlockPixel) :
    (s.paint ps).raster = paintPixels s.width.toNat s.height.toNat s.bX.toNat s.bY.toNat ps s.raster := rfl
@[simp] theorem State.paint_stream (s : State) (ps : List BlockPixel) :
    (s.paint ps).stream = s.stream := rfl
@[simp] theorem State.paint_maxStrips (s : State) (ps : List BlockPixel) :
    (s.paint ps).maxStrips = s.maxStrips := rfl
@[simp] theorem State.paint_rasterCap (s : State) (ps : List BlockPixel) :
    (s.paint ps).rasterCap = s.rasterCap := rfl
@[simp] theorem State.paint_seq (s : State) (ps : List BlockPixel) :
    (s.paint ps).seq = s.seq := rfl
@[simp] theorem State.paint_host (s : State) (ps : List BlockPixel) :
    (s.paint ps).host = s.host := rfl
@[simp] theorem State.paint_hostData (s : State) (ps : List BlockPixel) :
    (s.paint ps).hostData = s.hostData := rfl
@[simp] theorem State.paint_epoch (s : State) (ps : List BlockPixel) :
    (s.paint ps).epoch = s.epoch := rfl

/-! ### `State.enterFrame` -/

@[simp] theorem State.enterFrame_flags (s : State) :
    (s.enterFrame).flags = s.flags := rfl
@[simp] theorem State.enterFrame_frameLen (s : State) :
    (s.enterFrame).frameLen = s.frameLen := rfl
@[simp] theorem State.enterFrame_width (s : State) :
    (s.enterFrame).width = s.width := rfl
@[simp] theorem State.enterFrame_height (s : State) :
    (s.enterFrame).height = s.height := rfl
@[simp] theorem State.enterFrame_nstrips (s : State) :
    (s.enterFrame).nstrips = s.nstrips := rfl
@[simp] theorem State.enterFrame_alloc (s : State) :
    (s.enterFrame).alloc = s.alloc := rfl
@[simp] theorem State.enterFrame_allocW (s : State) :
    (s.enterFrame).allocW = s.allocW := rfl
@[simp] theorem State.enterFrame_allocH (s : State) :
    (s.enterFrame).allocH = s.allocH := rfl
@[simp] theorem State.enterFrame_allocN (s : State) :
    (s.enterFrame).allocN = s.allocN := rfl
@[simp] theorem State.enterFrame_pos (s : State) :
    (s.enterFrame).pos = s.startPos := rfl
@[simp] theorem State.enterFrame_rowcur (s : State) :
    (s.enterFrame).rowcur = s.rowcur := rfl
@[simp] theorem State.enterFrame_si (s : State) :
    (s.enterFrame).si = s.si := rfl
@[simp] theorem State.enterFrame_strips (s : State) :
    (s.enterFrame).strips = s.strips := rfl
@[simp] theorem State.enterFrame_spanStart (s : State) :
    (s.enterFrame).spanStart = s.spanStart := rfl
@[simp] theorem State.enterFrame_cid (s : State) :
    (s.enterFrame).cid = s.cid := rfl
@[simp] theorem State.enterFrame_csize (s : State) :
    (s.enterFrame).csize = s.csize := rfl
@[simp] theorem State.enterFrame_cstart (s : State) :
    (s.enterFrame).cstart = s.cstart := rfl
@[simp] theorem State.enterFrame_li (s : State) :
    (s.enterFrame).li = s.li := rfl
@[simp] theorem State.enterFrame_lflag (s : State) :
    (s.enterFrame).lflag = s.lflag := rfl
@[simp] theorem State.enterFrame_lmask (s : State) :
    (s.enterFrame).lmask = s.lmask := rfl
@[simp] theorem State.enterFrame_bX (s : State) :
    (s.enterFrame).bX = s.bX := rfl
@[simp] theorem State.enterFrame_bY (s : State) :
    (s.enterFrame).bY = s.bY := rfl
@[simp] theorem State.enterFrame_skf (s : State) :
    (s.enterFrame).skf = s.skf := rfl
@[simp] theorem State.enterFrame_skm (s : State) :
    (s.enterFrame).skm = s.skm := rfl
@[simp] theorem State.enterFrame_slf (s : State) :
    (s.enterFrame).slf = s.slf := rfl
@[simp] theorem State.enterFrame_slm (s : State) :
    (s.enterFrame).slm = s.slm := rfl
@[simp] theorem State.enterFrame_phase (s : State) :
    (s.enterFrame).phase = Phase.busy := rfl
@[simp] theorem State.enterFrame_cause (s : State) :
    (s.enterFrame).cause = Cause.none := rfl
@[simp] theorem State.enterFrame_finfo (s : State) :
    (s.enterFrame).finfo = 0 := rfl
@[simp] theorem State.enterFrame_startPos (s : State) :
    (s.enterFrame).startPos = s.startPos := rfl
@[simp] theorem State.enterFrame_streamLen (s : State) :
    (s.enterFrame).streamLen = s.streamLen := rfl
@[simp] theorem State.enterFrame_cb (s : State) :
    (s.enterFrame).cb = s.cb := rfl
@[simp] theorem State.enterFrame_raster (s : State) :
    (s.enterFrame).raster = s.raster := rfl
@[simp] theorem State.enterFrame_stream (s : State) :
    (s.enterFrame).stream = s.stream := rfl
@[simp] theorem State.enterFrame_maxStrips (s : State) :
    (s.enterFrame).maxStrips = s.maxStrips := rfl
@[simp] theorem State.enterFrame_rasterCap (s : State) :
    (s.enterFrame).rasterCap = s.rasterCap := rfl
@[simp] theorem State.enterFrame_seq (s : State) :
    (s.enterFrame).seq = Seq.frameHeader := rfl
@[simp] theorem State.enterFrame_host (s : State) :
    (s.enterFrame).host = s.host := rfl
@[simp] theorem State.enterFrame_hostData (s : State) :
    (s.enterFrame).hostData = s.hostData := rfl
@[simp] theorem State.enterFrame_epoch (s : State) :
    (s.enterFrame).epoch = s.epoch := rfl

/-! ### `State.inherit` -/

@[simp] theorem State.inherit_flags (s : State) :
    (s.inherit).flags = s.flags := rfl
@[simp] theorem State.inherit_frameLen (s : State) :
    (s.inherit).frameLen = s.frameLen := rfl
@[simp] theorem State.inherit_width (s : State) :
    (s.inherit).width = s.width := rfl
@[simp] theorem State.inherit_height (s : State) :
    (s.inherit).height = s.height := rfl
@[simp] theorem State.inherit_nstrips (s : State) :
    (s.inherit).nstrips = s.nstrips := rfl
@[simp] theorem State.inherit_alloc (s : State) :
    (s.inherit).alloc = s.alloc := rfl
@[simp] theorem State.inherit_allocW (s : State) :
    (s.inherit).allocW = s.allocW := rfl
@[simp] theorem State.inherit_allocH (s : State) :
    (s.inherit).allocH = s.allocH := rfl
@[simp] theorem State.inherit_allocN (s : State) :
    (s.inherit).allocN = s.allocN := rfl
@[simp] theorem State.inherit_pos (s : State) :
    (s.inherit).pos = s.pos := rfl
@[simp] theorem State.inherit_rowcur (s : State) :
    (s.inherit).rowcur = s.rowcur := rfl
@[simp] theorem State.inherit_si (s : State) :
    (s.inherit).si = s.si := rfl
@[simp] theorem State.inherit_strips (s : State) :
    (s.inherit).strips = s.strips := rfl
@[simp] theorem State.inherit_spanStart (s : State) :
    (s.inherit).spanStart = s.spanStart := rfl
@[simp] theorem State.inherit_cid (s : State) :
    (s.inherit).cid = s.cid := rfl
@[simp] theorem State.inherit_csize (s : State) :
    (s.inherit).csize = s.csize := rfl
@[simp] theorem State.inherit_cstart (s : State) :
    (s.inherit).cstart = s.cstart := rfl
@[simp] theorem State.inherit_li (s : State) :
    (s.inherit).li = s.li := rfl
@[simp] theorem State.inherit_lflag (s : State) :
    (s.inherit).lflag = s.lflag := rfl
@[simp] theorem State.inherit_lmask (s : State) :
    (s.inherit).lmask = s.lmask := rfl
@[simp] theorem State.inherit_bX (s : State) :
    (s.inherit).bX = s.bX := rfl
@[simp] theorem State.inherit_bY (s : State) :
    (s.inherit).bY = s.bY := rfl
@[simp] theorem State.inherit_skf (s : State) :
    (s.inherit).skf = s.skf := rfl
@[simp] theorem State.inherit_skm (s : State) :
    (s.inherit).skm = s.skm := rfl
@[simp] theorem State.inherit_slf (s : State) :
    (s.inherit).slf = s.slf := rfl
@[simp] theorem State.inherit_slm (s : State) :
    (s.inherit).slm = s.slm := rfl
@[simp] theorem State.inherit_phase (s : State) :
    (s.inherit).phase = s.phase := rfl
@[simp] theorem State.inherit_cause (s : State) :
    (s.inherit).cause = s.cause := rfl
@[simp] theorem State.inherit_finfo (s : State) :
    (s.inherit).finfo = s.finfo := rfl
@[simp] theorem State.inherit_startPos (s : State) :
    (s.inherit).startPos = s.startPos := rfl
@[simp] theorem State.inherit_streamLen (s : State) :
    (s.inherit).streamLen = s.streamLen := rfl
@[simp] theorem State.inherit_raster (s : State) :
    (s.inherit).raster = s.raster := rfl
@[simp] theorem State.inherit_stream (s : State) :
    (s.inherit).stream = s.stream := rfl
@[simp] theorem State.inherit_maxStrips (s : State) :
    (s.inherit).maxStrips = s.maxStrips := rfl
@[simp] theorem State.inherit_rasterCap (s : State) :
    (s.inherit).rasterCap = s.rasterCap := rfl
@[simp] theorem State.inherit_seq (s : State) :
    (s.inherit).seq = s.seq := rfl
@[simp] theorem State.inherit_host (s : State) :
    (s.inherit).host = s.host := rfl
@[simp] theorem State.inherit_hostData (s : State) :
    (s.inherit).hostData = s.hostData := rfl
@[simp] theorem State.inherit_epoch (s : State) :
    (s.inherit).epoch = s.epoch := rfl

/-! ### The registers of a flag stream -/

@[simp] theorem State.setFlag_flagWord (s : State) (f : FlagStream) (w m : FlagWord) :
    (s.setFlag f w m).flagWord f = w := by cases f <;> rfl
@[simp] theorem State.setFlag_flagMask (s : State) (f : FlagStream) (w m : FlagWord) :
    (s.setFlag f w m).flagMask f = m := by cases f <;> rfl

/-- A flag stream's registers are untouched by a write to another stream (42_vector_unpacker.md R162). -/
theorem State.setFlag_other (s : State) (f g : FlagStream) (w m : FlagWord) (h : g ≠ f) :
    (s.setFlag f w m).flagWord g = s.flagWord g ∧ (s.setFlag f w m).flagMask g = s.flagMask g := by
  cases f <;> cases g <;> first | exact absurd rfl h | exact ⟨rfl, rfl⟩

end Sys2Proof.Machine
end

