-- ==== Sys2Proof/Laws/Act.lean ====
section
/-! SUPPORT. The action calculus: what sequencing does, relations that every action of a sequence keeps, and
one lemma for each primitive action that says all it can do. -/

namespace Sys2Proof.Machine

variable {α β : Type}

/-! ### Sequencing -/

theorem act_bind (x : Act α) (f : α → Act β) (s : State) :
    (x >>= f) s = match x s with
      | .ok a t => f a t
      | .error e t => .error e t := by
  show EStateM.bind x f s = _
  unfold EStateM.bind
  split <;> simp_all

theorem act_bind_ok {x : Act α} {f : α → Act β} {s t : State} {a : α} (h : x s = .ok a t) :
    (x >>= f) s = f a t := by rw [act_bind, h]

theorem act_bind_error {x : Act α} {f : α → Act β} {s t : State} {e : Ending} (h : x s = .error e t) :
    (x >>= f) s = .error e t := by rw [act_bind, h]

@[simp] theorem act_pure (a : α) (s : State) : (pure a : Act α) s = .ok a s := rfl

@[simp] theorem act_modify (g : State → State) (s : State) : (modify g : Act Unit) s = .ok () (g s) := rfl

@[simp] theorem act_get (s : State) : (get : Act State) s = .ok s s := rfl

@[simp] theorem act_seek (p : Nat) (s : State) : seek p s = .ok () { s with pos := p } := rfl

/-- The state an action leaves, whichever way it ends. -/
def endState : EStateM.Result Ending State α → State
  | .ok _ t => t
  | .error _ t => t

@[simp] theorem endState_ok (a : α) (t : State) :
    endState (.ok a t : EStateM.Result Ending State α) = t := rfl

@[simp] theorem endState_error (e : Ending) (t : State) :
    endState (.error e t : EStateM.Result Ending State α) = t := rfl

/-! ### Relations kept by actions -/

/-- An action that raises a fault raises one with a cause of its own: never code 0 (60_exceptions.md R201). -/
def Proper : EStateM.Result Ending State α → Prop
  | .error (.raise c _) _ => c ≠ .none
  | _ => True

/-- Whatever state an action starts in and however it ends, the relation holds between the two, and a fault
it raises has a cause. -/
def Keeps (R : State → State → Prop) (act : Act α) : Prop :=
  ∀ s, R s (endState (act s)) ∧ Proper (act s)

/-- A relation that can be chained. -/
structure Chain (R : State → State → Prop) : Prop where
  refl : ∀ s, R s s
  trans : ∀ s t u, R s t → R t u → R s u

theorem Keeps.bind {R : State → State → Prop} (hR : Chain R) {x : Act α} {f : α → Act β} (hx : Keeps R x)
    (hf : ∀ a, Keeps R (f a)) : Keeps R (x >>= f) := by
  intro s
  have h := hx s
  rw [act_bind]
  split
  · rename_i a t he
    rw [he] at h
    exact ⟨hR.trans s t _ h.1 (hf a t).1, (hf a t).2⟩
  · rename_i e t he
    rw [he] at h
    exact ⟨h.1, by cases e <;> first | trivial | exact h.2⟩

theorem Keeps.pure {R : State → State → Prop} (hR : Chain R) (a : α) : Keeps R (Pure.pure a : Act α) :=
  fun s => ⟨hR.refl s, trivial⟩

theorem Keeps.get {R : State → State → Prop} (hR : Chain R) : Keeps R (MonadState.get : Act State) :=
  fun s => ⟨hR.refl s, trivial⟩

theorem Keeps.modify {R : State → State → Prop} {g : State → State} (h : ∀ s, R s (g s)) :
    Keeps R (modify g : Act Unit) := fun s => ⟨h s, trivial⟩

/-- A property of states that every step of a sequence keeps, as a relation. -/
theorem chain_imp (P : State → Prop) : Chain fun s t => P s → P t :=
  ⟨fun _ h => h, fun _ _ _ h k hs => k (h hs)⟩

/-- A component of the state that no step of a sequence changes, as a relation. -/
theorem chain_eq {γ : Type} (f : State → γ) : Chain fun s t => f t = f s :=
  ⟨fun _ => rfl, fun _ _ _ h k => k.trans h⟩

/-! ### Primitive actions -/

theorem raiseIf_true {c : Cause} {n : Nat} {cond : Bool} (h : cond = true) (s : State) :
    raiseIf cond c n s = .error (.raise c n) s := by simp [raiseIf, h]

theorem raiseIf_false {c : Cause} {n : Nat} {cond : Bool} (h : cond = false) (s : State) :
    raiseIf cond c n s = .ok () s := by simp [raiseIf, h]

theorem needPayload_ok {n : Nat} {s : State} (h : n ≤ s.rem) : needPayload n s = .ok () s := by
  simp only [needPayload]
  rw [if_neg (by omega)]

theorem needPayload_stop {n : Nat} {s : State} (h : s.rem < n) : needPayload n s = .error .stop s := by
  simp only [needPayload]
  rw [if_pos h]

/-- A read that fits returns the bytes and moves `POS` past them (20_memory.md R52). -/
theorem readBytes_ok {n : Nat} {s : State} (h : s.pos + n ≤ s.streamLen) :
    readBytes n s = .ok (streamBytes s s.pos n) { s with pos := s.pos + n } := by
  simp only [readBytes]
  rw [if_neg (by omega)]

/-- A read that does not fit reads nothing (20_memory.md R62). -/
theorem readBytes_under {n : Nat} {s : State} (h : s.streamLen < s.pos + n) :
    readBytes n s = .error (.raise .streamUnderrun s.pos) s := by
  simp only [readBytes]
  rw [if_pos h]

theorem readU8_ok {s : State} (h : s.pos + 1 ≤ s.streamLen) :
    readU8 s = .ok (streamByte s s.pos) { s with pos := s.pos + 1 } := by
  rw [readU8, act_bind_ok (readBytes_ok h)]
  simp [streamBytes, bigEndian]

theorem readU8_under {s : State} (h : s.streamLen < s.pos + 1) :
    readU8 s = .error (.raise .streamUnderrun s.pos) s := by
  rw [readU8, act_bind_error (readBytes_under h)]

theorem readU16_ok {s : State} (h : s.pos + 2 ≤ s.streamLen) :
    readU16 s = .ok (BitVec.ofNat 16
        ((streamByte s s.pos).toNat * 256 + (streamByte s (s.pos + 1)).toNat))
      { s with pos := s.pos + 2 } := by
  rw [readU16, act_bind_ok (readBytes_ok h)]
  simp [streamBytes, bigEndian]

theorem readU16_under {s : State} (h : s.streamLen < s.pos + 2) :
    readU16 s = .error (.raise .streamUnderrun s.pos) s := by
  rw [readU16, act_bind_error (readBytes_under h)]

/-- Moving `POS` does not change what S holds. -/
@[simp] theorem streamByte_pos (s : State) (p a : Nat) :
    streamByte { s with pos := p } a = streamByte s a := rfl

theorem readU24_ok {s : State} (h : s.pos + 3 ≤ s.streamLen) :
    readU24 s = .ok (BitVec.ofNat 24 ((streamByte s s.pos).toNat * 65536 +
        ((streamByte s (s.pos + 1)).toNat * 256 + (streamByte s (s.pos + 2)).toNat)))
      { s with pos := s.pos + 3 } := by
  have h2 : ({ s with pos := s.pos + 1 } : State).pos + 2 ≤ ({ s with pos := s.pos + 1 } : State).streamLen := by
    simp only
    omega
  have hb := (streamByte s (s.pos + 1)).isLt
  have hc := (streamByte s (s.pos + 2)).isLt
  rw [readU24, act_bind_ok (readU8_ok (by omega)), act_bind_ok (readU16_ok h2), act_pure]
  simp only [streamByte_pos, BitVec.toNat_ofNat, Nat.add_assoc, Nat.reduceAdd]
  congr 3
  omega

/-- The 24-bit read that ends between its two parts (20_memory.md R60). -/
theorem readU24_split {s : State} (h1 : s.pos + 1 ≤ s.streamLen) (h3 : s.streamLen < s.pos + 3) :
    readU24 s = .error (.raise .streamUnderrun (s.pos + 1)) { s with pos := s.pos + 1 } := by
  rw [readU24, act_bind_ok (readU8_ok h1), act_bind_error (readU16_under (by simp only; omega))]

theorem readU24_under {s : State} (h : s.streamLen < s.pos + 1) :
    readU24 s = .error (.raise .streamUnderrun s.pos) s := by
  rw [readU24, act_bind_error (readU8_under h)]

theorem readU32_ok {s : State} (h : s.pos + 4 ≤ s.streamLen) :
    readU32 s = .ok (BitVec.ofNat 32 ((((streamByte s s.pos).toNat * 256 +
        (streamByte s (s.pos + 1)).toNat) * 256 + (streamByte s (s.pos + 2)).toNat) * 256 +
        (streamByte s (s.pos + 3)).toNat))
      { s with pos := s.pos + 4 } := by
  rw [readU32, act_bind_ok (readBytes_ok h)]
  simp [streamBytes, bigEndian]

theorem readU32_under {s : State} (h : s.streamLen < s.pos + 4) :
    readU32 s = .error (.raise .streamUnderrun s.pos) s := by
  rw [readU32, act_bind_error (readBytes_under h)]

/-! ### What the read primitives keep -/

/-- A read can only move `POS`, and only forward. -/
theorem Keeps.readBytes {R : State → State → Prop} (hR : Chain R)
    (h : ∀ (s : State) n, s.pos + n ≤ s.streamLen → R s { s with pos := s.pos + n }) (n : Nat) :
    Keeps R (readBytes n) := by
  intro s
  by_cases hn : s.pos + n ≤ s.streamLen
  · rw [readBytes_ok hn]
    exact ⟨h s n hn, trivial⟩
  · rw [readBytes_under (by omega)]
    exact ⟨hR.refl s, by simp [Proper]⟩

theorem Keeps.readU8 {R : State → State → Prop} (hR : Chain R)
    (h : ∀ (s : State) n, s.pos + n ≤ s.streamLen → R s { s with pos := s.pos + n }) :
    Keeps R readU8 :=
  .bind hR (.readBytes hR h 1) fun _ => .pure hR _

theorem Keeps.readU16 {R : State → State → Prop} (hR : Chain R)
    (h : ∀ (s : State) n, s.pos + n ≤ s.streamLen → R s { s with pos := s.pos + n }) :
    Keeps R readU16 :=
  .bind hR (.readBytes hR h 2) fun _ => .pure hR _

theorem Keeps.readU24 {R : State → State → Prop} (hR : Chain R)
    (h : ∀ (s : State) n, s.pos + n ≤ s.streamLen → R s { s with pos := s.pos + n }) :
    Keeps R readU24 :=
  .bind hR (.readU8 hR h) fun _ => .bind hR (.readU16 hR h) fun _ => .pure hR _

theorem Keeps.readU32 {R : State → State → Prop} (hR : Chain R)
    (h : ∀ (s : State) n, s.pos + n ≤ s.streamLen → R s { s with pos := s.pos + n }) :
    Keeps R readU32 :=
  .bind hR (.readBytes hR h 4) fun _ => .pure hR _

theorem Keeps.needPayload {R : State → State → Prop} (hR : Chain R) (n : Nat) : Keeps R (needPayload n) := by
  intro s
  by_cases h : n ≤ s.rem
  · rw [needPayload_ok h]
    exact ⟨hR.refl s, trivial⟩
  · rw [needPayload_stop (by omega)]
    exact ⟨hR.refl s, trivial⟩

theorem Keeps.raiseIf {R : State → State → Prop} (hR : Chain R) (cond : Bool) {c : Cause} (hc : c ≠ .none)
    (n : Nat) : Keeps R (raiseIf cond c n) := by
  intro s
  cases cond
  · rw [raiseIf_false rfl]
    exact ⟨hR.refl s, trivial⟩
  · rw [raiseIf_true rfl]
    exact ⟨hR.refl s, hc⟩

/-! ### A chunk's frame -/

/-- A step of actions answers a next state, always. -/
theorem finish_next (act : Act Unit) (s : State) : finish act s = .next (settle (act s)) := rfl

/-- The state in which the handler of a chunk starts (40_frame_decoder.md R124). -/
def headerLatched (id : Byte) (z : Size) (s : State) : State :=
  { s with cid := id, csize := BitVec.ofNat 24 (z.toNat - 4), cstart := s.pos }

theorem latchHeader_ok {id : Byte} {z : Size} (h : 4 ≤ z.toNat) (s : State) :
    latchHeader id z s = .ok () (headerLatched id z s) := by
  have hz : decide (z.toNat < 4) = false := by simpa using h
  rw [latchHeader, act_bind_ok (act_modify _ s), act_bind_ok (raiseIf_false hz _), act_modify]
  rfl

theorem latchHeader_small {id : Byte} {z : Size} (h : z.toNat < 4) (s : State) :
    latchHeader id z s = .error (.raise .badChunkSize z.toNat) { s with cid := id } := by
  have hz : decide (z.toNat < 4) = true := by simpa using h
  rw [latchHeader, act_bind_ok (act_modify _ s), act_bind_error (raiseIf_true hz _)]

/-- The budget a header gives. -/
theorem size_sub_toNat (z : Size) : (BitVec.ofNat 24 (z.toNat - 4)).toNat = z.toNat - 4 := by
  have := z.isLt
  rw [BitVec.toNat_ofNat]
  omega

/-- How a chunk ends: a normal return and a truncation go to the reposition, a fault is taken
(40_frame_decoder.md R128, R129). -/
def chunkEnd : EStateM.Result Ending State Unit → State
  | .ok _ t => { t with pos := t.cstart + t.csize.toNat }
  | .error .stop t => { t with pos := t.cstart + t.csize.toNat }
  | .error (.raise c n) t => t.raiseFault c n

/-- All a chunk can do, once its size is at least 4. -/
theorem runChunk_ok {id : Byte} {z : Size} (h : 4 ≤ z.toNat) (handler : Act Unit) (s : State) :
    runChunk id z handler s = .next (chunkEnd (handler (headerLatched id z s))) := by
  rw [runChunk, finish, act_bind_ok (latchHeader_ok h s), act_bind]
  rcases hh : handler (headerLatched id z s) with ⟨u, t⟩ | ⟨e, t⟩
  · simp only [stopsHere, hh, chunkEnd, reposition, act_bind_ok (act_get t), act_seek, settle]
  · cases e with
    | stop => simp only [stopsHere, hh, chunkEnd, reposition, act_bind_ok (act_get t), act_seek, settle]
    | raise c n => simp only [stopsHere, hh, chunkEnd, settle]

/-- What a chunk can change beyond what its handler changes: the reposition, or the status. -/
theorem chunkEnd_kept {R : State → State → Prop} (hR : Chain R) (hseek : ∀ (s : State) p, R s { s with pos := p })
    (hfault : ∀ (s : State) c n, c ≠ .none → R s (s.raiseFault c n)) {act : Act Unit} (h : Keeps R act)
    (s : State) : R s (chunkEnd (act s)) := by
  have := h s
  rcases hh : act s with ⟨u, t⟩ | ⟨e, t⟩ <;> rw [hh] at this
  · exact hR.trans _ _ _ this.1 (hseek t _)
  · cases e with
    | stop => exact hR.trans _ _ _ this.1 (hseek t _)
    | raise c n => exact hR.trans _ _ _ this.1 (hfault t c n this.2)

/-- What a step of the sequencer can change beyond what its actions change: the status. -/
theorem settle_kept {R : State → State → Prop} (hR : Chain R)
    (hfault : ∀ (s : State) c n, c ≠ .none → R s (s.raiseFault c n)) {act : Act Unit} (h : Keeps R act)
    (s : State) : R s (settle (act s)) := by
  have := h s
  rcases hh : act s with ⟨u, t⟩ | ⟨e, t⟩ <;> rw [hh] at this
  · exact this.1
  · cases e with
    | stop => exact this.1
    | raise c n => exact hR.trans _ _ _ this.1 (hfault t c n this.2)

/-- A chunk whose stored size is below 4 raises `BadChunkSize` (40_frame_decoder.md R124). -/
theorem runChunk_small {id : Byte} {z : Size} (h : z.toNat < 4) (handler : Act Unit) (s : State) :
    runChunk id z handler s =
      .next (({ s with cid := id } : State).raiseFault .badChunkSize z.toNat) := by
  rw [runChunk, finish, act_bind_error (latchHeader_small h s), settle]

end Sys2Proof.Machine
end

