-- ==== Sys2Proof/Laws/Decode.lean ====
section
/-! SUPPORT. The decoder and the encoder. -/

namespace Sys2Proof

/-- What the opcode table finds has the id and the size it was given. -/
theorem instrOfHeader_some {id : Byte} {z : Size} {i : Instr} (h : instrOfHeader id z = some i) :
    chunkId i = id ∧ i.size = z := by
  simp only [instrOfHeader, opcodeTable, Option.map_eq_some_iff] at h
  obtain ⟨row, hr, rfl⟩ := h
  have hm := List.mem_of_find?_eq_some hr
  have hid : row.1 = id := by simpa using List.find?_some hr
  subst hid
  simp only [List.mem_cons, List.not_mem_nil, or_false] at hm
  rcases hm with rfl | rfl | rfl | rfl | rfl | rfl | rfl | rfl | rfl | rfl | rfl <;> exact ⟨rfl, rfl⟩

/-- The opcode table finds every instruction under its own id. -/
theorem instrOfHeader_chunkId (i : Instr) : instrOfHeader (chunkId i) i.size = some i := by
  cases i <;> rfl

end Sys2Proof
end

