-- ==== Sys2Proof/Laws/Flags.lean ====
section
/-! SUPPORT. Taking a flag: one lemma for each way it can go, and what it keeps. -/

namespace Sys2Proof.Machine

@[simp] theorem shiftMask_apply (f : FlagStream) (s : State) :
    shiftMask f s = .ok () (s.setFlag f (s.flagWord f) (s.flagMask f >>> 1)) := rfl

@[simp] theorem clearFlag_apply (f : FlagStream) (s : State) :
    clearFlag f s = .ok () (s.setFlag f 0#32 0#32) := rfl

/-- Taking a flag: shift, refill if due, look. -/
theorem takeFlag_eq (f : FlagStream) (s : State) :
    takeFlag f s =
      match refillIfDue f (s.setFlag f (s.flagWord f) (s.flagMask f >>> 1)) with
      | .ok _ t => .ok (t.flagBit f) t
      | .error e t => .error e t := by
  rw [takeFlag, act_bind_ok (shiftMask_apply f s), act_bind]
  split <;> simp_all [act_bind]

/-- While the shifted mask still has its bit, the flag under it is taken and nothing is read. -/
theorem takeFlag_next {f : FlagStream} {s : State} (h : s.flagMask f >>> 1 ≠ 0#32) :
    takeFlag f s = .ok (s.flagWord f &&& s.flagMask f >>> 1 != 0#32)
      (s.setFlag f (s.flagWord f) (s.flagMask f >>> 1)) := by
  rw [takeFlag_eq, refillIfDue, if_neg (by simpa using h)]
  simp [State.flagBit]

/-- When the mask is exhausted and the payload holds no word, the handler stops (41_codebook_loader.md R147;
42_vector_unpacker.md R173). -/
theorem takeFlag_stop {f : FlagStream} {s : State} (h : s.flagMask f >>> 1 = 0#32) (hr : s.rem < 4) :
    takeFlag f s = .error .stop (s.setFlag f (s.flagWord f) 0#32) := by
  have hr' : (s.setFlag f (s.flagWord f) 0#32).rem < 4 := by simpa [State.rem] using hr
  rw [takeFlag_eq, refillIfDue, if_pos (by simpa using h), refillFlag, h,
    act_bind_error (needPayload_stop hr')]

/-- The word a refill reads at `POS`. -/
def wordAtPos (s : State) : FlagWord :=
  BitVec.ofNat 32 ((((streamByte s s.pos).toNat * 256 + (streamByte s (s.pos + 1)).toNat) * 256 +
    (streamByte s (s.pos + 2)).toNat) * 256 + (streamByte s (s.pos + 3)).toNat)

theorem streamByte_setFlag (s : State) (f : FlagStream) (w m : FlagWord) (a : Nat) :
    streamByte (s.setFlag f w m) a = streamByte s a := by simp [streamByte]

/-- When the mask is exhausted and the payload and the stream hold a word, it is fetched and its bit 31 is
the flag. -/
theorem takeFlag_refill {f : FlagStream} {s : State} (h : s.flagMask f >>> 1 = 0#32) (hr : 4 ≤ s.rem)
    (hs : s.pos + 4 ≤ s.streamLen) :
    takeFlag f s = .ok (wordAtPos s &&& 0x80000000#32 != 0#32)
      (({ s with pos := s.pos + 4 } : State).setFlag f (wordAtPos s) 0x80000000#32) := by
  have hr' : 4 ≤ (s.setFlag f (s.flagWord f) 0#32).rem := by simpa [State.rem] using hr
  have hs' : (s.setFlag f (s.flagWord f) 0#32).pos + 4 ≤ (s.setFlag f (s.flagWord f) 0#32).streamLen := by
    simpa using hs
  have hset : ∀ w v : FlagWord,
      (({ (s.setFlag f v 0#32) with pos := s.pos + 4 } : State).setFlag f w 0x80000000#32) =
        ({ s with pos := s.pos + 4 } : State).setFlag f w 0x80000000#32 := by
    intro w v
    cases f <;> rfl
  rw [takeFlag_eq, refillIfDue, if_pos (by simpa using h), refillFlag, h,
    act_bind_ok (needPayload_ok hr'), act_bind_ok (readU32_ok hs'), act_modify]
  simp only [streamByte_setFlag, State.setFlag_pos, hset]
  simp [State.flagBit, wordAtPos]

/-- When the payload claims a word that the stream does not hold, the frame fails. -/
theorem takeFlag_under {f : FlagStream} {s : State} (h : s.flagMask f >>> 1 = 0#32) (hr : 4 ≤ s.rem)
    (hs : s.streamLen < s.pos + 4) :
    takeFlag f s = .error (.raise .streamUnderrun s.pos) (s.setFlag f (s.flagWord f) 0#32) := by
  have hr' : 4 ≤ (s.setFlag f (s.flagWord f) 0#32).rem := by simpa [State.rem] using hr
  have hs' : (s.setFlag f (s.flagWord f) 0#32).streamLen < (s.setFlag f (s.flagWord f) 0#32).pos + 4 := by
    simpa using hs
  rw [takeFlag_eq, refillIfDue, if_pos (by simpa using h), refillFlag, h,
    act_bind_ok (needPayload_ok hr'), act_bind_error (readU32_under hs')]
  simp

/-! ### What flags keep -/

/-- A relation that reading the stream keeps. -/
structure ReadKept (R : State → State → Prop) : Prop extends Chain R where
  forward : ∀ (s : State) n, s.pos + n ≤ s.streamLen → R s { s with pos := s.pos + n }

theorem Keeps.takeFlag {R : State → State → Prop} (hR : ReadKept R) (f : FlagStream)
    (hf : ∀ s w m, R s (s.setFlag f w m)) : Keeps R (takeFlag f) := by
  refine .bind hR.toChain (.modify fun s => hf s _ _) fun _ => ?_
  refine .bind hR.toChain ?_ fun _ => .bind hR.toChain (.get hR.toChain) fun _ => .pure hR.toChain _
  intro s
  rw [refillIfDue]
  split
  · exact Keeps.bind hR.toChain (.needPayload hR.toChain 4)
      (fun _ => .bind hR.toChain (.readU32 hR.toChain hR.forward) fun w =>
        .modify fun t => hf t w 0x80000000#32) s
  · exact ⟨hR.refl s, trivial⟩

theorem Keeps.clearFlag {R : State → State → Prop} (f : FlagStream)
    (hf : ∀ s w m, R s (s.setFlag f w m)) : Keeps R (clearFlag f) :=
  .modify fun s => hf s _ _

end Sys2Proof.Machine
end

