-- ==== Sys2Proof/Laws/Sparse.lean ====
section
/-! SUPPORT. Sparse lists, byte memories, the Codebook Store and the strip-record file: what a read gives
after a write, and that every operation keeps the canonical form. -/

namespace Sys2Proof.Machine

variable {α : Type}

/-! ### Sparse lists -/

theorem sparseGet_append (l r : List (Nat × α)) (k : Nat) :
    sparseGet (l ++ r) k = (sparseGet l k).or (sparseGet r k) := by
  induction l with
  | nil => rfl
  | cons p l ih =>
    obtain ⟨j, v⟩ := p
    simp only [sparseGet, List.cons_append, List.lookup_cons] at *
    split <;> simp_all

theorem sparseGet_filter (l : List (Nat × α)) (q : Nat → Bool) (k : Nat) :
    sparseGet (l.filter fun p => q p.1) k = if q k then sparseGet l k else none := by
  induction l with
  | nil => simp [sparseGet]
  | cons p l ih =>
    obtain ⟨j, v⟩ := p
    simp only [sparseGet] at ih
    simp only [sparseGet, List.filter_cons]
    by_cases hj : k = j
    · subst hj
      cases hq : q k <;> simp [hq, ih]
    · have hb : (k == j) = false := by simpa using hj
      cases hq : q j <;> simp [List.lookup_cons, hb, ih]

/-- A key no entry has reads as nothing. -/
theorem sparseGet_eq_none (l : List (Nat × α)) (k : Nat) (h : ∀ p ∈ l, p.1 ≠ k) :
    sparseGet l k = none := by
  refine List.lookup_eq_none_iff.2 fun p hp => ?_
  have := h p hp
  rw [bne_iff_ne]
  exact fun he => this he.symm

/-- What a splice can do: the pairs put in at its keys, the old list everywhere else. -/
theorem sparseGet_splice (l mid : List (Nat × α)) (a n k : Nat)
    (hmid : ∀ p ∈ mid, a ≤ p.1 ∧ p.1 < a + n) :
    sparseGet (sparseSplice l a n mid) k =
      if a ≤ k ∧ k < a + n then sparseGet mid k else sparseGet l k := by
  have h1 := sparseGet_filter l (fun j => decide (j < a)) k
  have h2 := sparseGet_filter l (fun j => decide (a + n ≤ j)) k
  simp only [sparseSplice, sparseGet_append, h1, h2]
  by_cases hk : a ≤ k ∧ k < a + n
  · have : ¬ k < a := by omega
    have : ¬ a + n ≤ k := by omega
    simp [*]
  · have hn : sparseGet mid k = none := by
      refine sparseGet_eq_none mid k fun p hp he => hk ?_
      have := hmid p hp
      omega
    by_cases hlt : k < a
    · have : ¬ a + n ≤ k := by omega
      simp [*]
    · have : a + n ≤ k := by omega
      simp [*]

theorem rising_splice (l mid : List (Nat × α)) (a n : Nat) (hl : Rising l) (hm : Rising mid)
    (hmid : ∀ p ∈ mid, a ≤ p.1 ∧ p.1 < a + n) : Rising (sparseSplice l a n mid) := by
  simp only [sparseSplice, Rising, List.pairwise_append]
  refine ⟨⟨hl.filter _, hm, ?_⟩, hl.filter _, ?_⟩
  · intro p hp q hq
    have := hmid q hq
    simp only [List.mem_filter, decide_eq_true_eq] at hp
    omega
  · intro p hp q hq
    simp only [List.mem_filter, decide_eq_true_eq, List.mem_append] at hp hq
    rcases hp with hp | hp
    · omega
    · have := hmid p hp
      omega

/-- Where the entries of a splice come from. -/
theorem mem_splice {l mid : List (Nat × α)} {a n : Nat} {p : Nat × α} (h : p ∈ sparseSplice l a n mid) :
    p ∈ l ∨ p ∈ mid := by
  simp only [sparseSplice, List.mem_append, List.mem_filter] at h
  tauto

section
variable [DecidableEq α]

/-- What setting one key can do: it reads as the value, every other key as before. -/
theorem sparseGet_set (l : List (Nat × α)) (k j : Nat) (d v : α) :
    (sparseGet (sparseSet l k d v) j).getD d = if j = k then v else (sparseGet l j).getD d := by
  have hmid : ∀ p ∈ (if v = d then [] else [(k, v)]), k ≤ p.1 ∧ p.1 < k + 1 := by
    intro p hp
    split at hp
    · simp at hp
    · simp only [List.mem_singleton] at hp
      subst hp
      simp
  rw [sparseSet, sparseGet_splice _ _ _ _ _ hmid]
  by_cases hj : j = k
  · subst hj
    by_cases hv : v = d
    · simp [hv, sparseGet]
    · simp [hv, sparseGet]
  · have : ¬ (k ≤ j ∧ j < k + 1) := by omega
    rw [if_neg this, if_neg hj]

theorem rising_set (l : List (Nat × α)) (k : Nat) (d v : α) (h : Rising l) :
    Rising (sparseSet l k d v) := by
  refine rising_splice l _ k 1 h ?_ ?_
  · split <;> simp [Rising]
  · intro p hp
    split at hp
    · simp at hp
    · simp only [List.mem_singleton] at hp
      subst hp
      simp

theorem mem_set {l : List (Nat × α)} {k : Nat} {d v : α} {p : Nat × α} (h : p ∈ sparseSet l k d v) :
    p ∈ l ∨ (p = (k, v) ∧ v ≠ d) := by
  rcases mem_splice h with h | h
  · exact .inl h
  · split at h
    · simp at h
    · simp only [List.mem_singleton] at h
      exact .inr ⟨h, ‹_›⟩

/-- Setting a key keeps the canonical form: rising keys, no entry equal to the default. -/
theorem canonical_set (l : List (Nat × α)) (k : Nat) (d v : α)
    (h : Rising l ∧ ∀ p ∈ l, p.2 ≠ d) :
    Rising (sparseSet l k d v) ∧ ∀ p ∈ sparseSet l k d v, p.2 ≠ d := by
  refine ⟨rising_set l k d v h.1, fun p hp => ?_⟩
  rcases mem_set hp with hp | ⟨rfl, hv⟩
  · exact h.2 p hp
  · exact hv

end

/-! ### Byte memories -/

theorem cellsAt_key {a : Nat} {bs : List Byte} {p : Host.Cell} (h : p ∈ cellsAt a bs) :
    a ≤ p.1 ∧ p.1 < a + bs.length := by
  induction bs generalizing a with
  | nil => simp [cellsAt] at h
  | cons b bs ih =>
    simp only [cellsAt, List.mem_cons] at h
    rcases h with rfl | h
    · simp
    · have := ih h
      simp only [List.length_cons]
      omega

theorem cellsAt_rising (a : Nat) (bs : List Byte) : Rising (cellsAt a bs) := by
  induction bs generalizing a with
  | nil => simp [cellsAt, Rising]
  | cons b bs ih =>
    refine List.pairwise_cons.2 ⟨fun p hp => ?_, ih (a + 1)⟩
    have := cellsAt_key hp
    simp only
    omega

theorem cellsAt_get (a : Nat) (bs : List Byte) (k : Nat) (h : a ≤ k) :
    sparseGet (cellsAt a bs) k = bs[k - a]? := by
  induction bs generalizing a with
  | nil => simp [cellsAt, sparseGet]
  | cons b bs ih =>
    simp only [cellsAt, sparseGet, List.lookup_cons]
    by_cases hk : k = a
    · subst hk
      simp
    · have hb : (k == a) = false := by simpa using hk
      have : k - a = (k - (a + 1)) + 1 := by omega
      rw [hb, this, List.getElem?_cons_succ]
      exact ih (a + 1) (by omega)

/-- The canonical form is kept by a write. -/
theorem memory_write_wf (m : Memory) (a : Nat) (bs : List Byte) (h : m.wf) : (m.write a bs).wf :=
  rising_splice m _ a bs.length h (cellsAt_rising a bs) fun _ hp => cellsAt_key hp

theorem memory_empty_wf : Memory.wf [] := List.Pairwise.nil

/-- An address inside a write, at its offset. -/
theorem memory_read_write_inside (m : Memory) (a : Nat) (bs : List Byte) (k : Nat) (h : k < bs.length) :
    (m.write a bs).read (a + k) = bs[k]? := by
  rw [Memory.read, Memory.write, sparseGet_splice _ _ _ _ _ fun p hp => cellsAt_key hp,
    if_pos (by omega), cellsAt_get _ _ _ (by omega), Nat.add_sub_cancel_left]

/-- An address outside a write. -/
theorem memory_read_write_outside (m : Memory) (a : Nat) (bs : List Byte) (k : Nat)
    (h : k < a ∨ a + bs.length ≤ k) : (m.write a bs).read k = m.read k := by
  rw [Memory.read, Memory.write, sparseGet_splice _ _ _ _ _ fun p hp => cellsAt_key hp,
    if_neg (by omega), Memory.read]

/-- The addresses a write can add. -/
theorem memory_write_mem {m : Memory} {a : Nat} {bs : List Byte} {p : Host.Cell} (h : p ∈ m.write a bs) :
    p ∈ m ∨ (a ≤ p.1 ∧ p.1 < a + bs.length) :=
  (mem_splice h).imp id cellsAt_key

/-! ### The Codebook Store -/

/-- The places of the store have keys of their own (10_state.md R36). -/
theorem cbKey_inj {j k : Nat} {t u : Table} {a b : Byte} (h : cbKey j t a = cbKey k u b) :
    j = k ∧ t = u ∧ a = b := by
  have ha := a.isLt
  have hb := b.isLt
  have : j = k ∧ t = u ∧ a.toNat = b.toNat := by
    cases t <;> cases u <;> simp [cbKey] at h ⊢ <;> omega
  exact ⟨this.1, this.2.1, BitVec.eq_of_toNat_eq this.2.2⟩

/-- The key of a place lies in its slot's range. -/
theorem cbKey_range (j : Nat) (t : Table) (a : Byte) :
    j * 512 ≤ cbKey j t a ∧ cbKey j t a < (j + 1) * 512 := by
  have := a.isLt
  cases t <;> simp [cbKey] <;> omega

/-- What writing an entry can do: that place reads as the entry, every other as before. -/
theorem cbGet_set (cb : List (Nat × Entry)) (j k : Nat) (t u : Table) (a b : Byte) (e : Entry) :
    cbGet (cbSet cb j t a e) k u b = if k = j ∧ u = t ∧ b = a then e else cbGet cb k u b := by
  rw [cbGet, cbSet, sparseGet_set]
  by_cases h : cbKey k u b = cbKey j t a
  · rw [if_pos h, if_pos (cbKey_inj h)]
  · have hne : ¬ (k = j ∧ u = t ∧ b = a) := by
      rintro ⟨rfl, rfl, rfl⟩
      exact h rfl
    rw [if_neg h, if_neg hne, cbGet]

theorem cbGet_set_same (cb : List (Nat × Entry)) (j : Nat) (t : Table) (a : Byte) (e : Entry) :
    cbGet (cbSet cb j t a e) j t a = e := by
  rw [cbGet_set, if_pos ⟨rfl, rfl, rfl⟩]

theorem cbSet_canonical (cb : List (Nat × Entry)) (j : Nat) (t : Table) (a : Byte) (e : Entry)
    (h : Rising cb ∧ ∀ p ∈ cb, p.2 ≠ Entry.zero) :
    Rising (cbSet cb j t a e) ∧ ∀ p ∈ cbSet cb j t a e, p.2 ≠ Entry.zero :=
  canonical_set cb _ _ _ h

/-- Writing an entry adds no key outside its slot. -/
theorem cbSet_mem {cb : List (Nat × Entry)} {j : Nat} {t : Table} {a : Byte} {e : Entry} {p : Nat × Entry}
    (h : p ∈ cbSet cb j t a e) : p ∈ cb ∨ p.1 < (j + 1) * 512 := by
  rcases mem_set h with h | ⟨rfl, -⟩
  · exact .inl h
  · exact .inr (cbKey_range j t a).2

theorem slotPlaces_mem (t : Table) (i : Byte) : (t, i) ∈ slotPlaces := by
  have hi : i.toNat ∈ List.range 256 := List.mem_range.2 i.isLt
  have he : BitVec.ofNat 8 i.toNat = i := by simp
  cases t
  · exact List.mem_append_left _ (List.mem_map.2 ⟨i.toNat, hi, by rw [he]⟩)
  · exact List.mem_append_right _ (List.mem_map.2 ⟨i.toNat, hi, by rw [he]⟩)

/-- What copying a list of places can do: every place in the list reads as the source's, every other as
before. -/
theorem cbGet_copyPlaces (src dst : Nat) (old : List (Nat × Entry)) (ps : List (Table × Byte))
    (acc : List (Nat × Entry)) (k : Nat) (u : Table) (b : Byte) :
    cbGet (ps.foldl (fun acc p => cbSet acc dst p.1 p.2 (cbGet old src p.1 p.2)) acc) k u b =
      if k = dst ∧ (u, b) ∈ ps then cbGet old src u b else cbGet acc k u b := by
  induction ps generalizing acc with
  | nil => simp
  | cons p ps ih =>
    rw [List.foldl_cons, ih, cbGet_set]
    by_cases hk : k = dst
    · by_cases hin : (u, b) ∈ ps
      · simp [hk, hin]
      · by_cases hp : u = p.1 ∧ b = p.2
        · obtain ⟨rfl, rfl⟩ := hp
          simp [hk, hin]
        · have : (u, b) ≠ p := fun h => hp (by rw [← h]; exact ⟨rfl, rfl⟩)
          simp [hk, hin, hp, this]
    · simp [hk]

theorem foldl_keeps {β γ : Type} {P : γ → Prop} (f : γ → β → γ) (hf : ∀ c b, P c → P (f c b))
    (l : List β) (c : γ) (h : P c) : P (l.foldl f c) := by
  induction l generalizing c with
  | nil => exact h
  | cons b l ih => exact ih _ (hf c b h)

theorem cbCopy_canonical (cb : List (Nat × Entry)) (src dst : Nat)
    (h : Rising cb ∧ ∀ p ∈ cb, p.2 ≠ Entry.zero) :
    Rising (cbCopy cb src dst) ∧ ∀ p ∈ cbCopy cb src dst, p.2 ≠ Entry.zero :=
  foldl_keeps (P := fun c => Rising c ∧ ∀ p ∈ c, p.2 ≠ Entry.zero) _
    (fun c _ hc => cbSet_canonical c _ _ _ _ hc) _ _ h

/-- Copying tables adds no key outside the destination slot. -/
theorem cbCopy_mem {cb : List (Nat × Entry)} {src dst : Nat} (n : Nat) (hd : (dst + 1) * 512 ≤ n)
    (h : ∀ p ∈ cb, p.1 < n) : ∀ p ∈ cbCopy cb src dst, p.1 < n :=
  foldl_keeps (P := fun c : List (Nat × Entry) => ∀ p ∈ c, p.1 < n) _
    (fun _ _ hc p hp => (cbSet_mem hp).elim (hc p) (fun hlt => by omega)) _ _ h

/-! ### The strip-record file -/

/-- What writing a record can do. -/
theorem State.stripRec_setStripRec (s : State) (j k : Nat) (r : StripRec) :
    (s.setStripRec j r).stripRec k = if k = j then r else s.stripRec k := by
  simp only [State.stripRec, State.setStripRec]
  exact sparseGet_set s.strips j k StripRec.zero r

@[simp] theorem State.curStrip_updCurStrip (s : State) (g : StripRec → StripRec) :
    (s.updCurStrip g).curStrip = g s.curStrip := by
  have h := State.stripRec_setStripRec s s.si.toNat s.si.toNat (g s.curStrip)
  rw [if_pos rfl] at h
  exact h

theorem State.stripRec_updCurStrip (s : State) (g : StripRec → StripRec) (k : Nat) :
    (s.updCurStrip g).stripRec k = if k = s.si.toNat then g s.curStrip else s.stripRec k :=
  State.stripRec_setStripRec s s.si.toNat k (g s.curStrip)

end Sys2Proof.Machine
end

