-- ==== Sys2Proof/Laws/Loader.lean ====
section
/-! SUPPORT. The codebook loader: what one field, one attempt and the whole loader can change. -/

namespace Sys2Proof.Machine

/-- A relation that every update a loader makes keeps, for its target table. -/
structure LoaderKept (R : State → State → Prop) (t : Table) : Prop extends ReadKept R where
  flag : ∀ (s : State) w m, R s (s.setFlag .loader w m)
  index : ∀ (s : State) i, R s { s with li := i }
  entry : ∀ (s : State) (i : Byte) g, R s (s.updEntry t i g)

theorem Keeps.loadField {R : State → State → Prop} {t : Table} (hR : LoaderKept R t) (i : Byte)
    (put : Byte → Entry → Entry) : Keeps R (loadField t i put) :=
  .bind hR.toChain (.readU8 hR.toChain hR.forward) fun b => .modify fun s => hR.entry s i (put b)

theorem Keeps.loadLuma {R : State → State → Prop} {t : Table} (hR : LoaderKept R t) (i : Byte) :
    Keeps R (loadLuma t i) :=
  .bind hR.toChain (.loadField hR i _) fun _ => .bind hR.toChain (.loadField hR i _) fun _ =>
    .bind hR.toChain (.loadField hR i _) fun _ => .loadField hR i _

theorem Keeps.loadEntry {R : State → State → Prop} {t : Table} (hR : LoaderKept R t) (form : EntryForm)
    (i : Byte) : Keeps R (loadEntry t form i) := by
  cases form
  · exact .bind hR.toChain (.loadLuma hR i) fun _ => .bind hR.toChain (.loadField hR i _) fun _ =>
      .loadField hR i _
  · exact .bind hR.toChain (.loadLuma hR i) fun _ => .modify fun s => hR.entry s i _

theorem Keeps.updateDue {R : State → State → Prop} {t : Table} (hR : LoaderKept R t) (cond : Bool) :
    Keeps R (updateDue cond) := by
  cases cond
  · exact .pure hR.toChain true
  · exact .takeFlag hR.toReadKept .loader hR.flag

theorem Keeps.loadAttempt {R : State → State → Prop} {t : Table} (hR : LoaderKept R t) (cond : Bool)
    (form : EntryForm) : Keeps R (loadAttempt t cond form) := by
  refine .bind hR.toChain (.updateDue hR cond) fun due => .bind hR.toChain ?_ fun _ =>
    .modify fun s => hR.index s _
  intro s
  cases due
  · exact ⟨hR.refl s, trivial⟩
  · exact Keeps.bind hR.toChain (.needPayload hR.toChain _) (fun _ => .loadEntry hR form _) s

theorem Keeps.loadAttempts {R : State → State → Prop} {t : Table} (hR : LoaderKept R t) (cond : Bool)
    (form : EntryForm) (n : Nat) : Keeps R (loadAttempts t cond form n) := by
  induction n with
  | zero => exact .pure hR.toChain ()
  | succ n ih => exact .bind hR.toChain (.loadAttempt hR cond form) fun _ => ih

/-- All a loader can do: whatever relation its few kinds of update keep, the whole loader keeps. -/
theorem Keeps.loadCodebook {R : State → State → Prop} {t : Table} (hR : LoaderKept R t) (cond : Bool)
    (form : EntryForm) : Keeps R (loadCodebook t cond form) :=
  .bind hR.toChain (.clearFlag .loader hR.flag) fun _ => .bind hR.toChain
    (.modify fun s => hR.index s _) fun _ => .loadAttempts hR cond form 256

/-! ### Reading one entry -/

/-- Reading one field: the byte at `POS` goes to the field (41_codebook_loader.md R145). -/
theorem loadField_ok {t : Table} {i : Byte} {put : Byte → Entry → Entry} {s : State}
    (h : s.pos + 1 ≤ s.streamLen) :
    loadField t i put s =
      .ok () (({ s with pos := s.pos + 1 } : State).updEntry t i (put (streamByte s s.pos))) := by
  rw [loadField, act_bind_ok (readU8_ok h), act_modify]

theorem loadField_under {t : Table} {i : Byte} {put : Byte → Entry → Entry} {s : State}
    (h : s.streamLen < s.pos + 1) :
    loadField t i put s = .error (.raise .streamUnderrun s.pos) s := by
  rw [loadField, act_bind_error (readU8_under h)]

/-- Two updates of one entry are one. -/
theorem cbSet_twice (cb : List (Nat × Entry)) (j k : Nat) (t u : Table) (a b : Byte) (d e : Entry) :
    cbGet (cbSet (cbSet cb j t a d) j t a e) k u b = cbGet (cbSet cb j t a e) k u b := by
  simp only [cbGet_set]
  split <;> rfl

/-- The entry an update leaves. -/
theorem State.entry_updEntry (s : State) (t u : Table) (i b : Byte) (g : Entry → Entry) (k : Nat) :
    (s.updEntry t i g).entry k u b =
      if k = s.si.toNat ∧ u = t ∧ b = i then g (s.entry s.si.toNat t i) else s.entry k u b :=
  cbGet_set s.cb s.si.toNat k t u i b _

@[simp] theorem State.entry_pos (s : State) (p k : Nat) (u : Table) (b : Byte) :
    ({ s with pos := p } : State).entry k u b = s.entry k u b := rfl

@[simp] theorem streamByte_updEntry (s : State) (t : Table) (i : Byte) (g : Entry → Entry) (a : Nat) :
    streamByte (s.updEntry t i g) a = streamByte s a := rfl

end Sys2Proof.Machine
end

