-- ==== Sys2Proof/Laws/Vector.lean ====
section
/-! SUPPORT. The colour conversion, painting, and what the vector unpacker can change. -/

namespace Sys2Proof.Machine

/-! ### The clamp -/

theorem clip_range (a : Int) : 0 ≤ clip a ∧ clip a ≤ 255 := by
  unfold clip
  split <;> [omega; split] <;> omega

/-- The clamp as a nest of minimum and maximum (43_yuv_to_rgb.md R189). -/
theorem clip_eq_max_min (a : Int) : clip a = max 0 (min 255 a) := by
  unfold clip
  split <;> [omega; split] <;> omega

theorem clipByte_toNat (a : Int) : ((clipByte a).toNat : Int) = clip a := by
  have h := clip_range a
  rw [clipByte, BitVec.toNat_ofNat]
  omega

/-! ### Pixel writes -/

/-- The bytes of a pixel in the frame lie inside the frame's bytes (20_memory.md R55). -/
theorem pixelAddr_bound {width height x y : Nat} (hx : x < width) (hy : y < height) :
    pixelAddr width x y + 3 ≤ width * height * 3 := by
  have h1 : y * width + width ≤ height * width := by
    rw [← Nat.succ_mul]
    exact Nat.mul_le_mul_right _ hy
  have h2 : height * width = width * height := Nat.mul_comm _ _
  unfold pixelAddr
  omega

/-- Two pixels of a frame share no byte (20_memory.md R55). -/
theorem pixelAddr_apart {width x y x' y' : Nat} (hx : x < width) (hx' : x' < width)
    (h : ¬ (x = x' ∧ y = y')) :
    pixelAddr width x y + 3 ≤ pixelAddr width x' y' ∨ pixelAddr width x' y' + 3 ≤ pixelAddr width x y := by
  unfold pixelAddr
  have key : y * width + x ≠ y' * width + x' := by
    intro he
    have hy : y = y' := by
      have h1 := congrArg (· / width) he
      have hw : 0 < width := by omega
      simpa [Nat.mul_comm _ width, Nat.mul_add_div hw, Nat.div_eq_of_lt hx, Nat.div_eq_of_lt hx'] using h1
    subst hy
    exact h ⟨by omega, rfl⟩
  omega

theorem rgb_bytes_length (c : Rgb) : c.bytes.length = 3 := rfl

/-- A pixel write outside the frame writes nothing (43_yuv_to_rgb.md R191). -/
theorem pixelWrite_outside {width height : Nat} {m : Memory} {x y : Nat} {l u v : Byte}
    (h : ¬ (x < width ∧ y < height)) : pixelWrite width height m x y l u v = m := by
  rw [pixelWrite, if_neg h]

/-- A pixel write inside the frame puts the three bytes at the pixel's address (43_yuv_to_rgb.md R190). -/
theorem pixelWrite_read {width height : Nat} {m : Memory} {x y : Nat} {l u v : Byte} (c : Nat)
    (hx : x < width) (hy : y < height) (hc : c < 3) :
    (pixelWrite width height m x y l u v).read (pixelAddr width x y + c) = (convert l u v).bytes[c]? := by
  rw [pixelWrite, if_pos ⟨hx, hy⟩]
  exact memory_read_write_inside m _ _ c hc

/-- A pixel write leaves every byte outside that pixel alone. -/
theorem pixelWrite_other {width height : Nat} {m : Memory} {x y a : Nat} {l u v : Byte}
    (h : a < pixelAddr width x y ∨ pixelAddr width x y + 3 ≤ a) :
    (pixelWrite width height m x y l u v).read a = m.read a := by
  rw [pixelWrite]
  split
  · exact memory_read_write_outside m _ _ a h
  · rfl

/-- A pixel write leaves everything beyond the frame's bytes alone. -/
theorem pixelWrite_beyond {width height : Nat} {m : Memory} {x y a : Nat} {l u v : Byte}
    (h : width * height * 3 ≤ a) : (pixelWrite width height m x y l u v).read a = m.read a := by
  by_cases hxy : x < width ∧ y < height
  · have := pixelAddr_bound hxy.1 hxy.2
    exact pixelWrite_other (.inr (by omega))
  · rw [pixelWrite_outside hxy]

theorem pixelWrite_wf {width height : Nat} {m : Memory} (x y : Nat) (l u v : Byte) (h : m.wf) :
    (pixelWrite width height m x y l u v).wf := by
  rw [pixelWrite]
  split
  · exact memory_write_wf m _ _ h
  · exact h

theorem pixelWrite_mem {width height : Nat} {m : Memory} {x y : Nat} {l u v : Byte} {p : Host.Cell}
    (h : p ∈ pixelWrite width height m x y l u v) : p ∈ m ∨ p.1 < width * height * 3 := by
  rw [pixelWrite] at h
  split at h
  · rename_i hxy
    have hb := pixelAddr_bound hxy.1 hxy.2
    rcases memory_write_mem h with h | ⟨-, h⟩
    · exact .inl h
    · exact .inr (by rw [rgb_bytes_length] at h; omega)
  · exact .inl h

/-! ### Painting -/

theorem paintPixels_wf (width height x y : Nat) (ps : List BlockPixel) (m : Memory) (h : m.wf) :
    (paintPixels width height x y ps m).wf :=
  foldl_keeps (P := Memory.wf) _ (fun _ _ hc => pixelWrite_wf _ _ _ _ _ hc) ps m h

theorem paintPixels_mem {width height x y : Nat} {ps : List BlockPixel} {m : Memory} (n : Nat)
    (hn : width * height * 3 ≤ n) (h : ∀ p ∈ m, p.1 < n) :
    ∀ p ∈ paintPixels width height x y ps m, p.1 < n :=
  foldl_keeps (P := fun c : Memory => ∀ p ∈ c, p.1 < n) _
    (fun _ _ hc p hp => (pixelWrite_mem hp).elim (hc p) (fun hlt => by omega)) ps m h

theorem paintPixels_beyond (width height x y : Nat) (ps : List BlockPixel) (m : Memory) (a : Nat)
    (h : width * height * 3 ≤ a) : (paintPixels width height x y ps m).read a = m.read a :=
  foldl_keeps (P := fun c : Memory => c.read a = m.read a) _
    (fun _ _ hc => (pixelWrite_beyond h).trans hc) ps m rfl

/-- Painting a block leaves every pixel of the frame outside the painted places alone. -/
theorem paintPixels_other {width height x y px py c : Nat} {ps : List BlockPixel} {m : Memory}
    (hpx : px < width) (hc : c < 3) (h : ∀ p ∈ ps, ¬ (x + p.dx = px ∧ y + p.dy = py)) :
    (paintPixels width height x y ps m).read (pixelAddr width px py + c) =
      m.read (pixelAddr width px py + c) := by
  induction ps generalizing m with
  | nil => rfl
  | cons p ps ih =>
    rw [paintPixels, List.foldl_cons]
    refine (ih fun q hq => h q (List.mem_cons_of_mem p hq)).trans ?_
    by_cases hx : x + p.dx < width
    · refine pixelWrite_other ?_
      rcases pixelAddr_apart hx hpx (h p List.mem_cons_self) with h1 | h1 <;> omega
    · rw [pixelWrite_outside fun hh => hx hh.1]

/-- Painting a block gives each painted pixel of the frame its own colour, when no place is painted
twice. -/
theorem paintPixels_at {width height x y c : Nat} {ps : List BlockPixel} {m : Memory} {p : BlockPixel}
    (hp : p ∈ ps) (hd : ps.Pairwise fun q r => ¬ (q.dx = r.dx ∧ q.dy = r.dy))
    (hx : x + p.dx < width) (hy : y + p.dy < height) (hc : c < 3) :
    (paintPixels width height x y ps m).read (pixelAddr width (x + p.dx) (y + p.dy) + c) =
      (convert p.lum p.u p.v).bytes[c]? := by
  induction ps generalizing m with
  | nil => simp at hp
  | cons q ps ih =>
    rw [List.pairwise_cons] at hd
    rw [paintPixels, List.foldl_cons]
    rcases List.mem_cons.1 hp with rfl | hp'
    · refine (paintPixels_other hx hc fun r hr he => hd.1 r hr ?_).trans (pixelWrite_read c hx hy hc)
      omega
    · exact ih hp' hd.2

/-! ### What the unpacker keeps -/

/-- A relation that every update a vector chunk makes keeps. -/
structure VectorKept (R : State → State → Prop) : Prop extends ReadKept R where
  skip : ∀ (s : State) w m, R s (s.setFlag .skip w m)
  sel : ∀ (s : State) w m, R s (s.setFlag .sel w m)
  column : ∀ (s : State) x, R s { s with bX := x }
  row : ∀ (s : State) y, R s { s with bY := y }
  paint : ∀ (s : State) ps, R s (s.paint ps)

theorem Keeps.readV1 {R : State → State → Prop} (hR : ReadKept R) : Keeps R readV1 :=
  .bind hR.toChain (.needPayload hR.toChain 1) fun _ => .bind hR.toChain
    (.readU8 hR.toChain hR.forward) fun _ => .bind hR.toChain (.get hR.toChain) fun _ =>
      .pure hR.toChain _

theorem Keeps.readV4 {R : State → State → Prop} (hR : ReadKept R) : Keeps R readV4 :=
  .bind hR.toChain (.needPayload hR.toChain 4) fun _ => .bind hR.toChain
    (.readU8 hR.toChain hR.forward) fun _ => .bind hR.toChain
    (.readU8 hR.toChain hR.forward) fun _ => .bind hR.toChain
    (.readU8 hR.toChain hR.forward) fun _ => .bind hR.toChain
    (.readU8 hR.toChain hR.forward) fun _ => .bind hR.toChain (.get hR.toChain) fun _ =>
      .pure hR.toChain _

theorem Keeps.flagIfActive {R : State → State → Prop} (hR : ReadKept R) (f : FlagStream) (active : Bool)
    (hf : ∀ s w m, R s (s.setFlag f w m)) : Keeps R (flagIfActive f active) := by
  cases active
  · exact .pure hR.toChain false
  · exact .takeFlag hR f hf

theorem Keeps.codedBlock {R : State → State → Prop} (hR : VectorKept R) (selEn : Bool) :
    Keeps R (codedBlock selEn) := by
  refine .bind hR.toChain (.flagIfActive hR.toReadKept .sel selEn hR.sel) fun isV4 => ?_
  cases isV4
  · exact .bind hR.toChain (.readV1 hR.toReadKept) fun e => .modify fun s => hR.paint s _
  · exact .bind hR.toChain (.readV4 hR.toReadKept) fun e => .modify fun s => hR.paint s _

theorem Keeps.vectorBlock {R : State → State → Prop} (hR : VectorKept R) (skipEn selEn : Bool) :
    Keeps R (vectorBlock skipEn selEn) := by
  refine .bind hR.toChain (.flagIfActive hR.toReadKept .skip skipEn hR.skip) fun skip => ?_
  cases skip
  · exact .codedBlock hR selEn
  · exact .pure hR.toChain ()

/-- One turn of the inner loop (42_vector_unpacker.md R163). -/
theorem walkRow_succ (skipEn selEn : Bool) (n : Nat) (s : State) :
    walkRow skipEn selEn (n + 1) s =
      if s.bX.toNat < s.curStrip.right.toNat then
        (do vectorBlock skipEn selEn; nextColumn; walkRow skipEn selEn n : Act Unit) s
      else .ok () s := rfl

/-- One turn of the outer loop (42_vector_unpacker.md R163). -/
theorem walkRows_succ (skipEn selEn : Bool) (n : Nat) (s : State) :
    walkRows skipEn selEn (n + 1) s =
      if s.bY.toNat < s.curStrip.bottom.toNat then
        (do firstColumn; walkRow skipEn selEn s.curStrip.blockCols; nextRow
            walkRows skipEn selEn n : Act Unit) s
      else .ok () s := rfl

theorem Keeps.walkRow {R : State → State → Prop} (hR : VectorKept R) (skipEn selEn : Bool) (n : Nat) :
    Keeps R (walkRow skipEn selEn n) := by
  induction n with
  | zero => exact .pure hR.toChain ()
  | succ n ih =>
    intro s
    rw [walkRow_succ]
    split
    · exact Keeps.bind hR.toChain (.vectorBlock hR skipEn selEn)
        (fun _ => .bind hR.toChain (.modify fun s => hR.column s _) fun _ => ih) s
    · exact ⟨hR.refl s, trivial⟩

theorem Keeps.walkRows {R : State → State → Prop} (hR : VectorKept R) (skipEn selEn : Bool) (n : Nat) :
    Keeps R (walkRows skipEn selEn n) := by
  induction n with
  | zero => exact .pure hR.toChain ()
  | succ n ih =>
    intro s
    rw [walkRows_succ]
    split
    · exact Keeps.bind hR.toChain (.modify fun s => hR.column s _)
        (fun _ => .bind hR.toChain (.walkRow hR skipEn selEn _) fun _ =>
          .bind hR.toChain (.modify fun s => hR.row s _) fun _ => ih) s
    · exact ⟨hR.refl s, trivial⟩

/-- All a vector chunk can do: whatever relation its few kinds of update keep, the whole walk keeps. -/
theorem Keeps.decodeVectors {R : State → State → Prop} (hR : VectorKept R) (skipEn selEn : Bool) :
    Keeps R (decodeVectors skipEn selEn) :=
  .bind hR.toChain (.clearFlag .skip hR.skip) fun _ => .bind hR.toChain (.clearFlag .sel hR.sel) fun _ =>
    .bind hR.toChain (.modify fun s => hR.row s _) fun _ => .bind hR.toChain (.get hR.toChain) fun _ =>
      .walkRows hR skipEn selEn _

end Sys2Proof.Machine
end

