-- ==== Sys2Proof/Laws/Sequencer.lean ====
section
/-! SUPPORT. The sequencer: where a step can go, what a chunk header does, and what a whole chunk, a frame
header and a strip header can change. -/

namespace Sys2Proof.Machine

/-! ### Where a step can go -/

theorem step_of_quiet {s : State} (h : s.host = []) : step s = advance s := by
  simp [step, hostOrBlock, h]

/-- The host's turn: the command is taken off the list; `wait` gives the block its turn (log entry 6). -/
theorem step_of_cmd {s : State} {c : HostCmd} {rest : List HostCmd} (h : s.host = c :: rest) :
    step s = if c = .wait then advance { s with host := rest } else ({ s with host := rest } : State).hostCmd c := by
  cases c <;> simp [step, hostOrBlock, h]

/-- All a step of the block by itself can be. -/
theorem advance_cases (s : State) :
    (s.phase ≠ .busy ∧ advance s = .next s) ∨
    (s.phase = .busy ∧ s.seq = .frameHeader ∧ advance s = finish frameHeaderStep s) ∨
    (s.phase = .busy ∧ s.seq = .stripHeader ∧ advance s = finish stripHeaderStep s) ∨
    (s.phase = .busy ∧ s.seq = .chunkLoop ∧ s.spanEnd ≤ s.pos ∧ advance s = .next s.endStrip) ∨
    (s.phase = .busy ∧ s.seq = .chunkLoop ∧ s.pos < s.spanEnd ∧ advance s = chunkStep s) := by
  by_cases hp : s.phase = .busy
  · cases hq : s.seq with
    | frameHeader => simp [advance, hp, hq]
    | stripHeader => simp [advance, hp, hq]
    | chunkLoop =>
      by_cases hs : s.pos < s.spanEnd
      · simp [advance, hp, hq, chunkLoopStep, hs]
      · simp [advance, hp, hq, chunkLoopStep, hs, Nat.le_of_not_lt hs]
  · cases h : s.phase <;> simp_all [advance]

/-! ### A chunk header -/

/-- The stored size in the three bytes after the id at `POS`. -/
def sizeAtPos (s : State) : Size :=
  BitVec.ofNat 24 ((streamByte s (s.pos + 1)).toNat * 65536 +
    ((streamByte s (s.pos + 2)).toNat * 256 + (streamByte s (s.pos + 3)).toNat))

theorem fetchHeader_ok {s : State} (h : s.pos + 4 ≤ s.streamLen) :
    fetchHeader s = .ok (headerBytes (streamByte s s.pos) (sizeAtPos s))
      { s with cid := streamByte s s.pos, pos := s.pos + 4 } := by
  rw [fetchHeader, act_bind_ok (readU8_ok (by omega)), act_bind_ok (act_modify _ _),
    act_bind_ok (readU24_ok (by simp only; omega)), act_pure]
  rfl

theorem fetchHeader_under {s : State} (h : s.streamLen < s.pos + 1) :
    fetchHeader s = .error (.raise .streamUnderrun s.pos) s := by
  rw [fetchHeader, act_bind_error (readU8_under h)]

/-- The header that ends after its id (40_frame_decoder.md R125). -/
theorem fetchHeader_id_only {s : State} (h1 : s.pos + 1 ≤ s.streamLen) (h2 : s.streamLen < s.pos + 2) :
    fetchHeader s = .error (.raise .streamUnderrun (s.pos + 1))
      { s with cid := streamByte s s.pos, pos := s.pos + 1 } := by
  rw [fetchHeader, act_bind_ok (readU8_ok h1), act_bind_ok (act_modify _ _),
    act_bind_error (readU24_under (by simp only; omega))]

/-- The header that ends inside its size (40_frame_decoder.md R125). -/
theorem fetchHeader_size_cut {s : State} (h2 : s.pos + 2 ≤ s.streamLen) (h4 : s.streamLen < s.pos + 4) :
    fetchHeader s = .error (.raise .streamUnderrun (s.pos + 2))
      { s with cid := streamByte s s.pos, pos := s.pos + 2 } := by
  rw [fetchHeader, act_bind_ok (readU8_ok (by omega)), act_bind_ok (act_modify _ _),
    act_bind_error (readU24_split (by simp only; omega) (by simp only; omega))]

/-- The three size bytes of a header give its size back (30_encoding.md R86). -/
theorem sizeOfBytes_extract (z : Size) :
    sizeOfBytes (z.extractLsb' 16 8) (z.extractLsb' 8 8) (z.extractLsb' 0 8) = z := by
  apply BitVec.eq_of_getLsbD_eq
  intro j hj
  simp only [sizeOfBytes, BitVec.getLsbD_append, BitVec.getLsbD_extractLsb']
  grind

/-- Dispatch on a whole header (40_frame_decoder.md R127). -/
theorem dispatchHeader_eq (id : Byte) (z : Size) (s : State) :
    dispatchHeader (headerBytes id z) s =
      match instrOfHeader id z with
      | some i => exec i s
      | none => finish (rejectHeader id z) s := by
  simp only [dispatchHeader, headerBytes, decode, sizeOfBytes_extract]
  cases instrOfHeader id z <;> rfl

/-- The handler of an instruction. -/
def handlerOf : Instr → Act Unit
  | .ldcbV4F6 _ => loadCodebook .v4 false .six
  | .ldcbV4C6 _ => loadCodebook .v4 true .six
  | .ldcbV1F6 _ => loadCodebook .v1 false .six
  | .ldcbV1C6 _ => loadCodebook .v1 true .six
  | .ldcbV4F4 _ => loadCodebook .v4 false .four
  | .ldcbV4C4 _ => loadCodebook .v4 true .four
  | .ldcbV1F4 _ => loadCodebook .v1 false .four
  | .ldcbV1C4 _ => loadCodebook .v1 true .four
  | .vecSel _ => decodeVectors false true
  | .vecSkipSel _ => decodeVectors true true
  | .vecV1 _ => decodeVectors false false

theorem exec_eq (i : Instr) (s : State) : exec i s = runChunk (chunkId i) i.size (handlerOf i) s := by
  cases i <;> rfl

/-- Whatever relation every update of every handler keeps, each handler keeps. -/
theorem Keeps.handlerOf {R : State → State → Prop} (hL : ∀ t, LoaderKept R t) (hV : VectorKept R) (i : Instr) :
    Keeps R (handlerOf i) := by
  cases i <;> first
    | exact .loadCodebook (hL _) _ _
    | exact .decodeVectors hV _ _

/-- All an instruction can do: the header registers, then its handler's end, or `BadChunkSize`. -/
theorem exec_cases (i : Instr) (s : State) :
    (i.size.toNat < 4 ∧
      exec i s = .next (({ s with cid := chunkId i } : State).raiseFault .badChunkSize i.size.toNat)) ∨
    (4 ≤ i.size.toNat ∧
      exec i s = .next (chunkEnd (handlerOf i (headerLatched (chunkId i) i.size s)))) := by
  by_cases h : i.size.toNat < 4
  · exact .inl ⟨h, by rw [exec_eq, runChunk_small h]⟩
  · exact .inr ⟨by omega, by rw [exec_eq, runChunk_ok (by omega)]⟩

theorem rejectHeader_next (id : Byte) (z : Size) (s : State) :
    finish (rejectHeader id z) s = .next
      (if z.toNat < 4 then ({ s with cid := id } : State).raiseFault .badChunkSize z.toNat
       else (headerLatched id z s).raiseFault .unknownChunk id.toNat) := by
  rw [finish, rejectHeader]
  split
  · rename_i h
    rw [act_bind_error (latchHeader_small h s), settle]
  · rename_i h
    rw [act_bind_ok (latchHeader_ok (by omega) s), raiseIf_true rfl, settle]

/-- All a chunk's turn can do. -/
theorem chunkStep_cases (s : State) :
    (s.streamLen < s.pos + 4 ∧ ∃ t : State, chunkStep s = .next (t.raiseFault .streamUnderrun t.pos) ∧
      t = { s with cid := t.cid, pos := t.pos } ∧ s.pos ≤ t.pos) ∨
    (s.pos + 4 ≤ s.streamLen ∧ ∃ i, i.size = sizeAtPos s ∧ chunkId i = streamByte s s.pos ∧
      chunkStep s = exec i { s with cid := streamByte s s.pos, pos := s.pos + 4 }) ∨
    (s.pos + 4 ≤ s.streamLen ∧ instrOfHeader (streamByte s s.pos) (sizeAtPos s) = none ∧
      chunkStep s = finish (rejectHeader (streamByte s s.pos) (sizeAtPos s))
        { s with cid := streamByte s s.pos, pos := s.pos + 4 }) := by
  by_cases h4 : s.pos + 4 ≤ s.streamLen
  · right
    have he : chunkStep s = dispatchHeader (headerBytes (streamByte s s.pos) (sizeAtPos s))
        { s with cid := streamByte s s.pos, pos := s.pos + 4 } := by
      rw [chunkStep, fetchHeader_ok h4]
    rw [dispatchHeader_eq] at he
    cases hi : instrOfHeader (streamByte s s.pos) (sizeAtPos s) with
    | none => rw [hi] at he; exact .inr ⟨h4, rfl, he⟩
    | some i =>
      rw [hi] at he
      refine .inl ⟨h4, i, ?_, ?_, he⟩
      · exact (instrOfHeader_some hi).2
      · exact (instrOfHeader_some hi).1
  · left
    refine ⟨by omega, ?_⟩
    rcases Nat.lt_or_ge s.streamLen (s.pos + 1) with h1 | h1
    · exact ⟨s, by rw [chunkStep, fetchHeader_under h1], rfl, Nat.le_refl _⟩
    · rcases Nat.lt_or_ge s.streamLen (s.pos + 2) with h2 | h2
      · exact ⟨{ s with cid := streamByte s s.pos, pos := s.pos + 1 },
          by rw [chunkStep, fetchHeader_id_only h1 h2], rfl, Nat.le_add_right _ _⟩
      · exact ⟨{ s with cid := streamByte s s.pos, pos := s.pos + 2 },
          by rw [chunkStep, fetchHeader_size_cut h2 (by omega)], rfl, Nat.le_add_right _ _⟩

/-! ### What a chunk's turn can change -/

/-- A relation that every kind of update of a chunk keeps. -/
structure ChunkKept (R : State → State → Prop) : Prop extends Chain R where
  seek : ∀ (s : State) p, R s { s with pos := p }
  flag : ∀ (s : State) f w m, R s (s.setFlag f w m)
  index : ∀ (s : State) i, R s { s with li := i }
  entry : ∀ (s : State) t (i : Byte) g, R s (s.updEntry t i g)
  column : ∀ (s : State) x, R s { s with bX := x }
  row : ∀ (s : State) y, R s { s with bY := y }
  paint : ∀ (s : State) ps, R s (s.paint ps)
  cid : ∀ (s : State) x, R s { s with cid := x }
  latch : ∀ (s : State) a b c, R s { s with cid := a, csize := b, cstart := c }
  fault : ∀ (s : State) c n, c ≠ .none → R s (s.raiseFault c n)

theorem ChunkKept.loader {R : State → State → Prop} (hR : ChunkKept R) (t : Table) : LoaderKept R t where
  toChain := hR.toChain
  forward s _ _ := hR.seek s _
  flag s w m := hR.flag s .loader w m
  index := hR.index
  entry s i g := hR.entry s t i g

theorem ChunkKept.vector {R : State → State → Prop} (hR : ChunkKept R) : VectorKept R where
  toChain := hR.toChain
  forward s _ _ := hR.seek s _
  skip s w m := hR.flag s .skip w m
  sel s w m := hR.flag s .sel w m
  column := hR.column
  row := hR.row
  paint := hR.paint

/-- All an instruction can change. -/
theorem ChunkKept.exec {R : State → State → Prop} (hR : ChunkKept R) {i : Instr} {s u : State}
    (h : exec i s = .next u) : R s u := by
  rcases exec_cases i s with ⟨_, he⟩ | ⟨_, he⟩ <;> (rw [he] at h; injection h with h; subst h)
  · exact hR.trans _ _ _ (hR.cid s _) (hR.fault _ _ _ (by simp))
  · exact hR.trans _ _ _ (hR.latch s _ _ _)
      (chunkEnd_kept hR.toChain hR.seek hR.fault (.handlerOf hR.loader hR.vector i) _)

/-- All a chunk's turn can change. -/
theorem ChunkKept.chunkStep {R : State → State → Prop} (hR : ChunkKept R) {s u : State}
    (h : chunkStep s = .next u) : R s u := by
  have hhead : ∀ (a : Byte) (p : Nat), R s { s with cid := a, pos := p } := fun a p =>
    hR.trans _ _ _ (hR.cid s a) (hR.seek _ p)
  rcases chunkStep_cases s with ⟨_, t, he, ht, _⟩ | ⟨_, i, _, _, he⟩ | ⟨_, _, he⟩
  · rw [he] at h
    injection h with h
    subst h
    refine hR.trans _ _ _ ?_ (hR.fault t _ _ (by simp))
    rw [ht]
    exact hhead _ _
  · rw [he] at h
    exact hR.trans _ _ _ (hhead _ _) (hR.exec h)
  · rw [he, rejectHeader_next] at h
    injection h with h
    subst h
    refine hR.trans _ _ _ (hhead (streamByte s s.pos) (s.pos + 4)) ?_
    split
    · exact hR.trans _ _ _ (hR.cid _ _) (hR.fault _ _ _ (by simp))
    · exact hR.trans _ _ _ (hR.latch _ _ _ _) (hR.fault _ _ _ (by simp))

/-- What no chunk changes: the frame registers, the latch, the strip's position and record, the host's
registers, S and the parameters. -/
structure SameFrame (s t : State) : Prop where
  flags : t.flags = s.flags
  frameLen : t.frameLen = s.frameLen
  width : t.width = s.width
  height : t.height = s.height
  nstrips : t.nstrips = s.nstrips
  alloc : t.alloc = s.alloc
  allocW : t.allocW = s.allocW
  allocH : t.allocH = s.allocH
  allocN : t.allocN = s.allocN
  rowcur : t.rowcur = s.rowcur
  si : t.si = s.si
  strips : t.strips = s.strips
  spanStart : t.spanStart = s.spanStart
  seq : t.seq = s.seq
  startPos : t.startPos = s.startPos
  streamLen : t.streamLen = s.streamLen
  stream : t.stream = s.stream
  maxStrips : t.maxStrips = s.maxStrips
  rasterCap : t.rasterCap = s.rasterCap
  host : t.host = s.host
  hostData : t.hostData = s.hostData
  epoch : t.epoch = s.epoch

theorem sameFrame_chain : Chain SameFrame where
  refl s := by constructor <;> rfl
  trans s t u h k := {
    flags := k.flags.trans h.flags
    frameLen := k.frameLen.trans h.frameLen
    width := k.width.trans h.width
    height := k.height.trans h.height
    nstrips := k.nstrips.trans h.nstrips
    alloc := k.alloc.trans h.alloc
    allocW := k.allocW.trans h.allocW
    allocH := k.allocH.trans h.allocH
    allocN := k.allocN.trans h.allocN
    rowcur := k.rowcur.trans h.rowcur
    si := k.si.trans h.si
    strips := k.strips.trans h.strips
    spanStart := k.spanStart.trans h.spanStart
    seq := k.seq.trans h.seq
    startPos := k.startPos.trans h.startPos
    streamLen := k.streamLen.trans h.streamLen
    stream := k.stream.trans h.stream
    maxStrips := k.maxStrips.trans h.maxStrips
    rasterCap := k.rasterCap.trans h.rasterCap
    host := k.host.trans h.host
    hostData := k.hostData.trans h.hostData
    epoch := k.epoch.trans h.epoch }

theorem sameFrame_chunk : ChunkKept SameFrame := by
  constructor <;> (try exact sameFrame_chain) <;> intros <;> constructor <;> first | rfl | simp

end Sys2Proof.Machine
end

