-- ==== Sys2Proof/Laws/Frame.lean ====
section
/-! SUPPORT. The frame header and the strip header: what reading them gives, and what they can change. -/

namespace Sys2Proof.Machine

/-- A frame header that the stream holds (40_frame_decoder.md R111). -/
theorem readFrameHeader_ok {s : State} (h : s.pos + 10 ≤ s.streamLen) :
    readFrameHeader s = .ok ()
      { s with
        flags := streamByte s s.pos
        frameLen := sizeAtPos s
        width := BitVec.ofNat 16
          ((streamByte s (s.pos + 4)).toNat * 256 + (streamByte s (s.pos + 5)).toNat)
        height := BitVec.ofNat 16
          ((streamByte s (s.pos + 6)).toNat * 256 + (streamByte s (s.pos + 7)).toNat)
        nstrips := BitVec.ofNat 16
          ((streamByte s (s.pos + 8)).toNat * 256 + (streamByte s (s.pos + 9)).toNat)
        pos := s.pos + 10 } := by
  rw [readFrameHeader, act_bind_ok (readU8_ok (by omega)), act_bind_ok (act_modify _ _),
    act_bind_ok (readU24_ok (by simp only; omega)), act_bind_ok (act_modify _ _),
    act_bind_ok (readU16_ok (by simp only; omega)), act_bind_ok (act_modify _ _),
    act_bind_ok (readU16_ok (by simp only; omega)), act_bind_ok (act_modify _ _),
    act_bind_ok (readU16_ok (by simp only; omega)), act_modify]
  rfl

/-- A relation that the frame header's updates keep. -/
structure FrameHeaderKept (R : State → State → Prop) : Prop extends ReadKept R where
  flags : ∀ (s : State) x, R s { s with flags := x }
  frameLen : ∀ (s : State) x, R s { s with frameLen := x }
  width : ∀ (s : State) x, R s { s with width := x }
  height : ∀ (s : State) x, R s { s with height := x }
  nstrips : ∀ (s : State) x, R s { s with nstrips := x }

theorem Keeps.readFrameHeader {R : State → State → Prop} (hR : FrameHeaderKept R) : Keeps R readFrameHeader :=
  .bind hR.toChain (.readU8 hR.toChain hR.forward) fun _ => .bind hR.toChain (.modify fun s => hR.flags s _) fun _ =>
  .bind hR.toChain (.readU24 hR.toChain hR.forward) fun _ => .bind hR.toChain (.modify fun s => hR.frameLen s _) fun _ =>
  .bind hR.toChain (.readU16 hR.toChain hR.forward) fun _ => .bind hR.toChain (.modify fun s => hR.width s _) fun _ =>
  .bind hR.toChain (.readU16 hR.toChain hR.forward) fun _ => .bind hR.toChain (.modify fun s => hR.height s _) fun _ =>
  .bind hR.toChain (.readU16 hR.toChain hR.forward) fun _ => .modify fun s => hR.nstrips s _

/-- What the acceptance of a frame can do (40_frame_decoder.md R112, R113). -/
theorem acceptFrame_cases (s : State) :
    (∃ c n, acceptFrame s = .error (.raise c n) s ∧ c ≠ .none) ∨
    (s.alloc = true ∧ s.width = s.allocW ∧ s.height = s.allocH ∧ s.nstrips.toNat ≤ s.allocN.toNat ∧
      acceptFrame s = .ok () s) ∨
    (s.alloc = false ∧ s.nstrips.toNat ≤ s.maxStrips ∧ s.rasterNeed ≤ s.rasterCap ∧
      acceptFrame s = .ok ()
        { s with alloc := true, allocW := s.width, allocH := s.height, allocN := s.nstrips }) := by
  cases ha : s.alloc with
  | true =>
    have he : acceptFrame s = checkAllocation s := by simp [acceptFrame, ha]
    rw [he, checkAllocation, act_bind_ok (act_get s)]
    by_cases hd : s.width ≠ s.allocW ∨ s.height ≠ s.allocH
    · rw [act_bind_error (raiseIf_true (by simpa using hd) s)]
      exact .inl ⟨_, _, rfl, by simp⟩
    · rw [act_bind_ok (raiseIf_false (by simpa using hd) s)]
      by_cases hn : s.nstrips.toNat > s.allocN.toNat
      · rw [raiseIf_true (by simpa using hn) s]
        exact .inl ⟨_, _, rfl, by simp⟩
      · rw [raiseIf_false (by simpa using hn) s]
        push Not at hd
        exact .inr (.inl ⟨rfl, hd.1, hd.2, by omega, rfl⟩)
  | false =>
    have he : acceptFrame s = allocate s := by simp [acceptFrame, ha]
    rw [he, allocate, act_bind_ok (act_get s)]
    by_cases hn : s.nstrips.toNat > s.maxStrips
    · rw [act_bind_error (raiseIf_true (by simpa using hn) s)]
      exact .inl ⟨_, _, rfl, by simp⟩
    · rw [act_bind_ok (raiseIf_false (by simpa using hn) s)]
      by_cases hr : s.rasterNeed > s.rasterCap
      · rw [act_bind_error (raiseIf_true (by simpa using hr) s)]
        exact .inl ⟨_, _, rfl, by simp⟩
      · rw [act_bind_ok (raiseIf_false (by simpa using hr) s), act_modify]
        exact .inr (.inr ⟨rfl, by omega, by omega, rfl⟩)

theorem Keeps.acceptFrame {R : State → State → Prop} (hR : Chain R)
    (h : ∀ (s : State), s.alloc = false → s.nstrips.toNat ≤ s.maxStrips → s.rasterNeed ≤ s.rasterCap →
      R s { s with alloc := true, allocW := s.width, allocH := s.height, allocN := s.nstrips }) :
    Keeps R acceptFrame := by
  intro s
  rcases acceptFrame_cases s with ⟨c, n, he, hc⟩ | ⟨_, _, _, _, he⟩ | ⟨ha, hn, hr, he⟩ <;> rw [he]
  · exact ⟨hR.refl s, hc⟩
  · exact ⟨hR.refl s, trivial⟩
  · exact ⟨h s ha hn hr, trivial⟩

/-- What reading the frame header can change: the five frame registers, and `POS`, forward. -/
def HeaderOnly (s t : State) : Prop :=
  t = { s with flags := t.flags, frameLen := t.frameLen, width := t.width, height := t.height,
               nstrips := t.nstrips, pos := t.pos } ∧ s.pos ≤ t.pos

theorem headerOnly_chain : Chain HeaderOnly where
  refl _ := ⟨rfl, Nat.le_refl _⟩
  trans s t u h k := by
    have e := k.1
    rw [h.1] at e
    exact ⟨e, Nat.le_trans h.2 k.2⟩

theorem readFrameHeader_only : Keeps HeaderOnly readFrameHeader := by
  refine .readFrameHeader ⟨⟨headerOnly_chain, fun s n _ => ⟨rfl, Nat.le_add_right _ _⟩⟩, ?_, ?_, ?_, ?_, ?_⟩ <;>
    exact fun s _ => ⟨rfl, Nat.le_refl _⟩

/-- A frame header that the stream does not hold (40_frame_decoder.md R111). -/
theorem readFrameHeader_under {s : State} (h : s.streamLen < s.pos + 10) :
    ∃ t, HeaderOnly s t ∧ t.pos < s.pos + 10 ∧
      readFrameHeader s = .error (.raise .streamUnderrun t.pos) t := by
  have go : ∀ t, HeaderOnly s t → t.pos < s.pos + 10 →
      readFrameHeader s = .error (.raise .streamUnderrun t.pos) t → ∃ t, HeaderOnly s t ∧
        t.pos < s.pos + 10 ∧ readFrameHeader s = .error (.raise .streamUnderrun t.pos) t :=
    fun t h1 h2 h3 => ⟨t, h1, h2, h3⟩
  rw [readFrameHeader] at go ⊢
  by_cases h1 : s.streamLen < s.pos + 1
  · exact go s ⟨rfl, by omega⟩ (by omega) (act_bind_error (readU8_under h1))
  rw [act_bind_ok (readU8_ok (by omega)), act_bind_ok (act_modify _ _)] at go ⊢
  by_cases h2 : s.streamLen < s.pos + 2
  · exact go { s with flags := streamByte s s.pos, pos := s.pos + 1 } ⟨rfl, Nat.le_add_right _ 1⟩ (by simp)
      (act_bind_error (readU24_under (by simp only; omega)))
  by_cases h3 : s.streamLen < s.pos + 4
  · exact go { s with flags := streamByte s s.pos, pos := s.pos + 2 } ⟨rfl, Nat.le_add_right _ 2⟩ (by simp)
      (act_bind_error (readU24_split (s := { s with flags := streamByte s s.pos, pos := s.pos + 1 })
        (by simp only; omega) (by simp only; omega)))
  rw [act_bind_ok (readU24_ok (by simp only; omega)), act_bind_ok (act_modify _ _)] at go ⊢
  by_cases h4 : s.streamLen < s.pos + 6
  · exact go _ ⟨rfl, Nat.le_add_right _ 4⟩ (by simp) (act_bind_error (readU16_under (by simp only; omega)))
  rw [act_bind_ok (readU16_ok (by simp only; omega)), act_bind_ok (act_modify _ _)] at go ⊢
  by_cases h5 : s.streamLen < s.pos + 8
  · exact go _ ⟨rfl, Nat.le_add_right _ 6⟩ (by simp) (act_bind_error (readU16_under (by simp only; omega)))
  rw [act_bind_ok (readU16_ok (by simp only; omega)), act_bind_ok (act_modify _ _)] at go ⊢
  exact go _ ⟨rfl, Nat.le_add_right _ 8⟩ (by simp) (act_bind_error (readU16_under (by simp only; omega)))

/-- The latch after a frame was accepted in state `s` (40_frame_decoder.md R112). -/
def latched (s : State) : State :=
  if s.alloc then s else { s with alloc := true, allocW := s.width, allocH := s.height, allocN := s.nstrips }

/-- All the frame header's step can do: a fault after reading some of the header, or, with the frame
accepted, the latch, the row cursor and the entry of the strip loop. -/
theorem frameHeaderStep_cases (s : State) :
    (∃ t c n, HeaderOnly s t ∧ c ≠ .none ∧ frameHeaderStep s = .error (.raise c n) t) ∨
    (∃ t, HeaderOnly s t ∧
      ((t.alloc = true ∧ t.width = t.allocW ∧ t.height = t.allocH ∧ t.nstrips.toNat ≤ t.allocN.toNat) ∨
        (t.alloc = false ∧ t.nstrips.toNat ≤ t.maxStrips ∧ t.rasterNeed ≤ t.rasterCap)) ∧
      frameHeaderStep s = .ok () ({ latched t with rowcur := 0#32 } : State).enterStrips) := by
  rw [frameHeaderStep]
  rcases Nat.lt_or_ge s.streamLen (s.pos + 10) with h | h
  · obtain ⟨t, ht, _, he⟩ := readFrameHeader_under h
    exact .inl ⟨t, _, _, ht, by simp, act_bind_error he⟩
  · obtain ⟨t, hk, he⟩ : ∃ t, HeaderOnly s t ∧ readFrameHeader s = .ok () t := by
      have hk := (readFrameHeader_only s).1
      rw [readFrameHeader_ok h] at hk
      exact ⟨_, hk, readFrameHeader_ok h⟩
    rw [act_bind_ok he]
    rcases acceptFrame_cases t with ⟨c, n, he, hc⟩ | ⟨ha, hw, hv, hn, he⟩ | ⟨ha, hn, hr, he⟩
    · exact .inl ⟨t, c, n, hk, hc, act_bind_error he⟩
    · refine .inr ⟨t, hk, .inl ⟨ha, hw, hv, hn⟩, ?_⟩
      rw [act_bind_ok he, act_bind_ok (act_modify _ _), act_modify, latched, if_pos ha]
    · refine .inr ⟨t, hk, .inr ⟨ha, hn, hr⟩, ?_⟩
      rw [act_bind_ok he, act_bind_ok (act_modify _ _), act_modify, latched, if_neg (by simp [ha])]

/-- A relation that the strip header's updates keep. -/
structure StripHeaderKept (R : State → State → Prop) : Prop extends ReadKept R where
  record : ∀ (s : State) g, R s (s.updCurStrip g)

theorem Keeps.readStripHeader {R : State → State → Prop} (hR : StripHeaderKept R) :
    Keeps R readStripHeader :=
  .bind hR.toChain (.readU16 hR.toChain hR.forward) fun _ => .bind hR.toChain (.modify fun s => hR.record s _) fun _ =>
  .bind hR.toChain (.readU16 hR.toChain hR.forward) fun _ => .bind hR.toChain (.raiseIf hR.toChain _ (by simp) _) fun _ =>
  .bind hR.toChain (.modify fun s => hR.record s _) fun _ =>
  .bind hR.toChain (.readU16 hR.toChain hR.forward) fun _ => .bind hR.toChain (.modify fun s => hR.record s _) fun _ =>
  .bind hR.toChain (.readU16 hR.toChain hR.forward) fun _ => .bind hR.toChain (.modify fun s => hR.record s _) fun _ =>
  .bind hR.toChain (.readU16 hR.toChain hR.forward) fun _ => .bind hR.toChain (.modify fun s => hR.record s _) fun _ =>
  .bind hR.toChain (.readU16 hR.toChain hR.forward) fun _ => .modify fun s => hR.record s _

/-- What reading the strip header can change: the current strip's record, and `POS`, forward. -/
def StripOnly (s t : State) : Prop :=
  t = { s with strips := t.strips, pos := t.pos } ∧ s.pos ≤ t.pos ∧
    ∀ slot, slot ≠ s.si.toNat → t.stripRec slot = s.stripRec slot

theorem stripOnly_chain : Chain StripOnly where
  refl _ := ⟨rfl, Nat.le_refl _, fun _ _ => rfl⟩
  trans s t u h k := by
    have hsi : t.si = s.si := by rw [h.1]
    have e := k.1
    rw [h.1] at e
    exact ⟨e, Nat.le_trans h.2.1 k.2.1, fun slot hs =>
      (k.2.2 slot (by rw [hsi]; exact hs)).trans (h.2.2 slot hs)⟩

theorem readStripHeader_only : Keeps StripOnly readStripHeader := by
  refine .readStripHeader ⟨⟨stripOnly_chain, fun s n _ => ⟨rfl, Nat.le_add_right _ _, fun _ _ => rfl⟩⟩, ?_⟩
  intro s g
  refine ⟨rfl, Nat.le_refl _, fun slot hs => ?_⟩
  rw [State.stripRec_updCurStrip, if_neg hs]

/-- The 16-bit field at an address of S, as a strip header's reads give it. -/
def fieldAt (s : State) (a : Nat) : BitVec 16 :=
  BitVec.ofNat 16 ((streamByte s a).toNat * 256 + (streamByte s (a + 1)).toNat)

/-- The state with `POS` elsewhere. -/
def State.atPos (s : State) (p : Nat) : State := { s with pos := p }

@[simp] theorem State.atPos_pos (s : State) (p : Nat) : (s.atPos p).pos = p := rfl

@[simp] theorem State.atPos_streamLen (s : State) (p : Nat) : (s.atPos p).streamLen = s.streamLen := rfl

@[simp] theorem State.atPos_rowcur (s : State) (p : Nat) : (s.atPos p).rowcur = s.rowcur := rfl

@[simp] theorem State.atPos_width (s : State) (p : Nat) : (s.atPos p).width = s.width := rfl

@[simp] theorem State.atPos_curStrip (s : State) (p : Nat) : (s.atPos p).curStrip = s.curStrip := rfl

@[simp] theorem fieldAt_atPos (s : State) (p a : Nat) : fieldAt (s.atPos p) a = fieldAt s a := rfl

@[simp] theorem fieldAt_updCurStrip (s : State) (g : StripRec → StripRec) (a : Nat) :
    fieldAt (s.updCurStrip g) a = fieldAt s a := rfl

theorem readField_ok {s : State} (h : s.pos + 2 ≤ s.streamLen) :
    readU16 s = .ok (fieldAt s s.pos) (s.atPos (s.pos + 2)) := readU16_ok h

/-- The record a strip header at position `p` gives a strip of state `s` (40_frame_decoder.md R118). -/
def stripRecAt (s : State) (p : Nat) : StripRec :=
  { id := fieldAt s p, len := BitVec.ofNat 16 ((fieldAt s (p + 2)).toNat - 12), top := s.rowcur, left := 0#16,
    bottom := s.rowcur + (fieldAt s (p + 8)).setWidth 32, right := s.width }

/-- A read of a 16-bit field followed by an update of the state. -/
theorem field_then_update {α : Type} {s : State} (h : s.pos + 2 ≤ s.streamLen) (g : BitVec 16 → State → State)
    (k : Act α) :
    (do let x ← readU16; modify (g x); k : Act α) s = k (g (fieldAt s s.pos) (s.atPos (s.pos + 2))) := by
  rw [act_bind_ok (readField_ok h), act_bind_ok (act_modify _ _)]

/-- A strip header that the stream holds, with a legal length. -/
theorem readStripHeader_ok {s : State} (h : s.pos + 12 ≤ s.streamLen)
    (hl : 12 ≤ (fieldAt s (s.pos + 2)).toNat) :
    ∃ t, readStripHeader s = .ok () t ∧ StripOnly s t ∧ t.pos = s.pos + 12 ∧
      t.curStrip = stripRecAt s s.pos := by
  have hk := (readStripHeader_only s).1
  have he : ∃ t, readStripHeader s = .ok () t ∧ t.pos = s.pos + 12 ∧ t.curStrip = stripRecAt s s.pos := by
    rw [readStripHeader, field_then_update (by omega), act_bind_ok (readField_ok (by simp; omega)),
      act_bind_ok (raiseIf_false (decide_eq_false (by simpa using hl)) _),
      act_bind_ok (act_modify _ _), field_then_update (by simp; omega), field_then_update (by simp; omega),
      field_then_update (by simp; omega), act_bind_ok (readField_ok (by simp; omega)), act_modify]
    exact ⟨_, rfl, by simp, by simp [stripRecAt]⟩
  obtain ⟨t, he, hp, hc⟩ := he
  rw [he] at hk
  exact ⟨t, he, hk, hp, hc⟩

/-- A strip header whose stored length is below 12 (30_encoding.md R87). -/
theorem readStripHeader_short {s : State} (h : s.pos + 4 ≤ s.streamLen)
    (hl : (fieldAt s (s.pos + 2)).toNat < 12) :
    ∃ t, readStripHeader s = .error (.raise .badStripLength (fieldAt s (s.pos + 2)).toNat) t ∧
      StripOnly s t ∧ t.pos = s.pos + 4 ∧ t.curStrip = { s.curStrip with id := fieldAt s s.pos } := by
  have hk := (readStripHeader_only s).1
  have he : ∃ t, readStripHeader s = .error (.raise .badStripLength (fieldAt s (s.pos + 2)).toNat) t ∧
      t.pos = s.pos + 4 ∧ t.curStrip = { s.curStrip with id := fieldAt s s.pos } := by
    rw [readStripHeader, field_then_update (by omega), act_bind_ok (readField_ok (by simp; omega)),
      act_bind_error (raiseIf_true (decide_eq_true (by simpa using hl)) _)]
    exact ⟨_, rfl, by simp, by simp⟩
  obtain ⟨t, he, hp, hc⟩ := he
  rw [he] at hk
  exact ⟨t, he, hk, hp, hc⟩

/-- A strip header that the stream does not hold fails on one of its reads, unless its length fails
first. -/
theorem readStripHeader_fails {s : State}
    (h : s.streamLen < s.pos + 12 ∨ (fieldAt s (s.pos + 2)).toNat < 12) :
    ∃ t c n, readStripHeader s = .error (.raise c n) t ∧ StripOnly s t ∧ c ≠ .none := by
  have hk := readStripHeader_only s
  have he : ∃ t c n, readStripHeader s = .error (.raise c n) t := by
    rw [readStripHeader]
    by_cases h1 : s.streamLen < s.pos + 2
    · exact ⟨_, _, _, act_bind_error (readU16_under h1)⟩
    rw [field_then_update (by omega)]
    by_cases h2 : s.streamLen < s.pos + 4
    · exact ⟨_, _, _, act_bind_error (readU16_under (by simp; omega))⟩
    rw [act_bind_ok (readField_ok (by simp; omega))]
    by_cases h3 : (fieldAt s (s.pos + 2)).toNat < 12
    · exact ⟨_, _, _, act_bind_error (raiseIf_true (decide_eq_true (by simpa using h3)) _)⟩
    rw [act_bind_ok (raiseIf_false (decide_eq_false (by simpa using h3)) _), act_bind_ok (act_modify _ _)]
    by_cases h4 : s.streamLen < s.pos + 6
    · exact ⟨_, _, _, act_bind_error (readU16_under (by simp; omega))⟩
    rw [field_then_update (by simp; omega)]
    by_cases h5 : s.streamLen < s.pos + 8
    · exact ⟨_, _, _, act_bind_error (readU16_under (by simp; omega))⟩
    rw [field_then_update (by simp; omega)]
    by_cases h6 : s.streamLen < s.pos + 10
    · exact ⟨_, _, _, act_bind_error (readU16_under (by simp; omega))⟩
    rw [field_then_update (by simp; omega)]
    exact ⟨_, _, _, act_bind_error (readU16_under (by simp; omega))⟩
  obtain ⟨t, c, n, he⟩ := he
  rw [he] at hk
  exact ⟨t, c, n, he, hk.1, hk.2⟩

/-- All the strip header's step can do: inheritance, then a fault somewhere in the header, or the record,
the span start and the chunk loop (40_frame_decoder.md R116, R118, R121). -/
theorem stripHeaderStep_cases (s : State) :
    (∃ t c n, StripOnly s.inherit t ∧ c ≠ .none ∧ stripHeaderStep s = .error (.raise c n) t) ∨
    (∃ t, StripOnly s.inherit t ∧ t.curStrip = stripRecAt s.inherit s.pos ∧
      stripHeaderStep s = .ok () { t with spanStart := t.pos, seq := .chunkLoop }) := by
  rw [stripHeaderStep, act_bind_ok (act_modify _ _)]
  by_cases h : s.inherit.streamLen < s.inherit.pos + 12 ∨ (fieldAt s.inherit (s.inherit.pos + 2)).toNat < 12
  · obtain ⟨t, c, n, he, ht, hc⟩ := readStripHeader_fails h
    exact .inl ⟨t, c, n, ht, hc, act_bind_error he⟩
  · push Not at h
    obtain ⟨t, he, ht, _, hr⟩ := readStripHeader_ok (by omega) h.2
    refine .inr ⟨t, ht, hr, ?_⟩
    rw [act_bind_ok he, act_modify]

end Sys2Proof.Machine
end

