-- ==== Sys2Proof/Laws/Payload.lean ====
section
/-! SUPPORT. The closed forms of a payload in Safety.lean: what an entry held in part reads as, and that the
first cut of a prefix is the first cut of the whole. -/

namespace Sys2Proof.Machine

/-! ### Entries held in part -/

/-- Of an entry the stream holds nothing of, nothing is written. -/
@[simp] theorem entryHeld_zero (form : EntryForm) (p : Nat → Byte) (o : Nat) (old : Entry) :
    entryHeld form p o 0 old = old := by cases form <;> rfl

/-- An entry the stream holds whole is loaded whole. -/
theorem entryHeld_of_width_le {form : EntryForm} {n : Nat} (h : form.width ≤ n) (p : Nat → Byte) (o : Nat)
    (old : Entry) : entryHeld form p o n old = entryAt form p o := if_pos h

/-- An unconditional loader reads entry `k` at `k` widths, exactly for the entries the budget holds whole. -/
theorem inOrderFrom_eq_some {width budget k o : Nat} :
    inOrderFrom width budget k = some o ↔ (k + 1) * width ≤ budget ∧ o = k * width := by
  unfold inOrderFrom
  split <;> simp_all [eq_comm]

/-! ### Cuts of a conditional loader -/

/-- A cut among the first attempts is the cut of any longer run. -/
theorem loadCut_mono {p : Nat → Byte} {width budget avail n m c : Nat}
    (h : loadCut p width budget avail n = some c) (hnm : n ≤ m) :
    loadCut p width budget avail m = some c := by
  induction hnm with
  | refl => exact h
  | step _ ih => rw [loadCut, ih]

/-- Without a cut in the whole there is none in a prefix. -/
theorem loadCut_none_of_le {p : Nat → Byte} {width budget avail n m : Nat}
    (h : loadCut p width budget avail m = none) (hnm : n ≤ m) :
    loadCut p width budget avail n = none := by
  cases hn : loadCut p width budget avail n with
  | none => rfl
  | some c => rw [loadCut_mono hn hnm] at h; cases h

/-- One more attempt, after attempts without a cut, is cut where that attempt is. -/
theorem loadCut_succ_of_none {p : Nat → Byte} {width budget avail n : Nat}
    (h : loadCut p width budget avail n = none) :
    loadCut p width budget avail (n + 1) =
      (loadCursor p width budget n).bind (attemptCut p width budget avail n) := by
  rw [loadCut, h]
  cases loadCursor p width budget n <;> rfl

/-! ### Cuts of a vector chunk -/

/-- A cut among the first blocks is the cut of any longer walk. -/
theorem vecCut_mono {skipEn selEn : Bool} {p : Nat → Byte} {budget avail n m : Nat} {c : VecCut}
    (h : vecCut skipEn selEn p budget avail n = some c) (hnm : n ≤ m) :
    vecCut skipEn selEn p budget avail m = some c := by
  induction hnm with
  | refl => exact h
  | step _ ih => rw [vecCut, ih]

/-- Without a cut in the whole walk there is none in a part of it. -/
theorem vecCut_none_of_le {skipEn selEn : Bool} {p : Nat → Byte} {budget avail n m : Nat}
    (h : vecCut skipEn selEn p budget avail m = none) (hnm : n ≤ m) :
    vecCut skipEn selEn p budget avail n = none := by
  cases hn : vecCut skipEn selEn p budget avail n with
  | none => rfl
  | some c => rw [vecCut_mono hn hnm] at h; cases h

/-- One more block, after blocks without a cut, is cut where that block is. -/
theorem vecCut_succ_of_none {skipEn selEn : Bool} {p : Nat → Byte} {budget avail n : Nat}
    (h : vecCut skipEn selEn p budget avail n = none) :
    vecCut skipEn selEn p budget avail (n + 1) =
      (vecCursor skipEn selEn p budget n).bind fun c =>
        (blockCut skipEn selEn p budget avail n c).map fun a => { block := n, next := a } := by
  rw [vecCut, h]
  cases vecCursor skipEn selEn p budget n <;> rfl

end Sys2Proof.Machine
end

