-- ==== Sys2Proof/Laws/PerInstr.lean ====
section
/-! SUPPORT. Facts about every instruction as syntax, one lemma per constructor. -/

namespace Sys2Proof.Laws

/-- A chunk id and a stored size as one header word: the id in bits 31 to 24, the size in bits 23 to 0
(30_encoding.md R83). -/
def packWord (id : Byte) (z : Size) : BitVec 32 := (id.setWidth 32 <<< 24) ||| z.setWidth 32

/-- The header word of an instruction. -/
def headerWord (i : Instr) : BitVec 32 := packWord (chunkId i) i.size

theorem wordBytes_packWord (id : Byte) (z : Size) : wordBytes (packWord id z) = headerBytes id z := by
  simp only [wordBytes, headerBytes, packWord, List.cons.injEq, and_true]
  refine ⟨?_, ?_, ?_, ?_⟩ <;> (apply BitVec.eq_of_getLsbD_eq; intro j hj; simp; grind)

theorem mask_bit : ∀ j < 32, (0xFF000000#32).getLsbD j = decide (24 ≤ j) := by decide

/-- Under the mask of the opcode table a header word shows its id alone. -/
theorem packWord_mask (id : Byte) (z : Size) :
    packWord id z &&& 0xFF000000#32 = id.setWidth 32 <<< 24 := by
  apply BitVec.eq_of_getLsbD_eq
  intro j hj
  rw [BitVec.getLsbD_and, mask_bit j hj]
  simp [packWord]
  grind

theorem packWord_size (id : Byte) (z : Size) : (packWord id z).extractLsb' 0 24 = z := by
  apply BitVec.eq_of_getLsbD_eq
  intro j hj
  simp [packWord]
  grind

/-- The encoding of an instruction is its four header bytes, and its header word carries the table's match
value under the table's mask (30_encoding.md R83, R85, R99). -/
def HeaderShape.Statement (i : Instr) : Prop :=
  wordBytes (headerWord i) = encode i ∧ (encode i).length = 4 ∧
    headerWord i &&& 0xFF000000#32 = (chunkId i).setWidth 32 <<< 24 ∧
    (headerWord i).extractLsb' 0 24 = i.size

/-- The shape, for any instruction with its id spelled out. -/
theorem headerShape_of (i : Instr) : HeaderShape.Statement i :=
  ⟨wordBytes_packWord _ _, rfl, packWord_mask _ _, packWord_size _ _⟩

theorem HeaderShape.ldcbV4F6 (z : Size) : HeaderShape.Statement (.ldcbV4F6 z) := headerShape_of _

theorem HeaderShape.ldcbV4C6 (z : Size) : HeaderShape.Statement (.ldcbV4C6 z) := headerShape_of _

theorem HeaderShape.ldcbV1F6 (z : Size) : HeaderShape.Statement (.ldcbV1F6 z) := headerShape_of _

theorem HeaderShape.ldcbV1C6 (z : Size) : HeaderShape.Statement (.ldcbV1C6 z) := headerShape_of _

theorem HeaderShape.ldcbV4F4 (z : Size) : HeaderShape.Statement (.ldcbV4F4 z) := headerShape_of _

theorem HeaderShape.ldcbV4C4 (z : Size) : HeaderShape.Statement (.ldcbV4C4 z) := headerShape_of _

theorem HeaderShape.ldcbV1F4 (z : Size) : HeaderShape.Statement (.ldcbV1F4 z) := headerShape_of _

theorem HeaderShape.ldcbV1C4 (z : Size) : HeaderShape.Statement (.ldcbV1C4 z) := headerShape_of _

theorem HeaderShape.vecSel (z : Size) : HeaderShape.Statement (.vecSel z) := headerShape_of _

theorem HeaderShape.vecSkipSel (z : Size) : HeaderShape.Statement (.vecSkipSel z) := headerShape_of _

theorem HeaderShape.vecV1 (z : Size) : HeaderShape.Statement (.vecV1 z) := headerShape_of _

end Sys2Proof.Laws
end

