-- ==== Sys2Proof/Laws/Step.lean ====
section
/-! SUPPORT. The whole step: a property of states that the block's own step and each of the host's commands
keep is kept by every step. -/

namespace Sys2Proof.Machine

/-- The cases of a step as one induction-free rule: the block's own step, taking a command off the list, START
outside `BUSY`, reset, and the host's five ways to write a field. -/
theorem step_preserves {P : State → Prop} {s t : State} (hst : step s = .next t) (h0 : P s)
    (hadv : ∀ s t, P s → advance s = .next t → P t)
    (hhost : ∀ s r, P s → P { s with host := r })
    (hstart : ∀ s : State, P s → s.phase ≠ .busy → P s.enterFrame)
    (hreset : ∀ s : State, P s → P s.hostReset)
    (hstartPos : ∀ s p, P s → P { s with startPos := p })
    (hstreamLen : ∀ s n, P s → P { s with streamLen := n })
    (hstream : ∀ s a bs, P s → P { s with stream := s.stream.write a bs })
    (hraster : ∀ s a bs, P s → a + bs.length ≤ s.rasterCap → P { s with raster := s.raster.write a bs })
    (hdata : ∀ s v, P s → P { s with hostData := v }) : P t := by
  rcases hh : s.host with _ | ⟨c, rest⟩
  · rw [step_of_quiet hh] at hst
    exact hadv s t h0 hst
  · rw [step_of_cmd hh] at hst
    have hP := hhost s rest h0
    split at hst
    · exact hadv _ _ hP hst
    · generalize ({ s with host := rest } : State) = u at hst hP
      simp only [State.hostCmd] at hst
      split at hst
      · cases hst
      · cases c with
        | wait => injection hst with e; subst e; exact hP
        | start =>
          injection hst with e
          subst e
          simp only [State.start]
          split
          · exact hP
          · exact hstart u hP ‹_›
        | reset => injection hst with e; subst e; exact hreset u hP
        | writeStartPos p => injection hst with e; subst e; exact hstartPos u p hP
        | writeStreamLen n => injection hst with e; subst e; exact hstreamLen u n hP
        | writeStream a bs => injection hst with e; subst e; exact hstream u a bs hP
        | writeRaster a bs =>
          simp only [State.runCmd, State.hostWriteRaster] at hst
          split at hst
          · injection hst with e; subst e; exact hraster u a bs hP ‹_›
          · cases hst
        | readRaster a =>
          simp only [State.runCmd, State.hostReadRaster] at hst
          split at hst
          · injection hst with e; subst e; exact hdata u _ hP
          · cases hst
        | readReg r => injection hst with e; subst e; exact hdata u _ hP

end Sys2Proof.Machine
end

