-- ==== Sys2Proof/Tests/Slice0.lean ====
section
/-! SUPPORT. The model's own tests. Expected values come from the worked examples of spec/ (the rule is named at
each test). Then, for every statement that has hypotheses, a theorem `witness_<statement>` that meets them on
a concrete state. -/

namespace Sys2Proof.Tests

open Sys2Proof Sys2Proof.Machine

/-! ### Well-formed headers -/

theorem test_wellFormed_accepts : (Instr.vecV1 4#24).WellFormed := by decide

theorem test_wellFormed_refuses : ¬ (Instr.ldcbV4F6 3#24).WellFormed := by decide

/-! ### Decoding, one written-out header word per instruction (30_encoding.md R83, R85) -/

/-- The instruction that bytes decode to. -/
def decoded (bs : List Byte) : Option Instr :=
  match decode bs with
  | .ok (i, _) => some i
  | .error _ => none

theorem test_decode_ldcbV4F6 :
    decoded [0b00100000#8, 0b00000000#8, 0b00000000#8, 0b00010000#8] = some (.ldcbV4F6 16#24) := by decide

theorem test_decode_ldcbV4C6 :
    decoded [0b00100001#8, 0b00000000#8, 0b00000001#8, 0b00010100#8] = some (.ldcbV4C6 276#24) := by decide

theorem test_decode_ldcbV1F6 :
    decoded [0b00100010#8, 0b00000001#8, 0b00000000#8, 0b00001010#8] = some (.ldcbV1F6 65546#24) := by decide

theorem test_decode_ldcbV1C6 :
    decoded [0b00100011#8, 0b00000000#8, 0b00000000#8, 0b00001110#8] = some (.ldcbV1C6 14#24) := by decide

theorem test_decode_ldcbV4F4 :
    decoded [0b00100100#8, 0b00000000#8, 0b00000000#8, 0b00001100#8] = some (.ldcbV4F4 12#24) := by decide

theorem test_decode_ldcbV4C4 :
    decoded [0b00100101#8, 0b00000000#8, 0b00000000#8, 0b00001100#8] = some (.ldcbV4C4 12#24) := by decide

theorem test_decode_ldcbV1F4 :
    decoded [0b00100110#8, 0b00000000#8, 0b00000000#8, 0b00001010#8] = some (.ldcbV1F4 10#24) := by decide

theorem test_decode_ldcbV1C4 :
    decoded [0b00100111#8, 0b00000000#8, 0b00000000#8, 0b00000111#8] = some (.ldcbV1C4 7#24) := by decide

theorem test_decode_vecSel :
    decoded [0b00110000#8, 0b10000000#8, 0b00000000#8, 0b00001101#8] = some (.vecSel 8388621#24) := by decide

theorem test_decode_vecSkipSel :
    decoded [0b00110001#8, 0b00000000#8, 0b00000000#8, 0b00001000#8] = some (.vecSkipSel 8#24) := by decide

theorem test_decode_vecV1 :
    decoded [0b00110010#8, 0b11111111#8, 0b11111111#8, 0b11111111#8] = some (.vecV1 16777215#24) := by decide

theorem test_decode_refuses_28 : decoded [0x28#8, 0#8, 0#8, 4#8] = none := by decide

theorem test_decode_refuses_33 : decoded [0x33#8, 0#8, 0#8, 4#8] = none := by decide

theorem test_decode_refuses_truncated : decode [0x20#8, 0#8, 0#8] = .error (.truncated 3) := by rfl

/-! ### Small states -/

/-- The next state, if there is one. -/
def nextOf (o : Host.Outcome State Fault Refusal) : Option State :=
  match o with
  | .next t => some t
  | _ => none

/-- A frame of 8 by 4 pixels in one strip, whose first chunk is due at position 0 of the given stream. -/
def chunkState (bs : List Byte) : State :=
  { State.reset with
    width := 8#16, height := 4#16, nstrips := 1#16
    alloc := true, allocW := 8#16, allocH := 4#16, allocN := 1#16
    strips := [(0, { id := 0#16, len := 64#16, top := 0#32, left := 0#16, bottom := 4#32, right := 8#16 })]
    stream := Memory.write [] 0 bs, streamLen := bs.length
    phase := .busy, seq := .chunkLoop }

/-- The same with six loaded entries: V1[5], V1[7] and V4[0..3], all with neutral chroma. -/
def tableState (bs : List Byte) : State :=
  let e (a b c d : Byte) : Entry := { y0 := a, y1 := b, y2 := c, y3 := d, u := 128#8, v := 128#8 }
  ((((((chunkState bs).setEntry 0 .v1 5#8 (e 10#8 20#8 30#8 40#8)).setEntry 0 .v1 7#8
    (e 11#8 21#8 31#8 41#8)).setEntry 0 .v4 0#8 (e 1#8 2#8 3#8 4#8)).setEntry 0 .v4 1#8
    (e 5#8 6#8 7#8 8#8)).setEntry 0 .v4 2#8 (e 9#8 12#8 13#8 14#8)).setEntry 0 .v4 3#8
    (e 15#8 16#8 17#8 18#8)

/-- A frame decode just entered, on the given stream. -/
def frameState (bs : List Byte) : State :=
  { State.reset with stream := Memory.write [] 0 bs, streamLen := bs.length, phase := .busy }

/-- The second strip of a frame, about to begin, on the given stream. -/
def stripState (bs : List Byte) : State :=
  { chunkState bs with nstrips := 2#16, allocN := 2#16, si := 1#16, rowcur := 2#32, seq := .stripHeader }

/-- What the test of a loader looks at: some entries, `LI`, `POS` and `PHASE`. -/
def loaded (bs : List Byte) (places : List (Table × Byte)) : Option (List Entry × Nat × Nat × Phase) :=
  (nextOf (step (chunkState bs))).map fun u =>
    (places.map fun p => u.entry 0 p.1 p.2, u.li.toNat, u.pos, u.phase)

/-- What the test of a vector chunk looks at: the three raster bytes of some pixels, and `POS`. -/
def painted (bs : List Byte) (pixels : List (Nat × Nat)) : Option (List (List (Option Byte)) × Nat) :=
  (nextOf (step (tableState bs))).map fun u =>
    (pixels.map fun p => [0, 1, 2].map fun c => u.raster.read (pixelAddr 8 p.1 p.2 + c), u.pos)

/-! ### The loaders (the examples of 41_codebook_loader.md R148 to R155) -/

/-- The second entry, and the other table, which keeps its zeros. -/
theorem test_ldcbV4F6 : loaded
    [0x20#8, 0x00#8, 0x00#8, 0x10#8, 0x10#8, 0x20#8, 0x30#8, 0x40#8, 0x00#8, 0x00#8,
     0x50#8, 0x60#8, 0x70#8, 0x80#8, 0x10#8, 0xF0#8] [(.v4, 1#8), (.v1, 1#8)] =
    some ([{ y0 := 80#8, y1 := 96#8, y2 := 112#8, y3 := 128#8, u := 144#8, v := 112#8 }, Entry.zero],
      2, 16, .busy) := by decide +kernel

/-- The flagged entry 2, and the unflagged entry 1. -/
theorem test_ldcbV4C6 : loaded
    [0x21#8, 0x00#8, 0x00#8, 0x14#8, 0xA0#8, 0x00#8, 0x00#8, 0x00#8, 0x01#8, 0x02#8, 0x03#8, 0x04#8,
     0x05#8, 0x06#8, 0x07#8, 0x08#8, 0x09#8, 0x0A#8, 0x0B#8, 0x0C#8] [(.v4, 2#8), (.v4, 1#8)] =
    some ([{ y0 := 7#8, y1 := 8#8, y2 := 9#8, y3 := 10#8, u := 139#8, v := 140#8 }, Entry.zero],
      32, 20, .busy) := by decide +kernel

theorem test_ldcbV1F6 : loaded
    [0x22#8, 0x00#8, 0x00#8, 0x0A#8, 0x64#8, 0x64#8, 0x64#8, 0x64#8, 0x16#8, 0x16#8] [(.v1, 0#8)] =
    some ([{ y0 := 100#8, y1 := 100#8, y2 := 100#8, y3 := 100#8, u := 150#8, v := 150#8 }], 1, 10, .busy) := by
  decide +kernel

/-- V-L14 of 95_test_vectors.md: the stream ends three bytes into the entry, whose three fields stay. -/
theorem test_ldcbV1F6_cut : loaded [0x22#8, 0x00#8, 0x00#8, 0x0A#8, 0x64#8, 0x65#8, 0x66#8] [(.v1, 0#8)] =
    some ([{ y0 := 100#8, y1 := 101#8, y2 := 102#8, y3 := 0#8, u := 0#8, v := 0#8 }], 0, 7, .failed) := by
  decide

theorem test_ldcbV1C6 : loaded
    [0x23#8, 0x00#8, 0x00#8, 0x0E#8, 0x00#8, 0x00#8, 0x00#8, 0x01#8, 0xFF#8, 0xFE#8, 0xFD#8, 0xFC#8,
     0x80#8, 0x7F#8] [(.v1, 31#8)] =
    some ([{ y0 := 255#8, y1 := 254#8, y2 := 253#8, y3 := 252#8, u := 0#8, v := 255#8 }], 32, 14, .busy) := by
  decide +kernel

theorem test_ldcbV4F4 : loaded
    [0x24#8, 0x00#8, 0x00#8, 0x0C#8, 0x0A#8, 0x0B#8, 0x0C#8, 0x0D#8, 0x14#8, 0x15#8, 0x16#8, 0x17#8]
    [(.v4, 1#8)] =
    some ([{ y0 := 20#8, y1 := 21#8, y2 := 22#8, y3 := 23#8, u := 128#8, v := 128#8 }], 2, 12, .busy) := by
  decide +kernel

theorem test_ldcbV4C4 : loaded
    [0x25#8, 0x00#8, 0x00#8, 0x0C#8, 0x40#8, 0x00#8, 0x00#8, 0x00#8, 0x01#8, 0x02#8, 0x03#8, 0x04#8]
    [(.v4, 1#8)] =
    some ([{ y0 := 1#8, y1 := 2#8, y2 := 3#8, y3 := 4#8, u := 128#8, v := 128#8 }], 32, 12, .busy) := by
  decide +kernel

theorem test_ldcbV1F4_ragged : loaded
    [0x26#8, 0x00#8, 0x00#8, 0x0A#8, 0x11#8, 0x12#8, 0x13#8, 0x14#8, 0x21#8, 0x22#8] [(.v1, 0#8)] =
    some ([{ y0 := 17#8, y1 := 18#8, y2 := 19#8, y3 := 20#8, u := 128#8, v := 128#8 }], 1, 10, .busy) := by
  decide +kernel

theorem test_ldcbV1C4_no_word : loaded [0x27#8, 0x00#8, 0x00#8, 0x07#8, 0x80#8, 0x00#8, 0x00#8]
    [(.v1, 0#8)] = some ([Entry.zero], 0, 7, .busy) := by decide +kernel

/-! ### The vector chunks (the examples of 42_vector_unpacker.md R175 to R177, with the tables above; neutral
chroma gives grey, 43_yuv_to_rgb.md R193) -/

/-- The V1 block at (0, 0): pixel (2, 1) lies in quadrant 1, painted with luma 1 of V1[5] (R170). The V4 block at
(4, 0): pixel (5, 2) is pixel 1 of quadrant 2, painted with luma 1 of V4[2] (R172). -/
theorem test_vecSel : painted
    [0x30#8, 0x00#8, 0x00#8, 0x0D#8, 0x40#8, 0x00#8, 0x00#8, 0x00#8, 0x05#8, 0x00#8, 0x01#8, 0x02#8, 0x03#8]
    [(2, 1), (5, 2)] =
    some ([[some 20#8, some 20#8, some 20#8], [some 12#8, some 12#8, some 12#8]], 13) := by decide +kernel

/-- The skipped block at (0, 0) and the coded one at (4, 0). -/
theorem test_vecSkipSel : painted
    [0x31#8, 0x00#8, 0x00#8, 0x0D#8, 0x80#8, 0x00#8, 0x00#8, 0x00#8, 0x00#8, 0x00#8, 0x00#8, 0x00#8, 0x07#8]
    [(3, 3), (6, 2)] =
    some ([[none, none, none], [some 41#8, some 41#8, some 41#8]], 13) := by decide +kernel

theorem test_vecV1_second_block : painted [0x32#8, 0x00#8, 0x00#8, 0x06#8, 0x05#8, 0x07#8] [(4, 3)] =
    some ([[some 31#8, some 31#8, some 31#8]], 6) := by decide +kernel

/-- One index byte for two blocks: the first is painted, the second stays as it was (R173). -/
theorem test_vecV1_truncated : painted [0x32#8, 0x00#8, 0x00#8, 0x05#8, 0x05#8] [(0, 3), (4, 0)] =
    some ([[some 30#8, some 30#8, some 30#8], [none, none, none]], 5) := by decide +kernel

/-! ### The sequencer -/

/-- The example of 40_frame_decoder.md R111. -/
def bytesFrame : List Byte :=
  [0x00#8, 0x00#8, 0x00#8, 0x3A#8, 0x00#8, 0x08#8, 0x00#8, 0x04#8, 0x00#8, 0x02#8]

theorem test_frame_header : (nextOf (step (frameState bytesFrame))).map
    (fun u => (u.frameLen, u.width, u.height, u.nstrips, u.pos, u.alloc)) =
    some (58#24, 8#16, 4#16, 2#16, 10, true) := by decide

/-- The strip header of the example of 40_frame_decoder.md R118, at row cursor 2. -/
def bytesStrip : List Byte :=
  [0x10#8, 0x00#8, 0x00#8, 0x1C#8, 0x00#8, 0x00#8, 0x00#8, 0x00#8, 0x00#8, 0x02#8, 0x00#8, 0x08#8]

/-- The geometry fields are read at offsets 4, 6, 8 and 10; only the third counts (30_encoding.md R82). -/
theorem test_strip_header : (nextOf (step (stripState bytesStrip))).map
    (fun u => (u.stripRec 1, u.spanStart)) =
    some ({ id := 0x1000#16, len := 16#16, top := 2#32, left := 0#16, bottom := 4#32, right := 8#16 }, 12) := by
  decide

/-- 40_frame_decoder.md R125: `FF 00 00 00` reports `BadChunkSize`. -/
theorem test_bad_size_first : (nextOf (step (chunkState [0xFF#8, 0#8, 0#8, 0#8]))).map
    (fun u => (u.phase, u.cause, u.finfo)) = some (.failed, .badChunkSize, 0) := by decide

/-- 40_frame_decoder.md R125: `FF 00 00 04` reports `UnknownChunk`. -/
theorem test_unknown_chunk : (nextOf (step (chunkState [0xFF#8, 0#8, 0#8, 4#8]))).map
    (fun u => (u.phase, u.cause, u.finfo)) = some (.failed, .unknownChunk, 255) := by decide

/-- From reset, a program runs: the host loads a frame without strips and starts it (log entry 15). -/
theorem test_empty_frame_from_reset :
    (nextOf (Host.Core.run Sys2Proof.core 5 { State.reset with
      host := [.writeStream 0 [0#8, 0#8, 0#8, 0x0A#8, 0#8, 8#8, 0#8, 4#8, 0#8, 0#8], .writeStreamLen 10,
               .writeStartPos 0, .start] })).map (fun u => (u.phase, u.cause, u.pos, u.alloc)) =
      some (.done, .none, 10, true) := by decide

/-- The very next step after `withFetchWord` runs the placed instruction (log entry 15). -/
theorem test_fetch_word : (nextOf (step (State.reset.withFetchWord 32 0x25FFFFFF))).map
    (fun u => (u.cid, u.csize, u.pos, u.phase)) = some (0x25#8, 16777211#24, 16777215, .busy) := by
  decide +kernel

/-! ### Witnesses: concrete states that meet the hypotheses of the statements, each clause at a boundary -/

/-- The state with pending host commands. -/
def State.withHost (s : State) (cs : List HostCmd) : State := { s with host := cs }

theorem witness_MemoryWriteStoresItsBytesOnly : Memory.wf [(3, 1#8), (4, 2#8)] := by decide

/-- The last pixel inside the frame, the first outside it on the right, and the first below it. -/
theorem witness_PutPixelStoresBlueGreenRed :
    ((7 : Nat) < (chunkState []).width.toNat ∧ (3 : Nat) < (chunkState []).height.toNat) ∧
    ¬ ((8 : Nat) < (chunkState []).width.toNat ∧ (3 : Nat) < (chunkState []).height.toNat) ∧
    ¬ ((7 : Nat) < (chunkState []).width.toNat ∧ (4 : Nat) < (chunkState []).height.toNat) := by decide

theorem witness_DecodedBytesAreTheEncoding :
    decode [0x32#8, 0xFF#8, 0xFF#8, 0xFF#8, 9#8] = .ok (.vecV1 0xFFFFFF#24, [9#8]) := by rfl

theorem witness_UnlistedIdsAreUnknownChunks :
    (∀ i : Instr, chunkId i ≠ 0x28#8) ∧ (∀ i : Instr, chunkId i ≠ 0x33#8) := by
  constructor <;> intro i <;> cases i <;> simp [chunkId]

theorem witness_MeaningsFollowTheModeBits :
    (chunkId (.ldcbV1C4 0#24)).extractLsb' 4 4 = 2#4 ∧ (chunkId (.vecV1 0#24)).extractLsb' 4 4 = 3#4 := by
  decide

theorem witness_ResetCommandRestoresTheBlock :
    (State.withHost (chunkState []) [.reset, .wait]).host = .reset :: [.wait] := by decide

/-- Each phase from which START begins a decode. -/
theorem witness_StartEntersTheFrameDecode :
    (State.withHost State.reset [.start]).host = .start :: [] ∧
    (State.withHost State.reset [.start]).phase ≠ .busy ∧
    ({ State.withHost State.reset [.start] with phase := .failed } : State).phase ≠ .busy ∧
    ({ State.withHost State.reset [.start] with phase := .done } : State).phase ≠ .busy := by decide

theorem witness_StartWhileBusyIsIgnored :
    (State.withHost (chunkState []) [.start]).host = .start :: [] ∧
    (State.withHost (chunkState []) [.start]).phase = .busy := by decide

/-- The last byte of R, and the first address beyond it; a write that ends there, and one that passes it. -/
theorem witness_HostAccessesOutsideBusy :
    State.reset.phase ≠ .busy ∧ 1048575 + [7#8].length ≤ State.reset.rasterCap ∧
    State.reset.rasterCap < 1048575 + [7#8, 8#8].length ∧
    1048575 < State.reset.rasterCap ∧ State.reset.rasterCap ≤ 1048576 := by decide

theorem witness_HostAccessesWhileBusyAreRefused : (chunkState []).phase = .busy ∧
    HostCmd.readRaster 0 ∈ [HostCmd.writeStartPos 0, .writeStreamLen 0, .writeStream 0 [], .writeRaster 0 [],
      .readRaster 0] := by decide

theorem witness_HostReadsReturnTheRegisters :
    State.reset.phase ≠ .busy ∧ (chunkState []).phase = .busy ∧ HostReg.width ≠ .phase ∧
    HostReg.width ≠ .cause ∧ HostReg.width ≠ .finfo := by decide

theorem witness_QuiescentPhasesChangeNothing : State.reset.host = [] ∧ State.reset.phase ≠ .busy := by decide

/-- A first frame of 1 by 1 pixels with the last strip the block holds, in a raster of exactly its size. -/
def firstFrame (strips : Byte) (cap : Nat) : State :=
  { frameState [0#8, 0#8, 0#8, 0#8, 0#8, 1#8, 0#8, 1#8, 0#8, strips] with rasterCap := cap }

/-- One strip too many, one byte of raster too few, and exactly enough of both. -/
theorem witness_FirstFrameIsCheckedAndLatched :
    (∀ n cap, (firstFrame n cap).AtFrameHeader ∧ (firstFrame n cap).alloc = false ∧
      (firstFrame n cap).pos + 10 ≤ (firstFrame n cap).streamLen) ∧
    (firstFrame 9#8 2).maxStrips < (firstFrame 9#8 2).withFrameHeader.nstrips.toNat ∧
    (firstFrame 8#8 2).withFrameHeader.nstrips.toNat ≤ (firstFrame 8#8 2).maxStrips ∧
    (firstFrame 8#8 2).rasterCap <
      (firstFrame 8#8 2).withFrameHeader.width.toNat * (firstFrame 8#8 2).withFrameHeader.height.toNat * 3 ∧
    (firstFrame 8#8 3).withFrameHeader.nstrips.toNat ≤ (firstFrame 8#8 3).maxStrips ∧
    (firstFrame 8#8 3).withFrameHeader.width.toNat * (firstFrame 8#8 3).withFrameHeader.height.toNat * 3 ≤
      (firstFrame 8#8 3).rasterCap ∧
    (firstFrame 8#8 3).withFrameHeader.nstrips ≠ 0#16 ∧
    (firstFrame 0#8 3).withFrameHeader.nstrips = 0#16 := by
  refine ⟨fun n cap => ⟨⟨rfl, rfl, rfl⟩, rfl, Nat.le_refl 10⟩, ?_⟩
  decide

/-- A later frame of 1 by 1 pixels with 2 strips, after a first frame of the given width and strips. -/
def laterFrame (w n : BitVec 16) : State :=
  { frameState [0#8, 0#8, 0#8, 0#8, 0#8, 1#8, 0#8, 1#8, 0#8, 2#8] with
    alloc := true, allocW := w, allocH := 1#16, allocN := n }

theorem witness_LaterFrameMustMatchTheLatch :
    (∀ w n, (laterFrame w n).AtFrameHeader ∧ (laterFrame w n).alloc = true ∧
      (laterFrame w n).pos + 10 ≤ (laterFrame w n).streamLen) ∧
    (laterFrame 2#16 2#16).withFrameHeader.width ≠ (laterFrame 2#16 2#16).allocW ∧
    (laterFrame 1#16 1#16).withFrameHeader.width = (laterFrame 1#16 1#16).allocW ∧
    (laterFrame 1#16 1#16).withFrameHeader.height = (laterFrame 1#16 1#16).allocH ∧
    (laterFrame 1#16 1#16).allocN.toNat < (laterFrame 1#16 1#16).withFrameHeader.nstrips.toNat ∧
    (laterFrame 1#16 2#16).withFrameHeader.width = (laterFrame 1#16 2#16).allocW ∧
    (laterFrame 1#16 2#16).withFrameHeader.height = (laterFrame 1#16 2#16).allocH ∧
    (laterFrame 1#16 2#16).withFrameHeader.nstrips.toNat ≤ (laterFrame 1#16 2#16).allocN.toNat := by
  refine ⟨fun w n => ⟨⟨rfl, rfl, rfl⟩, rfl, Nat.le_refl 10⟩, ?_⟩
  decide

/-- Nine bytes of a frame header, and none. -/
theorem witness_CutFrameHeaderFails :
    (frameState (bytesFrame.take 9)).AtFrameHeader ∧
    (frameState (bytesFrame.take 9)).streamLen < (frameState (bytesFrame.take 9)).pos + 10 ∧
    (frameState []).AtFrameHeader ∧ (frameState []).streamLen < (frameState []).pos + 10 := by
  refine ⟨⟨rfl, rfl, rfl⟩, ?_, ⟨rfl, rfl, rfl⟩, ?_⟩ <;> decide

/-- A strip header with the smallest legal length. -/
def shortestStrip : List Byte :=
  [0#8, 0#8, 0#8, 12#8, 0#8, 0#8, 0#8, 0#8, 0#8, 2#8, 0#8, 8#8]

theorem witness_StripHeaderWritesItsRecord :
    (stripState shortestStrip).AtStripHeader ∧
    (stripState shortestStrip).pos + 12 ≤ (stripState shortestStrip).streamLen ∧
    12 ≤ (stripState shortestStrip).field16 ((stripState shortestStrip).pos + 2) := by
  refine ⟨⟨rfl, rfl, rfl⟩, ?_⟩
  decide

theorem witness_ShortStripLengthFails :
    (stripState [0#8, 0#8, 0#8, 11#8]).AtStripHeader ∧
    (stripState [0#8, 0#8, 0#8, 11#8]).pos + 4 ≤ (stripState [0#8, 0#8, 0#8, 11#8]).streamLen ∧
    (stripState [0#8, 0#8, 0#8, 11#8]).field16 ((stripState [0#8, 0#8, 0#8, 11#8]).pos + 2) < 12 := by
  refine ⟨⟨rfl, rfl, rfl⟩, ?_⟩
  decide

/-- Eleven bytes of a strip header, three, and none. -/
theorem witness_CutStripHeaderFails :
    (∀ bs, (stripState bs).AtStripHeader) ∧
    (stripState (shortestStrip.take 11)).streamLen < (stripState (shortestStrip.take 11)).pos + 12 ∧
    12 ≤ (stripState (shortestStrip.take 11)).field16 ((stripState (shortestStrip.take 11)).pos + 2) ∧
    (stripState (shortestStrip.take 3)).streamLen < (stripState (shortestStrip.take 3)).pos + 4 ∧
    (stripState []).streamLen < (stripState []).pos + 2 := by
  refine ⟨fun bs => ⟨rfl, rfl, rfl⟩, ?_⟩
  decide

/-- The end of the span exactly reached; the last strip, and one before it. -/
theorem witness_EndOfSpanAdvancesTheRowCursor :
    (chunkState []).host = [] ∧ (chunkState []).phase = .busy ∧ (chunkState []).seq = .chunkLoop ∧
    ({ chunkState [] with pos := 64 } : State).spanEnd ≤ ({ chunkState [] with pos := 64 } : State).pos ∧
    ¬ ((chunkState []).si.toNat + 1 < (chunkState []).nstrips.toNat) ∧
    (chunkState []).si.toNat + 1 < ({ chunkState [] with nstrips := 2#16 } : State).nstrips.toNat := by
  decide

theorem atChunk_chunkState (bs : List Byte) : (chunkState bs).AtChunk := ⟨rfl, rfl, rfl, show 0 < 64 by decide⟩

theorem witness_StepRunsTheDecodedInstruction :
    (chunkState [0x32#8, 0#8, 0#8, 4#8]).AtChunk ∧
    (chunkState [0x32#8, 0#8, 0#8, 4#8]).pos + 4 ≤ (chunkState [0x32#8, 0#8, 0#8, 4#8]).streamLen ∧
    decoded (streamBytes (chunkState [0x32#8, 0#8, 0#8, 4#8]) 0 4) = some (.vecV1 4#24) :=
  ⟨atChunk_chunkState _, by decide, by decide⟩

/-- No byte, one byte, two bytes and three bytes of a chunk header. -/
theorem witness_CutChunkHeaderFails :
    (∀ bs, (chunkState bs).AtChunk) ∧
    (chunkState []).streamLen < (chunkState []).pos + 1 ∧
    (chunkState [0x20#8]).pos + 1 = (chunkState [0x20#8]).streamLen ∧
    ((chunkState [0x20#8, 0#8]).pos + 2 ≤ (chunkState [0x20#8, 0#8]).streamLen ∧
      (chunkState [0x20#8, 0#8]).streamLen < (chunkState [0x20#8, 0#8]).pos + 4) ∧
    ((chunkState [0x20#8, 0#8, 0#8]).pos + 2 ≤ (chunkState [0x20#8, 0#8, 0#8]).streamLen ∧
      (chunkState [0x20#8, 0#8, 0#8]).streamLen < (chunkState [0x20#8, 0#8, 0#8]).pos + 4) :=
  ⟨atChunk_chunkState, by decide, by decide, by decide, by decide⟩

theorem witness_SmallChunkSizeFailsBeforeTheId :
    (chunkState [0x20#8, 0#8, 0#8, 3#8]).AtChunk ∧
    (chunkState [0x20#8, 0#8, 0#8, 3#8]).pos + 4 ≤ (chunkState [0x20#8, 0#8, 0#8, 3#8]).streamLen ∧
    (chunkState [0x20#8, 0#8, 0#8, 3#8]).field24 ((chunkState [0x20#8, 0#8, 0#8, 3#8]).pos + 1) < 4 :=
  ⟨atChunk_chunkState _, by decide, by decide⟩

theorem witness_UnknownChunkFails :
    (chunkState [0x33#8, 0#8, 0#8, 4#8]).AtChunk ∧
    (chunkState [0x33#8, 0#8, 0#8, 4#8]).pos + 4 ≤ (chunkState [0x33#8, 0#8, 0#8, 4#8]).streamLen ∧
    4 ≤ (chunkState [0x33#8, 0#8, 0#8, 4#8]).field24 ((chunkState [0x33#8, 0#8, 0#8, 4#8]).pos + 1) ∧
    ∀ i : Instr, chunkId i ≠ streamByte (chunkState [0x33#8, 0#8, 0#8, 4#8]) 0 := by
  have h : streamByte (chunkState [0x33#8, 0#8, 0#8, 4#8]) 0 = 0x33#8 := rfl
  rw [h]
  exact ⟨atChunk_chunkState _, by decide, by decide, witness_UnlistedIdsAreUnknownChunks.2⟩

theorem witness_EveryChunkTrapsOnASmallSize :
    (Instr.ldcbV4F6 3#24).size.toNat < 4 ∧ (Instr.vecV1 0#24).size.toNat < 4 := by decide

theorem witness_ChunksEndAtTheirSizeOrUnderrun : 4 ≤ (Instr.vecV1 4#24).size.toNat := by decide

/-- A chunk with the given budget left, in front of the given bytes. -/
def payloadState (budget : Size) (bs : List Byte) : State := { tableState bs with csize := budget }

/-- The last flag of a word, the first, and the three ways an exhausted mask can go. -/
theorem witness_FlagsRunFromBit31Down :
    ({ chunkState [] with lmask := 2#32 } : State).flagMask .loader = BitVec.twoPow 32 (0 + 1) ∧
    ({ chunkState [] with lmask := 0x80000000#32 } : State).flagMask .loader = BitVec.twoPow 32 (30 + 1) ∧
    ((payloadState 3#24 []).flagMask .skip = 0#32 ∧ (payloadState 3#24 []).rem < 4) ∧
    (4 ≤ (payloadState 4#24 [1#8, 2#8, 3#8]).rem ∧
      (payloadState 4#24 [1#8, 2#8, 3#8]).streamLen < (payloadState 4#24 [1#8, 2#8, 3#8]).pos + 4) ∧
    (({ payloadState 4#24 [1#8, 2#8, 3#8, 4#8] with slm := 1#32 } : State).flagMask .sel = 1#32 ∧
      4 ≤ (payloadState 4#24 [1#8, 2#8, 3#8, 4#8]).rem ∧
      (payloadState 4#24 [1#8, 2#8, 3#8, 4#8]).pos + 4 ≤ (payloadState 4#24 [1#8, 2#8, 3#8, 4#8]).streamLen) := by
  decide

/-- Exactly the bytes of an entry, in each form. -/
theorem witness_EntryReadFillsItsPlace :
    (chunkState [1#8, 2#8, 3#8, 4#8, 5#8, 6#8]).pos + EntryForm.six.width ≤
      (chunkState [1#8, 2#8, 3#8, 4#8, 5#8, 6#8]).streamLen ∧
    (chunkState [1#8, 2#8, 3#8, 4#8]).pos + EntryForm.four.width ≤
      (chunkState [1#8, 2#8, 3#8, 4#8]).streamLen := by decide

theorem witness_EntryCutShortKeepsItsFields :
    5 < EntryForm.six.width ∧ 3 < EntryForm.four.width ∧
    (chunkState [1#8, 2#8, 3#8]).pos + 3 = (chunkState [1#8, 2#8, 3#8]).streamLen ∧
    (chunkState [1#8, 2#8, 3#8, 4#8, 5#8]).pos + 5 = (chunkState [1#8, 2#8, 3#8, 4#8, 5#8]).streamLen ∧
    (chunkState []).pos + 0 = (chunkState []).streamLen := by decide

/-- Five bytes, and six. -/
def fiveBytes : List Byte := [1#8, 2#8, 3#8, 4#8, 5#8]
def sixBytes : List Byte := [1#8, 2#8, 3#8, 4#8, 5#8, 6#8]

/-- No payload; one entry that ends with the stream, in a payload that ends with it (size 10) and in one that
goes on beyond it (size 15: five bytes that hold no further entry). -/
theorem witness_UnconditionalLoadersFillFromIndexZero :
    4 ≤ (4#24 : Size).toNat ∧
    (chunkState []).inOrderCut .six 4#24 = none ∧ (chunkState []).inOrderCut .four 4#24 = none ∧
    (chunkState sixBytes).inOrderCut .six 10#24 = none ∧ (chunkState sixBytes).inOrderCut .six 15#24 = none ∧
    (chunkState (sixBytes.take 4)).inOrderCut .four 11#24 = none := by decide

/-- A word without flags that ends with the stream, in a payload that ends with it (size 8) and in one that goes
on beyond it (size 11: three bytes that hold no further word); a flagged entry that ends with the stream. -/
theorem witness_ConditionalLoadersReplaceFlaggedEntries :
    4 ≤ (8#24 : Size).toNat ∧
    (chunkState [0#8, 0#8, 0#8, 0#8]).flaggedCut .six 8#24 = none ∧
    (chunkState [0#8, 0#8, 0#8, 0#8]).flaggedCut .four 11#24 = none ∧
    (chunkState ([0x80#8, 0#8, 0#8, 0#8] ++ sixBytes)).flaggedCut .six 15#24 = none := by decide +kernel

/-- An entry cut at its first and at its last byte; a flag word cut, and a flagged entry cut at its last byte. -/
theorem witness_CutLoadersKeepWhatTheyLoaded :
    4 ≤ (10#24 : Size).toNat ∧
    (chunkState []).inOrderCut .six 10#24 = some 0 ∧ (chunkState fiveBytes).inOrderCut .six 10#24 = some 5 ∧
    (chunkState fiveBytes).inOrderCut .four 12#24 = some 5 ∧
    (chunkState [0x80#8, 0#8, 0#8]).flaggedCut .six 14#24 = some 0 ∧
    (chunkState ([0x80#8, 0#8, 0#8, 0#8] ++ fiveBytes)).flaggedCut .six 14#24 = some 9 ∧
    (chunkState ([0x80#8, 0#8, 0#8, 0#8] ++ sixBytes.take 3)).flaggedCut .four 12#24 = some 7 := by
  decide +kernel

/-- Both blocks of the walk coded from a payload that ends with the stream, and from one that goes on beyond it,
as in V-F12 of 95_test_vectors.md. -/
theorem witness_FlaggedVectorChunksPaintTheirPlan :
    4 ≤ (10#24 : Size).toNat ∧
    (chunkState sixBytes).vectorCut false true 10#24 = none ∧
    (chunkState [0#8, 0#8, 0#8, 0#8, 5#8, 7#8]).vectorCut false true 14#24 = none ∧
    (chunkState [0xC0#8, 0#8, 0#8, 0#8]).vectorCut true true 14#24 = none := by decide +kernel

/-- One index for each of the two blocks, in a payload that ends with the stream and in one that goes on beyond
it; and one that ends after the first block. -/
theorem witness_VecV1PaintsOneIndexPerBlock :
    (chunkState [5#8, 7#8]).curStrip.blockCols * (chunkState [5#8, 7#8]).curStrip.blockRows = 2 ∧
    4 ≤ (5#24 : Size).toNat ∧
    min ((6#24 : Size).toNat - 4) 2 ≤ (chunkState [5#8, 7#8]).avail ∧
    min ((10#24 : Size).toNat - 4) 2 ≤ (chunkState [5#8, 7#8]).avail ∧
    min ((5#24 : Size).toNat - 4) 2 ≤ (chunkState [5#8]).avail := by decide

/-- A cut selector word, a cut V4 index, a cut skip word, and the second V1 index cut after the first block is
painted, as in program P4b of 95_test_vectors.md. -/
theorem witness_CutVectorChunksKeepWhatTheyPainted :
    4 ≤ (6#24 : Size).toNat ∧
    (chunkState [0#8, 0#8, 0#8]).vectorCut false true 13#24 = some { block := 0, next := 0 } ∧
    (chunkState [0x40#8, 0#8, 0#8, 0#8, 5#8, 0#8, 1#8]).vectorCut false true 13#24 =
      some { block := 1, next := 7 } ∧
    (chunkState [0x80#8, 0#8]).vectorCut true true 13#24 = some { block := 0, next := 0 } ∧
    (chunkState [1#8]).vectorCut false false 6#24 = some { block := 1, next := 1 } := by decide

theorem witness_LoadersTouchOnlyTheirTable :
    (∃ u, exec (.ldcbV4F6 4#24) (chunkState []) = .next u) ∧
    (∃ u, exec (.ldcbV4C6 4#24) (chunkState []) = .next u) ∧
    (∃ u, exec (.ldcbV1F6 4#24) (chunkState []) = .next u) ∧
    (∃ u, exec (.ldcbV1C6 4#24) (chunkState []) = .next u) ∧
    (∃ u, exec (.ldcbV4F4 4#24) (chunkState []) = .next u) ∧
    (∃ u, exec (.ldcbV4C4 4#24) (chunkState []) = .next u) ∧
    (∃ u, exec (.ldcbV1F4 4#24) (chunkState []) = .next u) ∧
    (∃ u, exec (.ldcbV1C4 4#24) (chunkState []) = .next u) :=
  ⟨⟨_, rfl⟩, ⟨_, rfl⟩, ⟨_, rfl⟩, ⟨_, rfl⟩, ⟨_, rfl⟩, ⟨_, rfl⟩, ⟨_, rfl⟩, ⟨_, rfl⟩⟩

theorem witness_VectorChunksNeverTouchTables :
    (∃ u, exec (.vecSel 4#24) (chunkState []) = .next u) ∧
    (∃ u, exec (.vecSkipSel 4#24) (chunkState []) = .next u) ∧
    (∃ u, exec (.vecV1 4#24) (chunkState []) = .next u) := ⟨⟨_, rfl⟩, ⟨_, rfl⟩, ⟨_, rfl⟩⟩

/-- Without budget, without stream, and in the last block column of the frame with exactly the one index
byte. -/
theorem witness_V1BlockPaintsItsQuadrants :
    (payloadState 0#24 [5#8]).rem < 1 ∧
    (1 ≤ (payloadState 1#24 []).rem ∧ (payloadState 1#24 []).streamLen < (payloadState 1#24 []).pos + 1) ∧
    1 ≤ (payloadState 1#24 [5#8]).rem ∧ (payloadState 1#24 [5#8]).pos + 1 ≤ (payloadState 1#24 [5#8]).streamLen ∧
    ({ payloadState 1#24 [5#8] with bX := 4#17 } : State).bX.toNat + 3 < (payloadState 1#24 [5#8]).width.toNat ∧
    ({ payloadState 1#24 [5#8] with bY := 0#33 } : State).bY.toNat + 3 < (payloadState 1#24 [5#8]).height.toNat := by
  decide

/-- One byte of budget short, one byte of stream short, and exactly four bytes. -/
theorem witness_V4BlockPaintsEachQuadrantFromItsEntry :
    (payloadState 3#24 [0#8, 1#8, 2#8, 3#8]).rem < 4 ∧
    (4 ≤ (payloadState 4#24 [0#8, 1#8, 2#8]).rem ∧
      (payloadState 4#24 [0#8, 1#8, 2#8]).streamLen < (payloadState 4#24 [0#8, 1#8, 2#8]).pos + 4) ∧
    4 ≤ (payloadState 4#24 [0#8, 1#8, 2#8, 3#8]).rem ∧
    (payloadState 4#24 [0#8, 1#8, 2#8, 3#8]).pos + 4 ≤ (payloadState 4#24 [0#8, 1#8, 2#8, 3#8]).streamLen := by
  decide

/-- How taking a flag ended: the flag, or the early end. -/
def flagOf (r : EStateM.Result Ending State Bool) : Except Ending Bool :=
  match r with
  | .ok b _ => .ok b
  | .error e _ => .error e

/-- Skip flags 1 and 0, selector flags 1 and 0, and both streams ending early. -/
theorem witness_BlockDecisionPolicy :
    flagOf (takeFlag .skip (payloadState 4#24 [0x80#8, 0#8, 0#8, 0#8])) = .ok true ∧
    flagOf (takeFlag .skip (payloadState 4#24 [0x7F#8, 0#8, 0#8, 0#8])) = .ok false ∧
    flagOf (takeFlag .sel (payloadState 4#24 [0x80#8, 0#8, 0#8, 0#8])) = .ok true ∧
    flagOf (takeFlag .sel (payloadState 4#24 [0x7F#8, 0#8, 0#8, 0#8])) = .ok false ∧
    flagOf (takeFlag .skip (payloadState 3#24 [])) = .error .stop ∧
    flagOf (takeFlag .sel (payloadState 4#24 [])) = .error (.raise .streamUnderrun 0) :=
  ⟨rfl, rfl, rfl, rfl, rfl, rfl⟩

/-- A running decode with no host command, and the step it makes. -/
theorem witness_running_decode :
    (chunkState [0x32#8, 0#8, 0#8, 4#8]).host = [] ∧ (chunkState [0x32#8, 0#8, 0#8, 4#8]).phase = .busy ∧
    ∃ t, step (chunkState [0x32#8, 0#8, 0#8, 4#8]) = .next t := ⟨rfl, rfl, ⟨_, rfl⟩⟩

theorem witness_PositionNeverDecreases :
    ∃ s t : State, s.host = [] ∧ s.phase = .busy ∧ step s = .next t :=
  ⟨_, witness_running_decode.2.2.choose, witness_running_decode.1, witness_running_decode.2.1,
    witness_running_decode.2.2.choose_spec⟩

/-- A strip slot other than the current one. -/
theorem witness_StoreChangesOnlyInTheCurrentSlot :
    (chunkState [0x32#8, 0#8, 0#8, 4#8]).host = [] ∧
    (∃ t, step (chunkState [0x32#8, 0#8, 0#8, 4#8]) = .next t) ∧
    1 ≠ (chunkState [0x32#8, 0#8, 0#8, 4#8]).si.toNat := ⟨rfl, ⟨_, rfl⟩, by decide⟩

/-- The first byte of R beyond the frame. -/
theorem witness_BlockNeverWritesItsInputs :
    (chunkState [0x32#8, 0#8, 0#8, 4#8]).host = [] ∧
    (∃ t, step (chunkState [0x32#8, 0#8, 0#8, 4#8]) = .next t) ∧
    (chunkState []).width.toNat * (chunkState []).height.toNat * 3 ≤ 96 := ⟨rfl, ⟨_, rfl⟩, by decide⟩

theorem witness_BlockAlwaysAnswersANextState : (chunkState []).host = [] := rfl

theorem witness_EveryFrameDecodeEnds :
    (frameState []).host = [] ∧ (frameState []).phase = .busy := ⟨rfl, rfl⟩

/-- The strip records of the sample state, slot by slot. -/
theorem chunkState_record (bs : List Byte) (slot : Nat) : (chunkState bs).stripRec slot =
    if slot = 0 then
      { id := 0#16, len := 64#16, top := 0#32, left := 0#16, bottom := 4#32, right := 8#16 }
    else StripRec.zero := by
  cases slot <;> rfl

theorem witness_StepKeepsCanonicalForm :
    (chunkState [0x32#8, 0#8, 0#8, 4#8]).Canonical ∧ (chunkState [0x32#8, 0#8, 0#8, 4#8]).LeftZero ∧
    ∃ t, step (chunkState [0x32#8, 0#8, 0#8, 4#8]) = .next t := by
  refine ⟨⟨by decide, by decide, by decide, by decide⟩, fun slot => ?_, ⟨_, rfl⟩⟩
  rw [chunkState_record]
  split <;> rfl

theorem witness_StepKeepsTheFrameInvariant :
    (chunkState [0x32#8, 0#8, 0#8, 4#8]).FrameInv ∧
    ∃ t, step (chunkState [0x32#8, 0#8, 0#8, 4#8]) = .next t := by
  refine ⟨⟨fun _ => by decide, fun _ _ => by decide, fun _ _ => by decide, by decide,
    by decide, by decide⟩, ⟨_, rfl⟩⟩

theorem witness_StepKeepsTheStatusAgreement :
    (chunkState [0x32#8, 0#8, 0#8, 4#8]).StatusAgrees ∧
    ∃ t, step (chunkState [0x32#8, 0#8, 0#8, 4#8]) = .next t := by
  refine ⟨⟨by decide, fun _ => rfl⟩, ⟨_, rfl⟩⟩

end Sys2Proof.Tests
end

section
/-! The family 10_state.md: the encodings, the host's register reads, and the three invariants of a step
(canonical form, status agreement, frame invariant). Every step of the block outside the frame header and the
end of a strip is a sequence of a few kinds of update (`BlockKept`), so an invariant is proved kind by kind. -/

namespace Sys2Proof.Machine

/-! ### What a turn of the block can change -/

/-- A relation that every kind of update of a chunk and of a strip's start keeps; a record keeps
`LEFT = 0` (10_state.md R26). -/
structure BlockKept (R : State → State → Prop) : Prop extends ChunkKept R where
  inherit : ∀ s : State, R s s.inherit
  record : ∀ (s : State) g, (∀ r : StripRec, r.left = 0#16 → (g r).left = 0#16) → R s (s.updCurStrip g)
  span : ∀ (s : State) p, R s { s with spanStart := p, seq := .chunkLoop }

theorem BlockKept.readStripHeader {R : State → State → Prop} (hR : BlockKept R) :
    Keeps R readStripHeader := by
  have c : Chain R := hR.toChain
  have hread : Keeps R readU16 := .readU16 c fun s _ _ => hR.seek s _
  exact .bind c hread fun _ => .bind c (.modify fun s => hR.record s _ fun _ h => h) fun _ =>
    .bind c hread fun _ => .bind c (.raiseIf c _ (by simp) _) fun _ =>
    .bind c (.modify fun s => hR.record s _ fun _ h => h) fun _ =>
    .bind c hread fun _ => .bind c (.modify fun s => hR.record s _ fun _ h => h) fun _ =>
    .bind c hread fun _ => .bind c (.modify fun s => hR.record s _ fun _ _ => rfl) fun _ =>
    .bind c hread fun _ => .bind c (.modify fun s => hR.record s _ fun _ h => h) fun _ =>
    .bind c hread fun _ => .modify fun s => hR.record s _ fun _ h => h

/-- All the start of a strip can change. -/
theorem BlockKept.stripHeaderStep {R : State → State → Prop} (hR : BlockKept R) {s t : State}
    (h : finish stripHeaderStep s = .next t) : R s t := by
  rw [finish_next] at h
  injection h with h
  subst h
  exact settle_kept hR.toChain hR.fault (.bind hR.toChain (.modify hR.inherit) fun _ =>
    .bind hR.toChain hR.readStripHeader fun _ => .modify fun s => hR.span s _) s

/-- All a turn of the block can be, for a relation that its updates keep: an update it keeps, the frame
header, or the end of a strip. -/
theorem BlockKept.advance {R : State → State → Prop} (hR : BlockKept R) {s t : State}
    (h : advance s = .next t) :
    R s t ∨ (s.phase = .busy ∧ finish frameHeaderStep s = .next t) ∨
      (s.phase = .busy ∧ t = s.endStrip) := by
  rcases advance_cases s with ⟨_, he⟩ | ⟨hb, _, he⟩ | ⟨_, _, he⟩ | ⟨hb, _, _, he⟩ | ⟨_, _, _, he⟩ <;>
    rw [he] at h
  · injection h with h
    exact .inl (h ▸ hR.refl s)
  · exact .inr (.inl ⟨hb, h⟩)
  · exact .inl (hR.stripHeaderStep h)
  · injection h with h
    exact .inr (.inr ⟨hb, h.symm⟩)
  · exact .inl (hR.toChunkKept.chunkStep h)

/-- The store after inheritance: as it was, or with the previous slot copied into slot `SI`
(40_frame_decoder.md R116, R117). -/
theorem inherit_cb_cases (s : State) :
    s.inherit.cb = s.cb ∨ s.inherit.cb = cbCopy s.cb (s.si.toNat - 1) s.si.toNat := by
  simp only [State.inherit]
  split
  · exact .inr rfl
  · exact .inl rfl

/-- The checks a frame header passes: a later frame has the latched size, a first one fits the capacities
(40_frame_decoder.md R112, R113). -/
def State.Acceptable (s : State) : Prop :=
  (s.alloc = true ∧ s.width = s.allocW ∧ s.height = s.allocH ∧ s.nstrips.toNat ≤ s.allocN.toNat) ∨
    (s.alloc = false ∧ s.nstrips.toNat ≤ s.maxStrips ∧ s.rasterNeed ≤ s.rasterCap)

/-- A frame header's turn, as a next state: a fault after some of the header, or the accepted frame's
entry. -/
theorem frameHeaderStep_next {s t : State} (h : finish frameHeaderStep s = .next t) :
    (∃ u c n, HeaderOnly s u ∧ c ≠ .none ∧ t = u.raiseFault c n) ∨
    (∃ u, HeaderOnly s u ∧ u.Acceptable ∧ t = ({ latched u with rowcur := 0#32 } : State).enterStrips) := by
  rw [finish_next] at h
  injection h with h
  rcases frameHeaderStep_cases s with ⟨u, c, n, hu, hc, he⟩ | ⟨u, hu, ha, he⟩ <;> rw [he] at h
  · exact .inl ⟨u, c, n, hu, hc, h.symm⟩
  · exact .inr ⟨u, hu, ha, h.symm⟩

/-! ### Steps that leave every memory alone -/

/-- The memories, the Codebook Store, the strip records and the parameters are the same. -/
structure SameStorage (s t : State) : Prop where
  raster : t.raster = s.raster
  stream : t.stream = s.stream
  cb : t.cb = s.cb
  strips : t.strips = s.strips
  maxStrips : t.maxStrips = s.maxStrips
  rasterCap : t.rasterCap = s.rasterCap

theorem SameStorage.trans {s t u : State} (h : SameStorage s t) (k : SameStorage t u) : SameStorage s u where
  raster := k.raster.trans h.raster
  stream := k.stream.trans h.stream
  cb := k.cb.trans h.cb
  strips := k.strips.trans h.strips
  maxStrips := k.maxStrips.trans h.maxStrips
  rasterCap := k.rasterCap.trans h.rasterCap

theorem HeaderOnly.sameStorage {s t : State} (h : HeaderOnly s t) : SameStorage s t := by
  rw [h.1]
  exact ⟨rfl, rfl, rfl, rfl, rfl, rfl⟩

theorem latched_sameStorage (s : State) : SameStorage s (latched s) := by
  rw [latched]
  split <;> exact ⟨rfl, rfl, rfl, rfl, rfl, rfl⟩

theorem enterStrips_sameStorage (s : State) : SameStorage s s.enterStrips := by
  rw [State.enterStrips]
  split <;> exact ⟨rfl, rfl, rfl, rfl, rfl, rfl⟩

theorem endStrip_sameStorage (s : State) : SameStorage s s.endStrip := by
  rw [State.endStrip]
  split <;> exact ⟨rfl, rfl, rfl, rfl, rfl, rfl⟩

theorem frameHeaderStep_sameStorage {s t : State} (h : finish frameHeaderStep s = .next t) :
    SameStorage s t := by
  rcases frameHeaderStep_next h with ⟨u, c, n, hu, _, rfl⟩ | ⟨u, hu, _, rfl⟩
  · exact hu.sameStorage.trans ⟨rfl, rfl, rfl, rfl, rfl, rfl⟩
  · have hrow : SameStorage (latched u) { latched u with rowcur := 0#32 } := ⟨rfl, rfl, rfl, rfl, rfl, rfl⟩
    exact hu.sameStorage.trans ((latched_sameStorage u).trans (hrow.trans (enterStrips_sameStorage _)))

/-- A turn of the block that is no update kept by the relation leaves every memory alone. -/
theorem BlockKept.advance_or_sameStorage {R : State → State → Prop} (hR : BlockKept R) {s t : State}
    (h : Machine.advance s = .next t) : R s t ∨ SameStorage s t := by
  rcases hR.advance h with hk | ⟨_, hf⟩ | ⟨_, rfl⟩
  · exact .inl hk
  · exact .inr (frameHeaderStep_sameStorage hf)
  · exact .inr (endStrip_sameStorage s)

/-! ### Canonical form and `LEFT` -/

/-- The sparse components are canonical and every strip record's `LEFT` is 0. -/
def State.SoundStorage (s : State) : Prop := s.Canonical ∧ s.LeftZero

theorem SameStorage.soundStorage {s t : State} (h : SameStorage s t) (hs : s.SoundStorage) :
    t.SoundStorage := by
  simpa only [State.SoundStorage, State.Canonical, State.LeftZero, State.stripRec, h.raster, h.stream, h.cb,
    h.strips] using hs

theorem leftZero_updCurStrip {s : State} {g : StripRec → StripRec} (h : s.LeftZero)
    (hg : ∀ r : StripRec, r.left = 0#16 → (g r).left = 0#16) : (s.updCurStrip g).LeftZero := by
  intro slot
  rw [State.stripRec_updCurStrip]
  split
  · exact hg _ (h _)
  · exact h slot

theorem soundStorage_kept : BlockKept fun s t => s.SoundStorage → t.SoundStorage where
  toChain := chain_imp _
  seek _ _ h := h
  flag _ f _ _ h := by cases f <;> exact h
  index _ _ h := h
  entry _ _ _ _ h :=
    have ⟨⟨hraster, hstream, hcb, hstrips⟩, hleft⟩ := h
    ⟨⟨hraster, hstream, cbSet_canonical _ _ _ _ _ hcb, hstrips⟩, hleft⟩
  column _ _ h := h
  row _ _ h := h
  paint _ _ h :=
    have ⟨⟨hraster, hrest⟩, hleft⟩ := h
    ⟨⟨paintPixels_wf _ _ _ _ _ _ hraster, hrest⟩, hleft⟩
  cid _ _ h := h
  latch _ _ _ _ h := h
  fault _ _ _ _ h := h
  inherit s h := by
    obtain ⟨⟨hraster, hstream, hcb, hstrips⟩, hleft⟩ := h
    refine ⟨⟨hraster, hstream, ?_, hstrips⟩, hleft⟩
    rcases inherit_cb_cases s with he | he <;> rw [he]
    · exact hcb
    · exact cbCopy_canonical _ _ _ hcb
  record _ _ hg h :=
    have ⟨⟨hraster, hstream, hcb, hstrips⟩, hleft⟩ := h
    ⟨⟨hraster, hstream, hcb, canonical_set _ _ _ _ hstrips⟩, leftZero_updCurStrip hleft hg⟩
  span _ _ h := h

theorem advance_soundStorage {s t : State} (hs : s.SoundStorage) (h : advance s = .next t) :
    t.SoundStorage :=
  (soundStorage_kept.advance_or_sameStorage h).elim (· hs) (·.soundStorage hs)

theorem soundStorage_hostReset {s : State} (h : s.SoundStorage) : s.hostReset.SoundStorage := by
  obtain ⟨⟨_, hstream, _⟩, _⟩ := h
  exact ⟨⟨memory_empty_wf, hstream, ⟨.nil, by simp [State.hostReset, State.reset]⟩,
    ⟨.nil, by simp [State.hostReset, State.reset]⟩⟩, fun _ => rfl⟩

/-- Settles O55: the kinds of update of the block and of the host, one by one. -/
theorem stepKeepsCanonicalForm : Obligations.StepKeepsCanonicalForm := by
  intro s t hcanon hleft hstep
  refine step_preserves (P := State.SoundStorage) hstep ⟨hcanon, hleft⟩
    (hadv := fun _ _ => advance_soundStorage)
    (hhost := fun _ _ h => h) (hstart := fun _ h _ => h) (hreset := fun _ => soundStorage_hostReset)
    (hstartPos := fun _ _ h => h) (hstreamLen := fun _ _ h => h) (hstream := ?_) (hraster := ?_)
    (hdata := fun _ _ h => h)
  · rintro u a bs ⟨⟨hraster, hstream, hrest⟩, hzero⟩
    exact ⟨⟨hraster, memory_write_wf _ a bs hstream, hrest⟩, hzero⟩
  · rintro u a bs ⟨⟨hraster, hrest⟩, hzero⟩ _
    exact ⟨⟨memory_write_wf _ a bs hraster, hrest⟩, hzero⟩

/-! ### The frame invariant -/

/-- The frame was accepted and its current strip is one of its own: what `FrameAccepted` says between the frame
header and the end of the frame. -/
def State.Accepted (s : State) : Prop :=
  s.alloc = true ∧ s.width = s.allocW ∧ s.height = s.allocH ∧ s.nstrips.toNat ≤ s.allocN.toNat ∧
    s.si.toNat < s.nstrips.toNat ∧ s.rowcur.toNat ≤ s.si.toNat * 65535

theorem frameAccepted_iff (s : State) :
    s.FrameAccepted ↔ (s.phase = .busy → s.seq ≠ .frameHeader → s.Accepted) := Iff.rfl

/-- The frame invariant between the frame header and the end of the frame, without the current record. -/
def State.InFrame (s : State) : Prop := s.LatchFits ∧ s.Accepted ∧ s.WithinCapacity

theorem State.FrameInv.inFrame {s : State} (h : s.FrameInv) (hb : s.phase = .busy)
    (hq : s.seq ≠ .frameHeader) : s.InFrame := by
  obtain ⟨hfits, hacc, _, hcap⟩ := h
  exact ⟨hfits, (frameAccepted_iff s).mp hacc hb hq, hcap⟩

theorem State.InFrame.frameInv {s : State} (h : s.InFrame) (hcur : s.StripCurrent) : s.FrameInv := by
  obtain ⟨hfits, hacc, hcap⟩ := h
  exact ⟨hfits, (frameAccepted_iff s).mpr fun _ _ => hacc, hcur, hcap⟩

/-- Outside `BUSY` only the latch and the capacities are left to say. -/
theorem frameInv_of_not_busy {s : State} (hp : s.phase ≠ .busy) (hfits : s.LatchFits)
    (hcap : s.WithinCapacity) : s.FrameInv :=
  ⟨hfits, fun hb => absurd hb hp, fun hb => absurd hb hp, hcap⟩

/-- The current strip has a slot (00_scope.md R9). -/
theorem State.InFrame.slot_lt {s : State} (h : s.InFrame) : s.si.toNat < s.maxStrips := by
  obtain ⟨hfits, ⟨halloc, _, _, hn, hsi, _⟩, _⟩ := h
  have := (hfits halloc).1
  omega

/-- The current frame lies in R (20_memory.md R55). -/
theorem State.InFrame.frame_le {s : State} (h : s.InFrame) :
    s.width.toNat * s.height.toNat * 3 ≤ s.rasterCap := by
  obtain ⟨hfits, ⟨halloc, hw, hh, _⟩, _⟩ := h
  rw [hw, hh]
  exact (hfits halloc).2

/-- With the capacities respected, the writes of a strip are inside them too. -/
theorem inFrame_kept : BlockKept fun s t => s.InFrame → t.InFrame where
  toChain := chain_imp _
  seek _ _ h := h
  flag _ f _ _ h := by cases f <;> exact h
  index _ _ h := h
  entry _ _ _ _ h := by
    have hslot := h.slot_lt
    obtain ⟨hfits, hacc, hraster, hcb, hstrips⟩ := h
    refine ⟨hfits, hacc, hraster, fun p hp => (cbSet_mem hp).elim (hcb p) fun hlt => ?_, hstrips⟩
    exact Nat.lt_of_lt_of_le hlt (Nat.mul_le_mul_right 512 hslot)
  column _ _ h := h
  row _ _ h := h
  paint _ _ h :=
    have hframe := h.frame_le
    have ⟨hfits, hacc, hraster, hrest⟩ := h
    ⟨hfits, hacc, paintPixels_mem _ hframe hraster, hrest⟩
  cid _ _ h := h
  latch _ _ _ _ h := h
  fault _ _ _ _ h := h
  inherit s h := by
    have hslot := h.slot_lt
    obtain ⟨hfits, hacc, hraster, hcb, hstrips⟩ := h
    refine ⟨hfits, hacc, hraster, ?_, hstrips⟩
    rcases inherit_cb_cases s with he | he <;> rw [he]
    · exact hcb
    · exact cbCopy_mem _ (Nat.mul_le_mul_right 512 hslot) hcb
  record s g _ h := by
    have hslot := h.slot_lt
    obtain ⟨hfits, hacc, hraster, hcb, hstrips⟩ := h
    refine ⟨hfits, hacc, hraster, hcb, fun p hp => ?_⟩
    rcases mem_set hp with hp | ⟨rfl, _⟩
    · exact hstrips p hp
    · exact hslot
  span _ _ h := h

theorem SameStorage.withinCapacity {s t : State} (h : SameStorage s t) (hs : s.WithinCapacity) :
    t.WithinCapacity := by
  simpa only [State.WithinCapacity, h.raster, h.cb, h.strips, h.maxStrips, h.rasterCap] using hs

theorem HeaderOnly.latchFits {s t : State} (h : HeaderOnly s t) (hs : s.LatchFits) : t.LatchFits := by
  rw [h.1]
  exact hs

/-- The latch of an accepted frame is the frame's own, and fits (40_frame_decoder.md R112, R113). -/
theorem latched_accepts {s : State} (hs : s.LatchFits) (h : s.Acceptable) :
    (latched s).LatchFits ∧ (latched s).alloc = true ∧ (latched s).width = (latched s).allocW ∧
      (latched s).height = (latched s).allocH ∧ (latched s).nstrips.toNat ≤ (latched s).allocN.toNat := by
  rcases h with ⟨ha, hw, hh, hn⟩ | ⟨ha, hn, hr⟩
  · rw [latched, if_pos ha]
    exact ⟨hs, ha, hw, hh, hn⟩
  · rw [latched, if_neg (by simp [ha])]
    exact ⟨fun _ => ⟨hn, hr⟩, rfl, rfl, rfl, Nat.le_refl _⟩

theorem frameHeaderStep_frameInv {s t : State} (hs : s.FrameInv)
    (h : finish frameHeaderStep s = .next t) : t.FrameInv := by
  obtain ⟨hfits, _, _, hcap⟩ := hs
  have hcap' := (frameHeaderStep_sameStorage h).withinCapacity hcap
  rcases frameHeaderStep_next h with ⟨u, c, n, hu, _, rfl⟩ | ⟨u, hu, hacc, rfl⟩
  · exact frameInv_of_not_busy (by simp) (hu.latchFits hfits) hcap'
  · obtain ⟨hlfits, halloc, hw, hh, hn⟩ := latched_accepts (hu.latchFits hfits) hacc
    by_cases h0 : (latched u).nstrips = 0#16
    · rw [State.enterStrips, if_pos h0] at hcap' ⊢
      exact frameInv_of_not_busy (by simp) hlfits hcap'
    · rw [State.enterStrips, if_neg h0] at hcap' ⊢
      have hpos : 0 < (latched u).nstrips.toNat := Nat.pos_of_ne_zero fun hz => h0 (BitVec.eq_of_toNat_eq hz)
      exact ⟨hlfits, fun _ _ => ⟨halloc, hw, hh, hn, hpos, Nat.zero_le _⟩, fun _ hq => by simp at hq, hcap'⟩

/-- The bottom of a strip is the row cursor plus a 16-bit height, without wrap (10_state.md R24). -/
theorem State.Accepted.strip_bottom {s : State} (h : s.Accepted) (height : BitVec 16) :
    (s.rowcur + height.setWidth 32).toNat = s.rowcur.toNat + height.toNat := by
  obtain ⟨_, _, _, _, hsi, hrow⟩ := h
  have := s.nstrips.isLt
  have := height.isLt
  rw [BitVec.toNat_add, BitVec.toNat_setWidth]
  omega

/-- A strip header that was read in full makes its record the current one. -/
theorem stripCurrent_of_record {s t : State} {p : Nat} (hs : s.Accepted) (hrow : t.rowcur = s.rowcur)
    (hwidth : t.width = s.width) (hrec : t.curStrip = stripRecAt s p) (hspan : t.spanStart ≤ t.pos) :
    t.StripCurrent := by
  intro _ _
  have hbottom : t.curStrip.bottom.toNat = t.rowcur.toNat + (fieldAt s (p + 8)).toNat := by
    rw [hrec, hrow]
    exact hs.strip_bottom _
  have := (fieldAt s (p + 8)).isLt
  refine ⟨?_, ?_, by omega, by omega, hspan⟩
  · rw [hrec, hrow]; rfl
  · rw [hrec, hwidth]; rfl

theorem stripHeaderStep_frameInv {s t : State} (hs : s.InFrame)
    (h : finish stripHeaderStep s = .next t) : t.FrameInv := by
  have ht : t.InFrame := inFrame_kept.stripHeaderStep h hs
  obtain ⟨_, hacc, _⟩ := hs
  have hinherit : s.inherit.Accepted := hacc
  rw [finish_next] at h
  injection h with h
  refine ht.frameInv ?_
  rcases stripHeaderStep_cases s with ⟨u, c, n, _, _, he⟩ | ⟨u, hu, hrec, he⟩ <;> rw [he] at h
  · subst h
    intro hb
    simp [settle] at hb
  · subst h
    exact stripCurrent_of_record hinherit (congrArg State.rowcur hu.1 :) (congrArg State.width hu.1 :) hrec
      (Nat.le_refl _)

theorem endStrip_frameInv {s : State} (hs : s.FrameInv) (hb : s.phase = .busy) (hq : s.seq = .chunkLoop) :
    s.endStrip.FrameInv := by
  obtain ⟨hfits, hacc, hcur, hcap⟩ := hs
  obtain ⟨halloc, hw, hh, hn, hsi, hrow⟩ := hacc hb (by simp [hq])
  obtain ⟨_, _, _, hbottom, _⟩ := hcur hb hq
  rw [State.endStrip]
  split
  · rename_i hnext
    have hsucc : (s.si + 1#16).toNat = s.si.toNat + 1 := by
      have := s.nstrips.isLt
      rw [BitVec.toNat_add]
      simp only [BitVec.toNat_ofNat]
      omega
    refine ⟨hfits, fun _ _ => ⟨halloc, hw, hh, hn, ?_, ?_⟩, fun _ hq' => by simp at hq', hcap⟩
    · rw [hsucc]
      exact hnext
    · rw [hsucc]
      simp only
      omega
  · exact frameInv_of_not_busy (by simp) hfits hcap

/-! ### `POS` in a chunk's turn -/

/-- `CSTART` stays and `POS` moves forward only, as in every handler (20_memory.md R63). -/
def Forward (s t : State) : Prop := t.cstart = s.cstart ∧ s.pos ≤ t.pos

theorem forward_chain : Chain Forward where
  refl _ := ⟨rfl, Nat.le_refl _⟩
  trans _ _ _ h k := ⟨k.1.trans h.1, Nat.le_trans h.2 k.2⟩

theorem forward_read : ReadKept Forward where
  toChain := forward_chain
  forward _ _ _ := ⟨rfl, Nat.le_add_right _ _⟩

theorem forward_setFlag (s : State) (f : FlagStream) (w m : FlagWord) : Forward s (s.setFlag f w m) :=
  ⟨by simp, by simp⟩

theorem forward_loader (t : Table) : LoaderKept Forward t where
  toReadKept := forward_read
  flag s w m := forward_setFlag s .loader w m
  index _ _ := ⟨rfl, Nat.le_refl _⟩
  entry _ _ _ := ⟨rfl, Nat.le_refl _⟩

theorem forward_vector : VectorKept Forward where
  toReadKept := forward_read
  skip s w m := forward_setFlag s .skip w m
  sel s w m := forward_setFlag s .sel w m
  column _ _ := ⟨rfl, Nat.le_refl _⟩
  row _ _ := ⟨rfl, Nat.le_refl _⟩
  paint _ _ := ⟨rfl, Nat.le_refl _⟩

/-- However a handler ends, its chunk leaves `POS` at or after `CSTART` or where the handler left it. -/
theorem chunkEnd_pos_le {s : State} (hc : s.pos ≤ s.cstart) {r : EStateM.Result Ending State Unit}
    (h : Forward s (endState r)) : s.pos ≤ (chunkEnd r).pos := by
  obtain ⟨hstart, hpos⟩ := h
  rcases r with ⟨_, t⟩ | ⟨_ | ⟨c, n⟩, t⟩ <;> simp only [endState, chunkEnd, State.raiseFault_pos] at * <;> omega

theorem exec_pos_le {i : Instr} {s t : State} (h : exec i s = .next t) : s.pos ≤ t.pos := by
  rcases exec_cases i s with ⟨_, he⟩ | ⟨_, he⟩ <;> (rw [he] at h; injection h with h; subst h)
  · exact Nat.le_refl _
  · exact chunkEnd_pos_le (s := headerLatched (chunkId i) i.size s) (Nat.le_refl _)
      (Keeps.handlerOf forward_loader forward_vector i _).1

/-- A chunk's turn never moves `POS` back (20_memory.md R63). -/
theorem chunkStep_pos_le {s t : State} (h : chunkStep s = .next t) : s.pos ≤ t.pos := by
  rcases chunkStep_cases s with ⟨_, u, he, _, hu⟩ | ⟨_, i, _, _, he⟩ | ⟨_, _, he⟩ <;> rw [he] at h
  · injection h with h
    subst h
    exact hu
  · exact Nat.le_trans (Nat.le_add_right _ 4) (exec_pos_le h)
  · rw [rejectHeader_next] at h
    injection h with h
    subst h
    split <;> exact Nat.le_add_right _ 4

/-- A chunk leaves the current strip's record, the row cursor and the span start alone. -/
theorem SameFrame.stripCurrent {s t : State} (h : SameFrame s t) (hpos : s.pos ≤ t.pos)
    (hs : s.StripCurrent) (hb : s.phase = .busy) : t.StripCurrent := by
  intro _ hq
  have hcur : t.curStrip = s.curStrip := by
    rw [State.curStrip, State.curStrip, State.stripRec, State.stripRec, h.strips, h.si]
  obtain ⟨htop, hright, hge, hle, hspan⟩ := hs hb (h.seq ▸ hq)
  rw [hcur, h.rowcur, h.width, h.spanStart]
  exact ⟨htop, hright, hge, hle, Nat.le_trans hspan hpos⟩

theorem chunkStep_frameInv {s t : State} (hs : s.FrameInv) (hb : s.phase = .busy) (hq : s.seq = .chunkLoop)
    (h : chunkStep s = .next t) : t.FrameInv := by
  have ht : t.InFrame := inFrame_kept.toChunkKept.chunkStep h (hs.inFrame hb (by simp [hq]))
  obtain ⟨_, _, hcur, _⟩ := hs
  exact ht.frameInv ((sameFrame_chunk.chunkStep h).stripCurrent (chunkStep_pos_le h) hcur hb)

theorem advance_frameInv {s t : State} (hs : s.FrameInv) (h : advance s = .next t) : t.FrameInv := by
  rcases advance_cases s with ⟨_, he⟩ | ⟨_, _, he⟩ | ⟨hb, hq, he⟩ | ⟨hb, hq, _, he⟩ | ⟨hb, hq, _, he⟩ <;>
    rw [he] at h
  · injection h with h
    exact h ▸ hs
  · exact frameHeaderStep_frameInv hs h
  · exact stripHeaderStep_frameInv (hs.inFrame hb (by simp [hq])) h
  · injection h with h
    exact h ▸ endStrip_frameInv hs hb hq
  · exact chunkStep_frameInv hs hb hq h

theorem frameInv_hostReset (s : State) : s.hostReset.FrameInv :=
  frameInv_of_not_busy (by simp [State.hostReset, State.reset])
    (fun ha => by simp [State.hostReset, State.reset] at ha)
    (by simp [State.WithinCapacity, State.hostReset, State.reset])

/-- START goes in front of the frame header, where nothing is said of a frame yet. -/
theorem frameInv_enterFrame {s : State} (h : s.FrameInv) : s.enterFrame.FrameInv := by
  obtain ⟨hfits, _, _, hcap⟩ := h
  exact ⟨hfits, fun _ hq => absurd rfl hq, fun _ hq => by simp at hq, hcap⟩

/-- Settles O56: the frame header establishes the invariant of the frame, each strip header that of its strip,
the chunks keep both, and the end of a strip moves the row cursor by at most 65535. -/
theorem stepKeepsTheFrameInvariant : Obligations.StepKeepsTheFrameInvariant := by
  intro s t hinv hstep
  refine step_preserves (P := State.FrameInv) hstep hinv (hadv := fun _ _ => advance_frameInv)
    (hhost := fun _ _ h => h) (hstart := fun _ h _ => frameInv_enterFrame h)
    (hreset := fun u _ => frameInv_hostReset u) (hstartPos := fun _ _ h => h) (hstreamLen := fun _ _ h => h)
    (hstream := fun _ _ _ h => h) (hraster := ?_) (hdata := fun _ _ h => h)
  rintro u a bs ⟨hfits, hacc, hcur, hraster, hrest⟩ hle
  refine ⟨hfits, hacc, hcur, fun p hp => ?_, hrest⟩
  rcases memory_write_mem hp with hp | ⟨_, hlt⟩
  · exact hraster p hp
  · exact Nat.lt_of_lt_of_le hlt hle

/-! ### The current slot -/

/-- `SI` stays, and every entry of every other slot (10_state.md R38). -/
def OtherSlotsKept (s t : State) : Prop :=
  t.si = s.si ∧ ∀ slot tbl (i : Byte), slot ≠ s.si.toNat → t.entry slot tbl i = s.entry slot tbl i

theorem otherSlotsKept_chain : Chain OtherSlotsKept where
  refl _ := ⟨rfl, fun _ _ _ _ => rfl⟩
  trans _ _ _ h k := ⟨k.1.trans h.1, fun slot tbl i hs =>
    (k.2 slot tbl i (h.1 ▸ hs)).trans (h.2 slot tbl i hs)⟩

theorem otherSlotsKept_of_cb {s t : State} (hsi : t.si = s.si) (hcb : t.cb = s.cb) : OtherSlotsKept s t :=
  ⟨hsi, fun _ _ _ _ => by rw [State.entry, State.entry, hcb]⟩

theorem otherSlotsKept_updEntry (s : State) (t : Table) (i : Byte) (g : Entry → Entry) :
    OtherSlotsKept s (s.updEntry t i g) :=
  ⟨rfl, fun slot tbl j hs => by rw [State.entry_updEntry, if_neg fun h => hs h.1]⟩

/-- Inheritance copies into slot `SI` alone (40_frame_decoder.md R116). -/
theorem otherSlotsKept_inherit (s : State) : OtherSlotsKept s s.inherit := by
  refine ⟨rfl, fun slot tbl i hs => ?_⟩
  rcases inherit_cb_cases s with he | he <;> rw [State.entry, he]
  · rfl
  · rw [cbCopy, cbGet_copyPlaces, if_neg fun h => hs h.1, State.entry]

theorem otherSlotsKept_kept : BlockKept OtherSlotsKept where
  toChain := otherSlotsKept_chain
  seek _ _ := otherSlotsKept_of_cb rfl rfl
  flag _ _ _ _ := otherSlotsKept_of_cb (by simp) (by simp)
  index _ _ := otherSlotsKept_of_cb rfl rfl
  entry := otherSlotsKept_updEntry
  column _ _ := otherSlotsKept_of_cb rfl rfl
  row _ _ := otherSlotsKept_of_cb rfl rfl
  paint _ _ := otherSlotsKept_of_cb rfl rfl
  cid _ _ := otherSlotsKept_of_cb rfl rfl
  latch _ _ _ _ := otherSlotsKept_of_cb rfl rfl
  fault _ _ _ _ := otherSlotsKept_of_cb rfl rfl
  inherit := otherSlotsKept_inherit
  record _ _ _ := otherSlotsKept_of_cb rfl rfl
  span _ _ := otherSlotsKept_of_cb rfl rfl

/-- Settles O50: a chunk and a strip's start write slot `SI` alone; the frame header and the end of a strip,
which move `SI`, write no entry at all. -/
theorem storeChangesOnlyInTheCurrentSlot : Obligations.StoreChangesOnlyInTheCurrentSlot := by
  intro s t hquiet hstep slot tbl i hslot
  rw [step_of_quiet hquiet] at hstep
  rcases otherSlotsKept_kept.advance_or_sameStorage hstep with ⟨_, hentries⟩ | hsame
  · exact hentries slot tbl i hslot
  · rw [State.entry, State.entry, hsame.cb]

/-! ### The status registers -/

theorem statusAgrees_raiseFault (s : State) {c : Cause} (n : Nat) (hc : c ≠ .none) :
    (s.raiseFault c n).StatusAgrees := ⟨by simp [hc], fun h => absurd h hc⟩

theorem statusAgrees_of_clear {s : State} (hp : s.phase ≠ .failed) (hc : s.cause = .none)
    (hn : s.finfo = 0) : s.StatusAgrees := ⟨by simp [hp, hc], fun _ => hn⟩

/-- While a decode runs there is no cause and no information (10_state.md R32). -/
theorem State.StatusAgrees.clear_of_busy {s : State} (h : s.StatusAgrees) (hb : s.phase = .busy) :
    s.cause = .none ∧ s.finfo = 0 := by
  have hc : s.cause = .none := by
    by_contra hne
    have := h.1.mpr hne
    simp [hb] at this
  exact ⟨hc, h.2 hc⟩

theorem statusAgrees_kept : BlockKept fun s t => s.StatusAgrees → t.StatusAgrees where
  toChain := chain_imp _
  seek _ _ h := h
  flag _ f _ _ h := by cases f <;> exact h
  index _ _ h := h
  entry _ _ _ _ h := h
  column _ _ h := h
  row _ _ h := h
  paint _ _ h := h
  cid _ _ h := h
  latch _ _ _ _ h := h
  fault s _ n hc _ := statusAgrees_raiseFault s n hc
  inherit _ h := h
  record _ _ _ h := h
  span _ _ h := h

theorem HeaderOnly.status {s t : State} (h : HeaderOnly s t) :
    t.phase = s.phase ∧ t.cause = s.cause ∧ t.finfo = s.finfo :=
  ⟨(congrArg State.phase h.1 :), (congrArg State.cause h.1 :), (congrArg State.finfo h.1 :)⟩

theorem latched_status (s : State) :
    (latched s).phase = s.phase ∧ (latched s).cause = s.cause ∧ (latched s).finfo = s.finfo := by
  rw [latched]
  split <;> exact ⟨rfl, rfl, rfl⟩

/-- Entering the strips of a frame, or ending a frame without strips, raises nothing. -/
theorem statusAgrees_enterStrips {s : State} (hb : s.phase = .busy) (hc : s.cause = .none)
    (hn : s.finfo = 0) : s.enterStrips.StatusAgrees := by
  rw [State.enterStrips]
  split
  · exact statusAgrees_of_clear (by simp) hc hn
  · exact statusAgrees_of_clear (by simp [hb]) hc hn

theorem statusAgrees_endStrip {s : State} (hb : s.phase = .busy) (hc : s.cause = .none)
    (hn : s.finfo = 0) : s.endStrip.StatusAgrees := by
  rw [State.endStrip]
  split
  · exact statusAgrees_of_clear (by simp [hb]) hc hn
  · exact statusAgrees_of_clear (by simp) hc hn

theorem frameHeaderStep_statusAgrees {s t : State} (hb : s.phase = .busy) (hc : s.cause = .none)
    (hn : s.finfo = 0) (h : finish frameHeaderStep s = .next t) : t.StatusAgrees := by
  rcases frameHeaderStep_next h with ⟨u, c, n, _, hne, rfl⟩ | ⟨u, hu, _, rfl⟩
  · exact statusAgrees_raiseFault u n hne
  · obtain ⟨hup, huc, hun⟩ := hu.status
    obtain ⟨hlp, hlc, hln⟩ := latched_status u
    exact statusAgrees_enterStrips (hlp.trans (hup.trans hb)) (hlc.trans (huc.trans hc))
      (hln.trans (hun.trans hn))

theorem advance_statusAgrees {s t : State} (hs : s.StatusAgrees) (h : advance s = .next t) :
    t.StatusAgrees := by
  rcases statusAgrees_kept.advance h with hk | ⟨hb, hf⟩ | ⟨hb, rfl⟩
  · exact hk hs
  · obtain ⟨hc, hn⟩ := hs.clear_of_busy hb
    exact frameHeaderStep_statusAgrees hb hc hn hf
  · obtain ⟨hc, hn⟩ := hs.clear_of_busy hb
    exact statusAgrees_endStrip hb hc hn

/-- Settles O57: a fault sets all three registers together, START and reset clear them together, and nothing
else writes `CAUSE` or `FINFO` or leaves `FAILED`. -/
theorem stepKeepsTheStatusAgreement : Obligations.StepKeepsTheStatusAgreement := by
  intro s t hs hstep
  exact step_preserves (P := State.StatusAgrees) hstep hs (hadv := fun _ _ => advance_statusAgrees)
    (hhost := fun _ _ h => h)
    (hstart := fun _ _ _ => statusAgrees_of_clear (by simp) (by simp) (by simp))
    (hreset := fun _ _ => statusAgrees_of_clear (by simp [State.hostReset, State.reset]) rfl rfl)
    (hstartPos := fun _ _ h => h) (hstreamLen := fun _ _ h => h) (hstream := fun _ _ _ h => h)
    (hraster := fun _ _ _ h _ => h) (hdata := fun _ _ h => h)

/-! ### The encodings, the host's reads, and reset -/

/-- Settles O12. -/
theorem codesOfPhaseAndCause : Obligations.CodesOfPhaseAndCause := ⟨rfl, rfl⟩

/-- The registers whose reads have a meaning in `BUSY` (60_exceptions.md R218; log entry 8). -/
theorem allowedWhileBusy_readReg (r : HostReg) :
    (HostCmd.readReg r).allowedWhileBusy = true ↔ r = .phase ∨ r = .cause ∨ r = .finfo := by
  cases r <;> simp [HostCmd.allowedWhileBusy]

/-- A register read in any phase: refused, or the register's value in `hostData`. -/
theorem step_readReg (s : State) (rest : List HostCmd) (r : HostReg) :
    step { s with host := .readReg r :: rest } =
      if s.phase = .busy ∧ (HostCmd.readReg r).allowedWhileBusy = false then
        .refused (.hostAccessWhileBusy (.readReg r))
      else .next { s with host := rest, hostData := s.hostReg r } := by
  cases r <;> rfl

theorem hostReg_phase (s : State) : s.hostReg .phase =
    (match s.phase with | .idle => 0 | .busy => 1 | .done => 2 | .failed => 3) := by
  rw [State.hostReg]
  cases s.phase <;> rfl

theorem hostReg_cause (s : State) : s.hostReg .cause = (match s.cause with
    | .none => 0 | .unknownChunk => 1 | .streamUnderrun => 2 | .badChunkSize => 3 | .badStripLength => 4
    | .capacity => 5 | .dimMismatch => 6) := by
  rw [State.hostReg]
  cases s.cause <;> rfl

/-- Settles O19. -/
theorem hostReadsReturnTheRegisters : Obligations.HostReadsReturnTheRegisters := by
  refine ⟨fun s rest r => ⟨fun hok => ?_, fun hb hp hc hn => ?_⟩, fun s => ?_⟩
  · rw [step_readReg, if_neg]
    rintro ⟨hb, hforbidden⟩
    have hallowed := (allowedWhileBusy_readReg r).mpr (hok.resolve_left fun h => h hb)
    simp [hallowed] at hforbidden
  · have hforbidden := mt (allowedWhileBusy_readReg r).mp (by simp [hp, hc, hn])
    rw [step_readReg, if_pos ⟨hb, by simpa using hforbidden⟩]
  · exact ⟨hostReg_phase s, hostReg_cause s, rfl, rfl, rfl, rfl, rfl, rfl, rfl, rfl⟩

/-- Settles O54: reset holds nothing, has no frame and no cause. -/
theorem resetMeetsTheInvariants : Obligations.ResetMeetsTheInvariants :=
  ⟨⟨memory_empty_wf, memory_empty_wf, ⟨.nil, by simp [State.reset]⟩, ⟨.nil, by simp [State.reset]⟩⟩,
    fun _ => rfl,
    statusAgrees_of_clear (by simp [State.reset]) rfl rfl,
    frameInv_of_not_busy (by simp [State.reset]) (fun ha => by simp [State.reset] at ha)
      (by simp [State.WithinCapacity, State.reset])⟩

end Sys2Proof.Machine
end

section
/-! The family 20_memory.md: the stream reads in both their endings, the byte memory after a write, and two
rules of the block's own step: `POS` only moves forward, and the block's inputs and the raster beyond the frame
are read-only. -/

namespace Sys2Proof.Machine

/-! ### The stream reads, in both their endings -/

/-- The bytes of a read, by their offsets (20_memory.md R52). -/
theorem streamBytes_eq_map_range (s : State) (a n : Nat) :
    streamBytes s a n = (List.range n).map fun k => streamByte s (a + k) := by
  induction n generalizing a with
  | zero => rfl
  | succ n ih =>
    rw [streamBytes, ih, List.range_succ_eq_map, List.map_cons, List.map_map]
    simp [Function.comp_def, Nat.add_comm, Nat.add_left_comm]

theorem readBytes_eq (n : Nat) (s : State) : readBytes n s =
    if s.streamLen < s.pos + n then .error (.raise .streamUnderrun s.pos) s
    else .ok ((List.range n).map fun k => streamByte s (s.pos + k)) { s with pos := s.pos + n } := by
  split
  · exact readBytes_under ‹_›
  · rw [readBytes_ok (by omega), streamBytes_eq_map_range]

theorem readU8_eq (s : State) : readU8 s =
    if s.streamLen < s.pos + 1 then .error (.raise .streamUnderrun s.pos) s
    else .ok (streamByte s s.pos) { s with pos := s.pos + 1 } := by
  split
  · exact readU8_under ‹_›
  · exact readU8_ok (by omega)

theorem readU16_eq (s : State) : readU16 s =
    if s.streamLen < s.pos + 2 then .error (.raise .streamUnderrun s.pos) s
    else .ok (BitVec.ofNat 16 (s.field16 s.pos)) { s with pos := s.pos + 2 } := by
  split
  · exact readU16_under ‹_›
  · exact readU16_ok (by omega)

/-- The 24-bit read has a third ending, between its two parts (20_memory.md R60). -/
theorem readU24_eq (s : State) : readU24 s =
    if s.streamLen < s.pos + 1 then .error (.raise .streamUnderrun s.pos) s
    else if s.streamLen < s.pos + 3 then
      .error (.raise .streamUnderrun (s.pos + 1)) { s with pos := s.pos + 1 }
    else .ok (BitVec.ofNat 24 (s.field24 s.pos)) { s with pos := s.pos + 3 } := by
  split
  · exact readU24_under ‹_›
  · split
    · exact readU24_split (by omega) ‹_›
    · exact readU24_ok (by omega)

/-- Four bytes in big-endian order are two 16-bit fields in that order (20_memory.md R61). -/
theorem field32_eq_bytes (s : State) (a : Nat) : s.field32 a =
    (((streamByte s a).toNat * 256 + (streamByte s (a + 1)).toNat) * 256 +
      (streamByte s (a + 2)).toNat) * 256 + (streamByte s (a + 3)).toNat := by
  simp only [State.field32, State.field16, Nat.add_assoc, Nat.reduceAdd]
  omega

theorem readU32_eq (s : State) : readU32 s =
    if s.streamLen < s.pos + 4 then .error (.raise .streamUnderrun s.pos) s
    else .ok (BitVec.ofNat 32 (s.field32 s.pos)) { s with pos := s.pos + 4 } := by
  split
  · exact readU32_under ‹_›
  · rw [readU32_ok (by omega), field32_eq_bytes]

/-- Settles O1, read by read. -/
theorem streamReadsAreBigEndianOrUnderrun : Obligations.StreamReadsAreBigEndianOrUnderrun := fun s =>
  ⟨readU8_eq s, readU16_eq s, readU24_eq s, readU32_eq s, fun n => readBytes_eq n s⟩

/-! ### The byte memory after a write -/

/-- What every address holds after a write (20_memory.md R56). -/
theorem memory_read_write (m : Memory) (a : Nat) (bs : List Byte) (k : Nat) :
    (m.write a bs).read k = if a ≤ k ∧ k < a + bs.length then bs[k - a]? else m.read k := by
  split
  · rename_i hin
    obtain ⟨j, rfl⟩ := Nat.exists_eq_add_of_le hin.1
    rw [memory_read_write_inside m a bs j (by omega), Nat.add_sub_cancel_left]
  · exact memory_read_write_outside m a bs k (by omega)

/-- Settles O2. -/
theorem memoryWriteStoresItsBytesOnly : Obligations.MemoryWriteStoresItsBytesOnly := fun m a bs =>
  ⟨memory_read_write m a bs, memory_write_wf m a bs⟩

/-! ### `POS` in the block's own step -/

@[simp] theorem latched_pos (s : State) : (latched s).pos = s.pos := by
  rw [latched]
  split <;> rfl

@[simp] theorem State.enterStrips_pos (s : State) : s.enterStrips.pos = s.pos := by
  rw [State.enterStrips]
  split <;> rfl

@[simp] theorem State.endStrip_pos (s : State) : s.endStrip.pos = s.pos := by
  rw [State.endStrip]
  split <;> rfl

theorem frameHeaderStep_pos_le {s t : State} (h : finish frameHeaderStep s = .next t) : s.pos ≤ t.pos := by
  rcases frameHeaderStep_next h with ⟨u, c, n, hu, _, rfl⟩ | ⟨u, hu, _, rfl⟩
  · exact hu.2
  · simpa using hu.2

theorem stripHeaderStep_pos_le {s t : State} (h : finish stripHeaderStep s = .next t) : s.pos ≤ t.pos := by
  rw [finish_next] at h
  injection h with h
  subst h
  rcases stripHeaderStep_cases s with ⟨u, c, n, ⟨_, hpos, _⟩, _, he⟩ | ⟨u, ⟨_, hpos, _⟩, _, he⟩ <;>
    rw [he] <;> exact hpos

/-- Headers and chunks are read forward, and the end of a strip reads nothing (20_memory.md R63). -/
theorem advance_pos_le {s t : State} (h : advance s = .next t) : s.pos ≤ t.pos := by
  rcases advance_cases s with ⟨_, he⟩ | ⟨_, _, he⟩ | ⟨_, _, he⟩ | ⟨_, _, _, he⟩ | ⟨_, _, _, he⟩ <;>
    rw [he] at h
  · injection h with h
    exact h ▸ Nat.le_refl _
  · exact frameHeaderStep_pos_le h
  · exact stripHeaderStep_pos_le h
  · injection h with h
    exact h ▸ s.endStrip_pos.ge
  · exact chunkStep_pos_le h

/-- Settles O49. -/
theorem positionNeverDecreases : Obligations.PositionNeverDecreases := by
  intro s t hquiet _ hstep
  rw [step_of_quiet hquiet] at hstep
  exact advance_pos_le hstep

/-! ### What the block only reads -/

/-- What is given to the block from outside: S, the host's registers, the parameters, and the host's side of the
model (10_state.md R33, R41). -/
structure Inputs where
  stream : Memory
  streamLen : Nat
  startPos : Nat
  maxStrips : Nat
  rasterCap : Nat
  epoch : Nat
  hostData : Nat
  host : List HostCmd

/-- The inputs as a state holds them. -/
def State.inputs (s : State) : Inputs where
  stream := s.stream
  streamLen := s.streamLen
  startPos := s.startPos
  maxStrips := s.maxStrips
  rasterCap := s.rasterCap
  epoch := s.epoch
  hostData := s.hostData
  host := s.host

theorem inputs_kept : BlockKept fun s t => t.inputs = s.inputs where
  toChain := chain_eq State.inputs
  seek _ _ := rfl
  flag _ f _ _ := by cases f <;> rfl
  index _ _ := rfl
  entry _ _ _ _ := rfl
  column _ _ := rfl
  row _ _ := rfl
  paint _ _ := rfl
  cid _ _ := rfl
  latch _ _ _ _ := rfl
  fault _ _ _ _ := rfl
  inherit _ := rfl
  record _ _ _ := rfl
  span _ _ := rfl

@[simp] theorem latched_inputs (s : State) : (latched s).inputs = s.inputs := by
  rw [latched]
  split <;> rfl

@[simp] theorem State.enterStrips_inputs (s : State) : s.enterStrips.inputs = s.inputs := by
  rw [State.enterStrips]
  split <;> rfl

@[simp] theorem State.endStrip_inputs (s : State) : s.endStrip.inputs = s.inputs := by
  rw [State.endStrip]
  split <;> rfl

theorem HeaderOnly.inputs {s t : State} (h : HeaderOnly s t) : t.inputs = s.inputs :=
  (congrArg State.inputs h.1 :)

theorem frameHeaderStep_inputs {s t : State} (h : finish frameHeaderStep s = .next t) :
    t.inputs = s.inputs := by
  rcases frameHeaderStep_next h with ⟨u, c, n, hu, _, rfl⟩ | ⟨u, hu, _, rfl⟩
  · exact hu.inputs
  · rw [State.enterStrips_inputs]
    exact (latched_inputs u).trans hu.inputs

theorem advance_inputs {s t : State} (h : advance s = .next t) : t.inputs = s.inputs := by
  rcases inputs_kept.advance h with hkept | ⟨_, hf⟩ | ⟨_, rfl⟩
  · exact hkept
  · exact frameHeaderStep_inputs hf
  · exact s.endStrip_inputs

/-- The frame's size stays, and every byte of R beyond the frame (20_memory.md R50, R55). -/
def BeyondFrameKept (s t : State) : Prop :=
  t.width = s.width ∧ t.height = s.height ∧
    ∀ a, s.width.toNat * s.height.toNat * 3 ≤ a → t.raster.read a = s.raster.read a

theorem beyondFrameKept_of_raster {s t : State} (hw : t.width = s.width) (hh : t.height = s.height)
    (hr : t.raster = s.raster) : BeyondFrameKept s t := ⟨hw, hh, fun _ _ => by rw [hr]⟩

theorem beyondFrameKept_chain : Chain BeyondFrameKept where
  refl _ := beyondFrameKept_of_raster rfl rfl rfl
  trans _ _ _ := by
    rintro ⟨hw, hh, hr⟩ ⟨kw, kh, kr⟩
    exact ⟨kw.trans hw, kh.trans hh, fun a ha => (kr a (by rwa [hw, hh])).trans (hr a ha)⟩

/-- Painting is the only kind of update that writes R, and it stays inside the frame (43_yuv_to_rgb.md R191). -/
theorem beyondFrameKept_kept : BlockKept BeyondFrameKept where
  toChain := beyondFrameKept_chain
  seek _ _ := beyondFrameKept_of_raster rfl rfl rfl
  flag _ _ _ _ := beyondFrameKept_of_raster (by simp) (by simp) (by simp)
  index _ _ := beyondFrameKept_of_raster rfl rfl rfl
  entry _ _ _ _ := beyondFrameKept_of_raster rfl rfl rfl
  column _ _ := beyondFrameKept_of_raster rfl rfl rfl
  row _ _ := beyondFrameKept_of_raster rfl rfl rfl
  paint _ _ := ⟨rfl, rfl, paintPixels_beyond _ _ _ _ _ _⟩
  cid _ _ := beyondFrameKept_of_raster rfl rfl rfl
  latch _ _ _ _ := beyondFrameKept_of_raster rfl rfl rfl
  fault _ _ _ _ := beyondFrameKept_of_raster rfl rfl rfl
  inherit _ := beyondFrameKept_of_raster rfl rfl rfl
  record _ _ _ := beyondFrameKept_of_raster rfl rfl rfl
  span _ _ := beyondFrameKept_of_raster rfl rfl rfl

/-- The frame header, which gives the frame its size, leaves R as it is. -/
theorem advance_read_beyond {s t : State} (h : advance s = .next t) {a : Nat}
    (ha : s.width.toNat * s.height.toNat * 3 ≤ a) : t.raster.read a = s.raster.read a := by
  rcases beyondFrameKept_kept.advance_or_sameStorage h with ⟨_, _, hread⟩ | hsame
  · exact hread a ha
  · rw [hsame.raster]

/-- Settles O51: no kind of update of the block writes an input, and R is written by painting alone. -/
theorem blockNeverWritesItsInputs : Obligations.BlockNeverWritesItsInputs := by
  intro s t hquiet hstep
  rw [step_of_quiet hquiet] at hstep
  have hinputs := advance_inputs hstep
  simp only [State.inputs, Inputs.mk.injEq] at hinputs
  obtain ⟨hstream, hlen, hstart, hstrips, hcap, hepoch, hdata, hhost⟩ := hinputs
  exact ⟨hstream, hlen, hstart, hstrips, hcap, hepoch, hdata, hhost.trans hquiet,
    fun _ ha => advance_read_beyond hstep ha⟩

end Sys2Proof.Machine
end

section
/-! The family 30_encoding.md: the decoder and the encoder undo each other, on headers of every size; the meaning
of a chunk against the mode bits of its id and its stored size; and two reads, a strip header with a short length
and a codebook entry. -/

namespace Sys2Proof.Machine

/-! ### The decoder against the encoder -/

theorem decode_of_listed {id z2 z1 z0 : Byte} {i : Instr}
    (h : instrOfHeader id (sizeOfBytes z2 z1 z0) = some i) (rest : List Byte) :
    decode (id :: z2 :: z1 :: z0 :: rest) = .ok (i, rest) := by
  rw [decode, h]

theorem decode_of_unlisted {id z2 z1 z0 : Byte} (h : instrOfHeader id (sizeOfBytes z2 z1 z0) = none)
    (rest : List Byte) : decode (id :: z2 :: z1 :: z0 :: rest) = .error (.unknownChunk id) := by
  rw [decode, h]

/-- The only way to decode: four bytes, whose id and size the opcode table lists. -/
theorem decode_eq_ok {bs rest : List Byte} {i : Instr} (h : decode bs = .ok (i, rest)) :
    ∃ id z2 z1 z0, bs = id :: z2 :: z1 :: z0 :: rest ∧
      instrOfHeader id (sizeOfBytes z2 z1 z0) = some i := by
  unfold decode at h
  split at h
  · split at h
    · cases h
      exact ⟨_, _, _, _, rfl, ‹_›⟩
    · cases h
  · cases h

/-- Settles O7: the size bytes of a header give its size back, and the table lists every instruction under its
id. -/
theorem decodeOfEncodeIsTheInstruction : Obligations.DecodeOfEncodeIsTheInstruction := by
  intro i rest
  refine decode_of_listed ?_ rest
  rw [sizeOfBytes_extract, instrOfHeader_chunkId]

/-- A size keeps the three bytes it was read from (30_encoding.md R86). -/
theorem headerBytes_sizeOfBytes (id z2 z1 z0 : Byte) :
    headerBytes id (sizeOfBytes z2 z1 z0) = [id, z2, z1, z0] := by
  simp only [headerBytes, sizeOfBytes, List.cons.injEq, and_true, true_and]
  refine ⟨?_, ?_, ?_⟩ <;>
  · apply BitVec.eq_of_getLsbD_eq
    intro j hj
    simp only [BitVec.getLsbD_extractLsb', BitVec.getLsbD_append]
    grind

/-- Settles O8: what decodes was a listed id and a size, and a size keeps its bytes. -/
theorem decodedBytesAreTheEncoding : Obligations.DecodedBytesAreTheEncoding := by
  intro bs i rest h
  obtain ⟨id, z2, z1, z0, rfl, hi⟩ := decode_eq_ok h
  obtain ⟨hid, hsize⟩ := instrOfHeader_some hi
  rw [encode, hid, hsize, headerBytes_sizeOfBytes]
  rfl

/-- The opcode table lists the instructions' ids and no other, for every size (30_encoding.md R85, R97). -/
theorem instrOfHeader_eq_none {id : Byte} (h : ∀ i : Instr, chunkId i ≠ id) (z : Size) :
    instrOfHeader id z = none := by
  cases hi : instrOfHeader id z with
  | none => rfl
  | some i => exact absurd (instrOfHeader_some hi).1 (h i)

/-- Settles O9; the count is by evaluation of the table on the 256 ids. -/
theorem unlistedIdsAreUnknownChunks : Obligations.UnlistedIdsAreUnknownChunks :=
  ⟨fun _ _ _ _ rest h => decode_of_unlisted (instrOfHeader_eq_none h _) rest, by decide +kernel⟩

/-- The header word of an instruction, as a table word, decodes to the instruction. -/
theorem decodeTableWord_headerWord (i : Instr) :
    decodeTableWord 32 (Laws.headerWord i).toNat = some i := by
  have hbytes : tableWordBytes 32 (Laws.headerWord i).toNat = encode i ++ [] := by
    rw [tableWordBytes, Nat.mod_eq_of_lt (Laws.headerWord i).isLt, BitVec.ofNat_toNat, BitVec.setWidth_eq,
      Laws.headerWord, Laws.wordBytes_packWord, encode, List.append_nil]
  rw [decodeTableWord, hbytes, decodeOfEncodeIsTheInstruction]

/-- Settles O10: eleven header words, and one whose id is not listed. -/
theorem headerWordsDecode : Obligations.HeaderWordsDecode :=
  ⟨decodeTableWord_headerWord (.ldcbV4F6 16#24), decodeTableWord_headerWord (.ldcbV4C6 20#24),
    decodeTableWord_headerWord (.ldcbV1F6 10#24), decodeTableWord_headerWord (.ldcbV1C6 14#24),
    decodeTableWord_headerWord (.ldcbV4F4 12#24), decodeTableWord_headerWord (.ldcbV4C4 12#24),
    decodeTableWord_headerWord (.ldcbV1F4 10#24), decodeTableWord_headerWord (.ldcbV1C4 7#24),
    decodeTableWord_headerWord (.vecSel 13#24), decodeTableWord_headerWord (.vecSkipSel 8#24),
    decodeTableWord_headerWord (.vecV1 6#24), rfl⟩

/-! ### What an instruction means, by its id and its size -/

/-- Class 2 is the loader: bits 1, 0 and 2 of the id are its table, mode and form (30_encoding.md R84). -/
theorem handlerOf_class2 {i : Instr} (h : (chunkId i).extractLsb' 4 4 = 2#4) :
    handlerOf i =
      loadCodebook (tableOfId (chunkId i)) (conditionalOfId (chunkId i)) (formOfId (chunkId i)) := by
  cases i with
  | vecSel | vecSkipSel | vecV1 => simp [chunkId] at h
  | _ => simp [handlerOf, chunkId, tableOfId, conditionalOfId, formOfId]

/-- Class 3 is the vector unpacker: bits 0 and 1 of the id are its two flag streams (30_encoding.md R84). -/
theorem handlerOf_class3 {i : Instr} (h : (chunkId i).extractLsb' 4 4 = 3#4) :
    handlerOf i = decodeVectors (skipOfId (chunkId i)) (selOfId (chunkId i)) := by
  cases i with
  | vecSel | vecSkipSel | vecV1 => simp [handlerOf, chunkId, skipOfId, selOfId]
  | _ => simp [chunkId] at h

/-- Settles O11, class by class. -/
theorem meaningsFollowTheModeBits : Obligations.MeaningsFollowTheModeBits :=
  ⟨fun i s h => by rw [exec_eq, handlerOf_class2 h], fun i s h => by rw [exec_eq, handlerOf_class3 h]⟩

/-- Settles O33: every meaning is a chunk, and the size is judged before the handler runs. -/
theorem everyChunkTrapsOnASmallSize : Obligations.EveryChunkTrapsOnASmallSize := by
  intro i s h
  rw [exec_eq, runChunk_small h]
  rfl

/-! ### A strip header with a short length -/

theorem State.AtStripHeader.step_eq {s : State} (h : s.AtStripHeader) :
    step s = .next (settle (stripHeaderStep s)) := by
  obtain ⟨hquiet, hbusy, hseq⟩ := h
  rw [step_of_quiet hquiet, advance, hbusy, hseq]
  rfl

/-- The strip header's reads give the fields of S. -/
theorem fieldAt_eq (s : State) (a : Nat) : fieldAt s a = BitVec.ofNat 16 (s.field16 a) := rfl

theorem fieldAt_toNat (s : State) (a : Nat) : (fieldAt s a).toNat = s.field16 a := by
  have hhi := (streamByte s a).isLt
  have hlo := (streamByte s (a + 1)).isLt
  rw [fieldAt_eq, BitVec.toNat_ofNat, State.field16]
  omega

/-- The start of a strip whose stored length is below 12 (30_encoding.md R87). -/
theorem stripHeaderStep_short {s : State} (h : s.pos + 4 ≤ s.streamLen)
    (hl : s.field16 (s.pos + 2) < 12) :
    ∃ t, stripHeaderStep s = .error (.raise .badStripLength (s.field16 (s.pos + 2))) t ∧
      StripOnly s.inherit t ∧ t.pos = s.pos + 4 ∧
      t.curStrip = { s.curStrip with id := fieldAt s s.pos } := by
  rw [← fieldAt_toNat] at hl
  obtain ⟨t, he, honly, hpos, hrec⟩ := readStripHeader_short (s := s.inherit) h hl
  refine ⟨t, ?_, honly, hpos, hrec⟩
  rw [stripHeaderStep, act_bind_ok (act_modify _ _), act_bind_error he, ← fieldAt_toNat]
  rfl

/-- Settles O26: the fault is taken in the state that the header's two reads left. -/
theorem shortStripLengthFails : Obligations.ShortStripLengthFails := by
  intro s hat hlen hshort
  obtain ⟨t, he, ⟨hsame, -, hother⟩, hpos, hrec⟩ := stripHeaderStep_short hlen hshort
  refine ⟨t.raiseFault .badStripLength (s.field16 (s.pos + 2)), ?_, ?_, fun slot => ?_⟩
  · rw [hat.step_eq, he, settle]
  · rw [hsame, hpos]
    rfl
  · have hsi : t.si = s.si := by rw [hsame]; rfl
    split
    · rename_i hslot
      rw [hslot, ← hsi]
      exact hrec
    · exact hother slot ‹_›

/-! ### A codebook entry that the stream holds -/

/-- Of two splices over the same keys the second stands. -/
theorem sparseSplice_splice {α : Type} (l mid mid' : List (Nat × α)) (a n : Nat)
    (hmid : ∀ p ∈ mid, a ≤ p.1 ∧ p.1 < a + n) :
    sparseSplice (sparseSplice l a n mid) a n mid' = sparseSplice l a n mid' := by
  have hbelow : (sparseSplice l a n mid).filter (fun p => p.1 < a) = l.filter (fun p => p.1 < a) := by
    have hin : mid.filter (fun p => p.1 < a) = [] := by
      simpa [List.filter_eq_nil_iff] using fun k v h => (hmid (k, v) h).1
    simpa [sparseSplice, List.filter_filter, hin] using
      fun k v _ (h : k < a) => Nat.lt_add_right n h
  have habove : (sparseSplice l a n mid).filter (fun p => a + n ≤ p.1) =
      l.filter (fun p => a + n ≤ p.1) := by
    have hin : mid.filter (fun p => a + n ≤ p.1) = [] := by
      simpa [List.filter_eq_nil_iff] using fun k v h => (hmid (k, v) h).2
    simpa [sparseSplice, List.filter_filter, hin] using
      fun k v _ (h : a + n ≤ k) => Nat.le_of_add_right_le h
  rw [sparseSplice, hbelow, habove, sparseSplice]

/-- Of two writes of one entry the second stands. -/
theorem cbSet_set (cb : List (Nat × Entry)) (j : Nat) (t : Table) (i : Byte) (d e : Entry) :
    cbSet (cbSet cb j t i d) j t i e = cbSet cb j t i e := by
  refine sparseSplice_splice _ _ _ _ _ fun p hp => ?_
  have hkey : p.1 = cbKey j t i := by
    split at hp <;> simp_all
  omega

/-- Two updates of one entry are one update by both. -/
theorem State.updEntry_updEntry (s : State) (t : Table) (i : Byte) (f g : Entry → Entry) :
    (s.updEntry t i f).updEntry t i g = s.updEntry t i fun e => g (f e) := by
  have hread : (s.updEntry t i f).entry s.si.toNat t i = f (s.entry s.si.toNat t i) :=
    cbGet_set_same _ _ _ _ _
  rw [State.updEntry, State.updEntry_si, hread, State.setEntry, State.updEntry_cb, cbSet_set]
  rfl

/-- The state inside the read of an entry: `k` of its bytes are read, and what they changed of the entry is
`f`. -/
def State.entryRead (s : State) (t : Table) (i : Byte) (k : Nat) (f : Entry → Entry) : State :=
  (s.atPos (s.pos + k)).updEntry t i f

theorem State.entryRead_updEntry (s : State) (t : Table) (i : Byte) (k : Nat) (f g : Entry → Entry) :
    (s.entryRead t i k f).updEntry t i g = s.entryRead t i k fun e => g (f e) :=
  State.updEntry_updEntry _ t i f g

theorem loadField_first {t : Table} {i : Byte} {put : Byte → Entry → Entry} {s : State}
    (h : s.pos + 1 ≤ s.streamLen) :
    loadField t i put s = .ok () (s.entryRead t i 1 (put (s.payload 0))) := loadField_ok h

/-- The next field of an entry takes the next byte of the payload (41_codebook_loader.md R145). -/
theorem loadField_next {t : Table} {i : Byte} {put : Byte → Entry → Entry} {s : State} {k : Nat}
    {f : Entry → Entry} (h : s.pos + (k + 1) ≤ s.streamLen) :
    loadField t i put (s.entryRead t i k f) =
      .ok () (s.entryRead t i (k + 1) fun e => put (s.payload k) (f e)) :=
  (loadField_ok (s := s.entryRead t i k f) h).trans
    (congrArg (EStateM.Result.ok ()) (s.entryRead_updEntry t i (k + 1) f (put (s.payload k))))

/-- The four luma bytes of either form (30_encoding.md R92). -/
theorem loadLuma_ok {t : Table} {i : Byte} {s : State} (h : s.pos + 4 ≤ s.streamLen) :
    loadLuma t i s = .ok () (s.entryRead t i 4 fun e =>
      { e with y0 := s.payload 0, y1 := s.payload 1, y2 := s.payload 2, y3 := s.payload 3 }) := by
  rw [loadLuma, act_bind_ok (loadField_first (by omega)), act_bind_ok (loadField_next (by omega)),
    act_bind_ok (loadField_next (by omega)), loadField_next h]

/-- The bias of a chroma byte, as a number (30_encoding.md R90). -/
theorem biasChroma_eq (c : Byte) : biasChroma c = BitVec.ofNat 8 ((c.toNat + 128) % 256) := by
  apply BitVec.eq_of_toNat_eq
  simp [biasChroma]

/-- An entry of either form that the stream holds is the entry its bytes say (41_codebook_loader.md R145,
R146). -/
theorem loadEntry_ok {t : Table} {form : EntryForm} {i : Byte} {s : State}
    (h : s.pos + form.width ≤ s.streamLen) :
    loadEntry t form i s = .ok () (s.entryRead t i form.width fun _ => entryAt form s.payload 0) := by
  cases form with
  | six =>
    have h6 : s.pos + 6 ≤ s.streamLen := h
    rw [loadEntry, loadEntry6, act_bind_ok (loadLuma_ok (by omega)), act_bind_ok (loadField_next (by omega)),
      loadField_next h6, biasChroma_eq, biasChroma_eq]
    rfl
  | four =>
    rw [loadEntry, loadEntry4, act_bind_ok (loadLuma_ok h), act_modify, State.entryRead_updEntry]
    rfl

/-- Settles O36: the read is one update of one entry. -/
theorem entryReadFillsItsPlace : Obligations.EntryReadFillsItsPlace := fun _ _ _ _ h =>
  ⟨_, loadEntry_ok h, rfl, fun slot t' k => State.entry_updEntry _ _ t' _ k _ slot⟩

end Sys2Proof.Machine
end

section
/-! The family 40_frame_decoder.md: START and the frame header, the start and the end of a strip, the chunk header,
how a chunk ends, and that every frame decode ends. Every handler reads inside its chunk's payload (`Budgeted`), so
a chunk ends at its stored size or in `StreamUnderrun`; and every turn of the block leaves less of the decode to do
(`State.remaining`). -/

namespace Sys2Proof.Machine

/-! ### START -/

/-- Settles O15: outside `BUSY` the command is START's own effect. -/
theorem startEntersTheFrameDecode : Obligations.StartEntersTheFrameDecode := by
  intro s rest hhost hphase
  have hstart : ({ s with host := rest } : State).start = ({ s with host := rest } : State).enterFrame :=
    if_neg hphase
  rw [step_of_cmd hhost, if_neg (by simp), State.hostCmd, if_neg (fun h => hphase h.1), State.runCmd, hstart]
  rfl

/-! ### The frame header -/

theorem State.AtFrameHeader.step_eq {s : State} (h : s.AtFrameHeader) :
    step s = .next (settle (frameHeaderStep s)) := by
  obtain ⟨hquiet, hbusy, hseq⟩ := h
  rw [step_of_quiet hquiet, advance, hbusy, hseq]
  rfl

/-- The ten bytes of a frame header give the fields of S (30_encoding.md R81). -/
theorem readFrameHeader_held {s : State} (h : s.pos + 10 ≤ s.streamLen) :
    readFrameHeader s = .ok () s.withFrameHeader := readFrameHeader_ok h

/-- The latch that a first frame sets (40_frame_decoder.md R112). -/
def State.latch (s : State) : State :=
  { s with alloc := true, allocW := s.width, allocH := s.height, allocN := s.nstrips }

/-- A first frame is judged by its strips, then by its bytes (40_frame_decoder.md R112). -/
theorem acceptFrame_first {s : State} (h : s.alloc = false) : acceptFrame s =
    if s.maxStrips < s.nstrips.toNat then .error (.raise .capacity 0) s
    else if s.rasterCap < s.rasterNeed then .error (.raise .capacity 1) s
    else .ok () s.latch := by
  rw [acceptFrame, if_neg (by simp [h]), allocate, act_bind_ok (act_get s)]
  split
  · exact act_bind_error (raiseIf_true (decide_eq_true ‹_›) s)
  · rw [act_bind_ok (raiseIf_false (decide_eq_false ‹_›) s)]
    split
    · exact act_bind_error (raiseIf_true (decide_eq_true ‹_›) s)
    · rw [act_bind_ok (raiseIf_false (decide_eq_false ‹_›) s)]
      rfl

/-- A later frame is judged by its dimensions, then by its strips (40_frame_decoder.md R113). -/
theorem acceptFrame_later {s : State} (h : s.alloc = true) : acceptFrame s =
    if s.width ≠ s.allocW ∨ s.height ≠ s.allocH then .error (.raise .dimMismatch 0) s
    else if s.allocN.toNat < s.nstrips.toNat then .error (.raise .dimMismatch 1) s
    else .ok () s := by
  rw [acceptFrame, if_pos h, checkAllocation, act_bind_ok (act_get s)]
  split
  · exact act_bind_error (raiseIf_true (decide_eq_true ‹_›) s)
  · rw [act_bind_ok (raiseIf_false (decide_eq_false ‹_›) s)]
    split
    · exact raiseIf_true (decide_eq_true ‹_›) s
    · exact raiseIf_false (decide_eq_false ‹_›) s

/-- What a frame that was judged leaves: the fault, or the strip loop's entry with the row cursor at 0
(40_frame_decoder.md R114, R115). -/
def afterAcceptance : EStateM.Result Ending State Unit → State
  | .ok _ t => ({ t with rowcur := 0#32 } : State).enterStrips
  | .error e t => settle (.error e t)

/-- The whole step of a frame header that the stream holds. -/
theorem State.AtFrameHeader.step_held {s : State} (h : s.AtFrameHeader) (hlen : s.pos + 10 ≤ s.streamLen) :
    step s = .next (afterAcceptance (acceptFrame s.withFrameHeader)) := by
  rw [h.step_eq, frameHeaderStep, act_bind_ok (readFrameHeader_held hlen)]
  rcases hr : acceptFrame s.withFrameHeader with ⟨_, t⟩ | ⟨e, t⟩
  · rw [act_bind_ok hr, act_bind_ok (act_modify _ t), act_modify]
    rfl
  · rw [act_bind_error hr]
    rfl

/-- Settles O21: the three endings of `acceptFrame_first`, each followed to the end of the step. -/
theorem firstFrameIsCheckedAndLatched : Obligations.FirstFrameIsCheckedAndLatched := by
  intro s hat halloc hlen
  have haccept := acceptFrame_first (s := s.withFrameHeader) halloc
  refine ⟨fun hn => ?_, fun hn hr => ?_, fun hn hr => ?_⟩
  · have hfault := haccept.trans (if_pos hn)
    rw [hat.step_held hlen, hfault]
    rfl
  · have hfault := (haccept.trans (if_neg (Nat.not_lt.mpr hn))).trans (if_pos hr)
    rw [hat.step_held hlen, hfault]
    rfl
  · have hok := (haccept.trans (if_neg (Nat.not_lt.mpr hn))).trans (if_neg (Nat.not_lt.mpr hr))
    rw [hat.step_held hlen, hok]
    rfl

/-- Settles O22: the three endings of `acceptFrame_later`, each followed to the end of the step. -/
theorem laterFrameMustMatchTheLatch : Obligations.LaterFrameMustMatchTheLatch := by
  intro s hat halloc hlen
  have haccept := acceptFrame_later (s := s.withFrameHeader) halloc
  refine ⟨fun hd => ?_, fun hw hh hn => ?_, fun hw hh hn => ?_⟩
  · have hfault := haccept.trans (if_pos hd)
    rw [hat.step_held hlen, hfault]
    rfl
  · have hfault := (haccept.trans (if_neg (not_or.mpr ⟨not_not.mpr hw, not_not.mpr hh⟩))).trans (if_pos hn)
    rw [hat.step_held hlen, hfault]
    rfl
  · have hok := (haccept.trans (if_neg (not_or.mpr ⟨not_not.mpr hw, not_not.mpr hh⟩))).trans
      (if_neg (Nat.not_lt.mpr hn))
    rw [hat.step_held hlen, hok]
    rfl

/-- The state in which a frame header's read fails, when the stream ends before its ten bytes: the registers read
before it are new, and `POS` is where that read began (60_exceptions.md R208). -/
def State.cutFrameHeader (s : State) : State :=
  { s with
    flags := if s.pos + 1 ≤ s.streamLen then s.withFrameHeader.flags else s.flags
    frameLen := if s.pos + 4 ≤ s.streamLen then s.withFrameHeader.frameLen else s.frameLen
    width := if s.pos + 6 ≤ s.streamLen then s.withFrameHeader.width else s.width
    height := if s.pos + 8 ≤ s.streamLen then s.withFrameHeader.height else s.height
    pos := s.pos + (if s.streamLen < s.pos + 1 then 0 else if s.streamLen < s.pos + 2 then 1
      else if s.streamLen < s.pos + 4 then 2 else if s.streamLen < s.pos + 6 then 4
      else if s.streamLen < s.pos + 8 then 6 else 8) }

/-- The reads of a frame header, one after the other, up to the first that does not fit. -/
theorem readFrameHeader_cut {s : State} (h : s.streamLen < s.pos + 10) :
    readFrameHeader s = .error (.raise .streamUnderrun s.cutFrameHeader.pos) s.cutFrameHeader := by
  suffices hcut : ∃ t : State, readFrameHeader s = .error (.raise .streamUnderrun t.pos) t ∧
      t = s.cutFrameHeader by
    obtain ⟨_, hread, rfl⟩ := hcut
    exact hread
  rw [readFrameHeader]
  by_cases h1 : s.streamLen < s.pos + 1
  · exact ⟨s, act_bind_error (readU8_under h1),
      by simp (disch := omega) only [State.cutFrameHeader, if_pos, if_neg]; rfl⟩
  rw [act_bind_ok (readU8_ok (by omega)), act_bind_ok (act_modify _ _)]
  by_cases h2 : s.streamLen < s.pos + 2
  · exact ⟨_, act_bind_error (readU24_under (by simp only; omega)),
      by simp (disch := omega) only [State.cutFrameHeader, if_pos, if_neg]; rfl⟩
  by_cases h4 : s.streamLen < s.pos + 4
  · exact ⟨_, act_bind_error (readU24_split (s := { s with flags := streamByte s s.pos, pos := s.pos + 1 })
        (by simp only; omega) (by simp only; omega)),
      by simp (disch := omega) only [State.cutFrameHeader, if_pos, if_neg]; rfl⟩
  rw [act_bind_ok (readU24_ok (by simp only; omega)), act_bind_ok (act_modify _ _)]
  by_cases h6 : s.streamLen < s.pos + 6
  · exact ⟨_, act_bind_error (readU16_under (by simp only; omega)),
      by simp (disch := omega) only [State.cutFrameHeader, if_pos, if_neg]; rfl⟩
  rw [act_bind_ok (readU16_ok (by simp only; omega)), act_bind_ok (act_modify _ _)]
  by_cases h8 : s.streamLen < s.pos + 8
  · exact ⟨_, act_bind_error (readU16_under (by simp only; omega)),
      by simp (disch := omega) only [State.cutFrameHeader, if_pos, if_neg]; rfl⟩
  rw [act_bind_ok (readU16_ok (by simp only; omega)), act_bind_ok (act_modify _ _)]
  exact ⟨_, act_bind_error (readU16_under (by simp only; omega)),
    by simp (disch := omega) only [State.cutFrameHeader, if_pos, if_neg]; rfl⟩

/-- Settles O23: the fault is taken in the state that the fitting reads left. -/
theorem cutFrameHeaderFails : Obligations.CutFrameHeaderFails := by
  intro s hat hlen
  refine ⟨s.cutFrameHeader.raiseFault .streamUnderrun s.cutFrameHeader.pos, ?_, rfl, rfl, rfl, rfl, rfl, rfl⟩
  rw [hat.step_eq, frameHeaderStep, act_bind_error (readFrameHeader_cut hlen), settle]

/-! ### The start of a strip -/

/-- Settles O24: the copied places are all the places of a slot. -/
theorem tableCopyIsVerbatim : Obligations.TableCopyIsVerbatim := by
  intro cb src dst slot t i
  rw [cbCopy, cbGet_copyPlaces]
  simp only [slotPlaces_mem, and_true]

/-- The entries after inheritance (40_frame_decoder.md R116, R117). -/
theorem State.entry_inherit (s : State) (slot : Nat) (t : Table) (i : Byte) :
    s.inherit.entry slot t i =
      if slot = s.si.toNat ∧ 0 < s.si.toNat ∧ s.flags.getLsbD 0 = false then s.entry (s.si.toNat - 1) t i
      else s.entry slot t i := by
  have hsi : s.si ≠ 0#16 ↔ 0 < s.si.toNat := by
    rw [Nat.pos_iff_ne_zero, ne_eq, ne_eq, BitVec.toNat_eq]
    rfl
  rw [State.entry, State.inherit]
  by_cases hcopy : s.si ≠ 0#16 ∧ s.flags.getLsbD 0 = false
  · rw [if_pos hcopy, tableCopyIsVerbatim]
    simp only [State.entry, ← hsi, hcopy, ne_eq, not_false_eq_true, and_true]
  · rw [if_neg hcopy, if_neg fun h => hcopy ⟨hsi.mpr h.2.1, h.2.2⟩, State.entry]

/-- The record that a strip header's reads give is the one its fields say (40_frame_decoder.md R118). -/
theorem stripRecAt_eq_stripOfHeader (s : State) : stripRecAt s s.pos = s.stripOfHeader := by
  have hbottom : s.rowcur + (fieldAt s (s.pos + 8)).setWidth 32 =
      BitVec.ofNat 32 (s.rowcur.toNat + s.field16 (s.pos + 8)) := by
    apply BitVec.eq_of_toNat_eq
    simp [fieldAt_toNat]
  rw [stripRecAt, hbottom, fieldAt_toNat]
  rfl

/-- A strip header's reads change only the current slot of the record file. -/
theorem StripOnly.stripRec {s t : State} (h : StripOnly s t) (slot : Nat) :
    t.stripRec slot = if slot = s.si.toNat then t.curStrip else s.stripRec slot := by
  obtain ⟨hsame, _, hother⟩ := h
  split
  · have hsi : t.si = s.si := by rw [hsame]
    rw [State.curStrip, hsi, ‹slot = s.si.toNat›]
  · exact hother slot ‹_›

/-- Settles O25: inheritance writes the store alone, the header's reads the current record alone. -/
theorem stripHeaderWritesItsRecord : Obligations.StripHeaderWritesItsRecord := by
  intro s hat hlen hlegal
  obtain ⟨t, hread, honly, hpos, hrec⟩ :=
    readStripHeader_ok (s := s.inherit) hlen (by rw [fieldAt_toNat]; exact hlegal)
  have hsame := honly.1
  refine ⟨{ t with spanStart := t.pos, seq := .chunkLoop }, ?_, ?_, fun slot => ?_, fun slot tbl i => ?_⟩
  · rw [hat.step_eq, stripHeaderStep, act_bind_ok (act_modify _ _), act_bind_ok hread, act_modify, settle]
  · rw [hpos, hsame]
    rfl
  · have hslot := honly.stripRec slot
    rw [hrec, stripRecAt_eq_stripOfHeader] at hslot
    exact hslot
  · have hcb : t.cb = s.inherit.cb := by rw [hsame]
    rw [← State.entry_inherit, State.entry, State.entry, ← hcb]

/-- The record of a strip whose header the stream does not hold: the fields whose turn came before the failing read
are new (40_frame_decoder.md R118; 60_exceptions.md R208). -/
def State.cutStripRec (s : State) : StripRec :=
  { id := if s.pos + 2 ≤ s.streamLen then s.stripOfHeader.id else s.curStrip.id
    len := if s.pos + 4 ≤ s.streamLen then s.stripOfHeader.len else s.curStrip.len
    top := if s.pos + 6 ≤ s.streamLen then s.stripOfHeader.top else s.curStrip.top
    left := if s.pos + 8 ≤ s.streamLen then s.stripOfHeader.left else s.curStrip.left
    bottom := if s.pos + 10 ≤ s.streamLen then s.stripOfHeader.bottom else s.curStrip.bottom
    right := s.curStrip.right }

/-- Where the read begins that fails in such a header (40_frame_decoder.md R118). -/
def State.cutStripPos (s : State) : Nat :=
  s.pos + (if s.streamLen < s.pos + 2 then 0 else if s.streamLen < s.pos + 4 then 2
    else if s.streamLen < s.pos + 6 then 4 else if s.streamLen < s.pos + 8 then 6
    else if s.streamLen < s.pos + 10 then 8 else 10)

/-- The reads of a strip header, one after the other, up to the first that does not fit. -/
theorem readStripHeader_cut {s : State} (h : s.streamLen < s.pos + 12)
    (hl : s.pos + 4 ≤ s.streamLen → 12 ≤ s.field16 (s.pos + 2)) :
    ∃ t, readStripHeader s = .error (.raise .streamUnderrun t.pos) t ∧ StripOnly s t ∧
      t.pos = s.cutStripPos ∧ t.curStrip = s.cutStripRec := by
  suffices hcut : ∃ t : State, readStripHeader s = .error (.raise .streamUnderrun t.pos) t ∧
      t.pos = s.cutStripPos ∧ t.curStrip = s.cutStripRec by
    obtain ⟨t, hread, hpos, hrec⟩ := hcut
    have honly := (readStripHeader_only s).1
    rw [hread] at honly
    exact ⟨t, hread, honly, hpos, hrec⟩
  rw [← fieldAt_toNat] at hl
  rw [State.cutStripRec, State.cutStripPos, ← stripRecAt_eq_stripOfHeader, readStripHeader]
  by_cases h2 : s.streamLen < s.pos + 2
  · refine ⟨_, act_bind_error (readU16_under h2), ?_⟩
    simp (disch := omega) [if_pos, if_neg]
  rw [field_then_update (by omega)]
  by_cases h4 : s.streamLen < s.pos + 4
  · refine ⟨_, act_bind_error (readU16_under (by simp; omega)), ?_⟩
    simp (disch := omega) [if_pos, if_neg, stripRecAt]
  rw [act_bind_ok (readField_ok (by simp; omega)),
    act_bind_ok (raiseIf_false (decide_eq_false (by simpa using hl (by omega))) _), act_bind_ok (act_modify _ _)]
  by_cases h6 : s.streamLen < s.pos + 6
  · refine ⟨_, act_bind_error (readU16_under (by simp; omega)), ?_⟩
    simp (disch := omega) [if_pos, if_neg, stripRecAt]
  rw [field_then_update (by simp; omega)]
  by_cases h8 : s.streamLen < s.pos + 8
  · refine ⟨_, act_bind_error (readU16_under (by simp; omega)), ?_⟩
    simp (disch := omega) [if_pos, if_neg, stripRecAt]
  rw [field_then_update (by simp; omega)]
  by_cases h10 : s.streamLen < s.pos + 10
  · refine ⟨_, act_bind_error (readU16_under (by simp; omega)), ?_⟩
    simp (disch := omega) [if_pos, if_neg, stripRecAt]
  rw [field_then_update (by simp; omega)]
  refine ⟨_, act_bind_error (readU16_under (by simp; omega)), ?_⟩
  simp (disch := omega) [if_pos, if_neg, stripRecAt]

/-- Settles O27: the fault is taken after inheritance and the fitting reads. -/
theorem cutStripHeaderFails : Obligations.CutStripHeaderFails := by
  intro s hat hlen hlegal
  obtain ⟨t, hread, honly, hpos, hrec⟩ := readStripHeader_cut (s := s.inherit) hlen hlegal
  have hsame := honly.1
  refine ⟨t.raiseFault .streamUnderrun t.pos, ?_, ?_, hpos, fun slot => ?_⟩
  · rw [hat.step_eq, stripHeaderStep, act_bind_ok (act_modify _ _), act_bind_error hread, settle]
  · rw [hsame]
    rfl
  · have hslot := honly.stripRec slot
    rw [hrec] at hslot
    exact hslot

/-! ### The end of a strip -/

theorem step_of_chunkLoop {s : State} (hquiet : s.host = []) (hbusy : s.phase = .busy)
    (hseq : s.seq = .chunkLoop) : step s = chunkLoopStep s := by
  rw [step_of_quiet hquiet, advance, hbusy, hseq]

/-- Settles O28: the chunk loop's test fails, which leaves the end of the strip. -/
theorem endOfSpanAdvancesTheRowCursor : Obligations.EndOfSpanAdvancesTheRowCursor := by
  intro s hquiet hbusy hseq hend
  have hnext : s.si + 1#16 = BitVec.ofNat 16 (s.si.toNat + 1) := by
    apply BitVec.eq_of_toNat_eq
    simp
  rw [step_of_chunkLoop hquiet hbusy hseq, chunkLoopStep, if_neg (Nat.not_lt.mpr hend), State.endStrip, hnext]

/-! ### The chunk header -/

theorem State.AtChunk.step_eq {s : State} (h : s.AtChunk) : step s = chunkStep s := by
  obtain ⟨hquiet, hbusy, hseq, hspan⟩ := h
  rw [step_of_chunkLoop hquiet hbusy hseq, chunkLoopStep, if_pos hspan]

theorem sizeAtPos_toNat (s : State) : (sizeAtPos s).toNat = s.field24 (s.pos + 1) := by
  have h1 := (streamByte s (s.pos + 1)).isLt
  have h2 := (streamByte s (s.pos + 2)).isLt
  have h3 := (streamByte s (s.pos + 3)).isLt
  rw [sizeAtPos, BitVec.toNat_ofNat]
  exact Nat.mod_eq_of_lt (by omega)

/-- The size of a chunk header is its last three bytes (30_encoding.md R86). -/
theorem sizeAtPos_eq_sizeOfBytes (s : State) : sizeAtPos s =
    sizeOfBytes (streamByte s (s.pos + 1)) (streamByte s (s.pos + 2)) (streamByte s (s.pos + 3)) := by
  have h2 := (streamByte s (s.pos + 2)).isLt
  have h3 := (streamByte s (s.pos + 3)).isLt
  apply BitVec.eq_of_toNat_eq
  rw [sizeAtPos_toNat, sizeOfBytes, BitVec.toNat_append, BitVec.toNat_append,
    ← Nat.shiftLeft_add_eq_or_of_lt h3, ← Nat.shiftLeft_add_eq_or_of_lt (by omega)]
  simp only [State.field24, State.field16, Nat.shiftLeft_eq, Nat.add_assoc, Nat.reduceAdd, Nat.reducePow]

/-- A chunk header that the stream holds is dispatched as its four bytes (40_frame_decoder.md R127). -/
theorem State.AtChunk.step_held {s : State} (h : s.AtChunk) (hlen : s.pos + 4 ≤ s.streamLen) :
    step s = dispatchHeader (headerBytes (streamByte s s.pos) (sizeAtPos s))
      { s with cid := streamByte s s.pos, pos := s.pos + 4 } := by
  rw [h.step_eq, chunkStep, fetchHeader_ok hlen]

/-- A chunk header that the stream does not hold is the fault its fetch ends in. -/
theorem State.AtChunk.step_cut {s t : State} (h : s.AtChunk) {c : Cause} {n : Nat}
    (hf : fetchHeader s = .error (.raise c n) t) : step s = .next (t.raiseFault c n) := by
  rw [h.step_eq, chunkStep, hf]

theorem dispatchHeader_of_decode {bytes rest : List Byte} {i : Instr} (h : decode bytes = .ok (i, rest))
    (s : State) : dispatchHeader bytes s = exec i s := by
  simp only [dispatchHeader, h]

/-- Settles O29: the four bytes fetched are the four bytes at `POS`. -/
theorem stepRunsTheDecodedInstruction : Obligations.StepRunsTheDecodedInstruction := by
  intro s i rest hat hlen hdecode
  have hbytes : headerBytes (streamByte s s.pos) (sizeAtPos s) = streamBytes s s.pos 4 := by
    rw [sizeAtPos_eq_sizeOfBytes, headerBytes_sizeOfBytes]
    rfl
  rw [hat.step_held hlen, hbytes, dispatchHeader_of_decode hdecode]

/-- Settles O30, by the three ways the fetch of a header can be cut. -/
theorem cutChunkHeaderFails : Obligations.CutChunkHeaderFails := fun _ hat =>
  ⟨fun h => hat.step_cut (fetchHeader_under h),
    fun h => hat.step_cut (fetchHeader_id_only (by omega) (by omega)),
    fun h2 h4 => hat.step_cut (fetchHeader_size_cut h2 h4)⟩

/-- Settles O31: whether the id is listed or not, the size is judged first. -/
theorem smallChunkSizeFailsBeforeTheId : Obligations.SmallChunkSizeFailsBeforeTheId := by
  intro s hat hlen hsmall
  rw [← sizeAtPos_toNat] at hsmall ⊢
  rw [hat.step_held hlen, dispatchHeader_eq]
  cases hi : instrOfHeader (streamByte s s.pos) (sizeAtPos s) with
  | none =>
    show finish (rejectHeader _ _) _ = _
    rw [rejectHeader_next, if_pos hsmall]
    rfl
  | some i =>
    obtain ⟨hid, hsize⟩ := instrOfHeader_some hi
    show exec i _ = _
    rw [everyChunkTrapsOnASmallSize i _ (by rwa [hsize]), hid, hsize]

/-! ### Reads inside the payload -/

/-- `POS` is in the payload of the current chunk, and at least `k` bytes of it are left (40_frame_decoder.md
R126). -/
def Room (k : Nat) (s : State) : Prop := s.cstart ≤ s.pos ∧ s.pos + k ≤ s.cstart + s.csize.toNat

/-- A fault inside a payload: `StreamUnderrun` at `POS`, which is in the payload, by a read of at most 4 bytes that
the payload holds and the stream does not. -/
def PayloadUnderrun (c : Cause) (n : Nat) (t : State) : Prop :=
  c = .streamUnderrun ∧ n = t.pos ∧ t.pos < t.cstart + t.csize.toNat ∧ t.streamLen < t.pos + 4 ∧
    t.streamLen < t.cstart + t.csize.toNat

/-- An action ended with `j` bytes of the payload left, or stopped, or failed inside the payload. -/
def EndsInPayload {α : Type} (j : Nat) : EStateM.Result Ending State α → Prop
  | .ok _ t => Room j t
  | .error .stop _ => True
  | .error (.raise c n) t => PayloadUnderrun c n t

/-- Started with `k` bytes of the payload left, an action leaves `j` of them, unless it ends early. -/
def Budgeted {α : Type} (k j : Nat) (act : Act α) : Prop := ∀ s, Room k s → EndsInPayload j (act s)

section
variable {α β : Type} {k j l : Nat}

theorem Budgeted.bind {x : Act α} {f : α → Act β} (hx : Budgeted k j x) (hf : ∀ a, Budgeted j l (f a)) :
    Budgeted k l (x >>= f) := by
  intro s hs
  have h := hx s hs
  rw [act_bind]
  rcases hxs : x s with ⟨a, t⟩ | ⟨_ | ⟨c, n⟩, t⟩ <;> rw [hxs] at h
  · exact hf a t h
  · trivial
  · exact h

theorem Budgeted.pure (a : α) : Budgeted k k (Pure.pure a : Act α) := fun _ hs => hs

theorem Budgeted.get : Budgeted k k (MonadState.get : Act State) := fun _ hs => hs

/-- An update that leaves `POS`, `CSTART` and `CSIZE` alone consumes no budget. -/
theorem Budgeted.modify {g : State → State}
    (hg : ∀ s, (g s).pos = s.pos ∧ (g s).cstart = s.cstart ∧ (g s).csize = s.csize) :
    Budgeted k k (modify g : Act Unit) := by
  intro s hs
  obtain ⟨hpos, hstart, hsize⟩ := hg s
  show Room k (g s)
  simpa only [Room, hpos, hstart, hsize] using hs

/-- The budget test is what makes room for a read (40_frame_decoder.md R126). -/
theorem Budgeted.needPayload (n : Nat) : Budgeted 0 n (needPayload n) := by
  rintro s ⟨hstart, hend⟩
  by_cases h : n ≤ s.rem
  · rw [needPayload_ok h]
    rw [State.rem] at h
    exact ⟨hstart, by omega⟩
  · rw [needPayload_stop (by omega)]
    trivial

theorem Budgeted.readU8 : Budgeted (k + 1) k readU8 := by
  rintro s ⟨hstart, hend⟩
  rcases Nat.lt_or_ge s.streamLen (s.pos + 1) with h | h
  · rw [readU8_under h]
    exact ⟨rfl, rfl, by omega, by omega, by omega⟩
  · rw [readU8_ok h]
    exact ⟨by simp only; omega, by simp only; omega⟩

theorem Budgeted.readU32 : Budgeted (k + 4) k readU32 := by
  rintro s ⟨hstart, hend⟩
  rcases Nat.lt_or_ge s.streamLen (s.pos + 4) with h | h
  · rw [readU32_under h]
    exact ⟨rfl, rfl, by omega, by omega, by omega⟩
  · rw [readU32_ok h]
    exact ⟨by simp only; omega, by simp only; omega⟩

end

/-! ### Every handler reads inside its payload -/

theorem budgeted_setFlag {k : Nat} (f : FlagStream) (word mask : State → FlagWord) :
    Budgeted k k (modify fun s => s.setFlag f (word s) (mask s)) :=
  .modify fun _ => ⟨by simp, by simp, by simp⟩

theorem Budgeted.takeFlag (f : FlagStream) : Budgeted 0 0 (takeFlag f) := by
  have hrefill : Budgeted 0 0 (refillFlag f) :=
    .bind (.needPayload 4) fun _ => .bind .readU32 fun w => budgeted_setFlag f (fun _ => w) fun _ => 0x80000000#32
  have hdue : Budgeted 0 0 (refillIfDue f) := by
    intro s hs
    rw [refillIfDue]
    split
    · exact hrefill s hs
    · exact hs
  exact .bind (budgeted_setFlag f _ _) fun _ => .bind hdue fun _ => .bind .get fun _ => .pure _

theorem Budgeted.loadField {k : Nat} (t : Table) (i : Byte) (put : Byte → Entry → Entry) :
    Budgeted (k + 1) k (loadField t i put) :=
  .bind .readU8 fun _ => .modify fun _ => ⟨rfl, rfl, rfl⟩

theorem Budgeted.loadLuma {k : Nat} (t : Table) (i : Byte) : Budgeted (k + 4) k (loadLuma t i) :=
  .bind (.loadField t i _) fun _ => .bind (.loadField t i _) fun _ => .bind (.loadField t i _) fun _ =>
    .loadField t i _

/-- An entry takes as many bytes as its form is wide (41_codebook_loader.md R145, R146). -/
theorem Budgeted.loadEntry (t : Table) (form : EntryForm) (i : Byte) :
    Budgeted form.width 0 (loadEntry t form i) := by
  cases form with
  | six => exact .bind (.loadLuma t i) fun _ => .bind (.loadField t i _) fun _ => .loadField t i _
  | four => exact .bind (.loadLuma t i) fun _ => .modify fun _ => ⟨rfl, rfl, rfl⟩

theorem Budgeted.loadAttempt (t : Table) (cond : Bool) (form : EntryForm) :
    Budgeted 0 0 (loadAttempt t cond form) := by
  have hdue : Budgeted 0 0 (updateDue cond) := by
    cases cond with
    | false => exact .pure true
    | true => exact .takeFlag .loader
  refine .bind hdue fun due => .bind (fun s hs => ?_) fun _ => .modify fun _ => ⟨rfl, rfl, rfl⟩
  cases due with
  | false => exact hs
  | true => exact Budgeted.bind (.needPayload _) (fun _ => .loadEntry t form _) s hs

theorem Budgeted.loadCodebook (t : Table) (cond : Bool) (form : EntryForm) :
    Budgeted 0 0 (loadCodebook t cond form) := by
  have hattempts (n : Nat) : Budgeted 0 0 (loadAttempts t cond form n) := by
    induction n with
    | zero => exact .pure ()
    | succ n ih => exact .bind (.loadAttempt t cond form) fun _ => ih
  exact .bind (budgeted_setFlag .loader _ _) fun _ => .bind (.modify fun _ => ⟨rfl, rfl, rfl⟩) fun _ =>
    hattempts 256

/-- A block takes one index byte or four, each after its budget test (42_vector_unpacker.md R169, R171). -/
theorem Budgeted.codedBlock (selEn : Bool) : Budgeted 0 0 (codedBlock selEn) := by
  have hsel : Budgeted 0 0 (flagIfActive .sel selEn) := by
    cases selEn with
    | false => exact .pure false
    | true => exact .takeFlag .sel
  have hv1 : Budgeted 0 0 readV1 :=
    .bind (.needPayload 1) fun _ => .bind .readU8 fun _ => .bind .get fun _ => .pure _
  have hv4 : Budgeted 0 0 readV4 :=
    .bind (.needPayload 4) fun _ => .bind .readU8 fun _ => .bind .readU8 fun _ => .bind .readU8 fun _ =>
      .bind .readU8 fun _ => .bind .get fun _ => .pure _
  refine .bind hsel fun isV4 => ?_
  cases isV4 with
  | false => exact .bind hv1 fun _ => .modify fun _ => ⟨rfl, rfl, rfl⟩
  | true => exact .bind hv4 fun _ => .modify fun _ => ⟨rfl, rfl, rfl⟩

theorem Budgeted.vectorBlock (skipEn selEn : Bool) : Budgeted 0 0 (vectorBlock skipEn selEn) := by
  have hskip : Budgeted 0 0 (flagIfActive .skip skipEn) := by
    cases skipEn with
    | false => exact .pure false
    | true => exact .takeFlag .skip
  refine .bind hskip fun skip => ?_
  cases skip with
  | false => exact .codedBlock selEn
  | true => exact .pure ()

theorem Budgeted.walkRow (skipEn selEn : Bool) (n : Nat) : Budgeted 0 0 (walkRow skipEn selEn n) := by
  have hcolumn : Budgeted 0 0 nextColumn := .modify fun _ => ⟨rfl, rfl, rfl⟩
  induction n with
  | zero => exact .pure ()
  | succ n ih =>
    intro s hs
    rw [walkRow_succ]
    split
    · exact Budgeted.bind (.vectorBlock skipEn selEn) (fun _ => .bind hcolumn fun _ => ih) s hs
    · exact hs

theorem Budgeted.walkRows (skipEn selEn : Bool) (n : Nat) : Budgeted 0 0 (walkRows skipEn selEn n) := by
  have hcolumn : Budgeted 0 0 firstColumn := .modify fun _ => ⟨rfl, rfl, rfl⟩
  have hrow : Budgeted 0 0 nextRow := .modify fun _ => ⟨rfl, rfl, rfl⟩
  induction n with
  | zero => exact .pure ()
  | succ n ih =>
    intro s hs
    rw [walkRows_succ]
    split
    · exact Budgeted.bind hcolumn (fun _ => .bind (.walkRow skipEn selEn _) fun _ => .bind hrow fun _ => ih) s hs
    · exact hs

theorem Budgeted.decodeVectors (skipEn selEn : Bool) : Budgeted 0 0 (decodeVectors skipEn selEn) :=
  .bind (budgeted_setFlag .skip _ _) fun _ => .bind (budgeted_setFlag .sel _ _) fun _ =>
    .bind (.modify fun _ => ⟨rfl, rfl, rfl⟩) fun _ => .bind .get fun _ => .walkRows skipEn selEn _

/-- Every handler tests the budget before it reads, and reads no more than it tested (40_frame_decoder.md
R126). -/
theorem budgeted_handlerOf (i : Instr) : Budgeted 0 0 (handlerOf i) := by
  cases i with
  | vecSel | vecSkipSel | vecV1 => exact .decodeVectors _ _
  | _ => exact .loadCodebook _ _ _

/-! ### How a chunk ends -/

/-- What a handler cannot touch of its chunk's surroundings: where its payload lies, where the stream ends, and
the status. -/
structure ChunkContext where
  cstart : Nat
  csize : Size
  streamLen : Nat
  phase : Phase
  cause : Cause
  finfo : Nat

/-- A chunk's surroundings as a state holds them. -/
def State.chunkContext (s : State) : ChunkContext where
  cstart := s.cstart
  csize := s.csize
  streamLen := s.streamLen
  phase := s.phase
  cause := s.cause
  finfo := s.finfo

theorem chunkContext_read : ReadKept fun s t => t.chunkContext = s.chunkContext where
  toChain := chain_eq State.chunkContext
  forward _ _ _ := rfl

theorem chunkContext_handlerOf (i : Instr) (s : State) :
    (endState (handlerOf i s)).chunkContext = s.chunkContext :=
  (Keeps.handlerOf (R := fun s t => t.chunkContext = s.chunkContext)
    (fun _ => { chunkContext_read with
      flag := fun _ _ _ => rfl, index := fun _ _ => rfl, entry := fun _ _ _ => rfl })
    { chunkContext_read with
      skip := fun _ _ _ => rfl, sel := fun _ _ _ => rfl, column := fun _ _ => rfl, row := fun _ _ => rfl,
      paint := fun _ _ => rfl } i s).1

/-- All a chunk with a legal size can end in: the reposition, or a failed read of its payload. -/
theorem exec_ends {i : Instr} {s : State} (h : 4 ≤ i.size.toNat) :
    (∃ t : State, t.chunkContext = (headerLatched (chunkId i) i.size s).chunkContext ∧
      exec i s = .next (t.atPos (s.pos + (i.size.toNat - 4)))) ∨
    (∃ t : State, t.chunkContext = (headerLatched (chunkId i) i.size s).chunkContext ∧
      PayloadUnderrun .streamUnderrun t.pos t ∧ exec i s = .next (t.raiseFault .streamUnderrun t.pos)) := by
  have hroom : Room 0 (headerLatched (chunkId i) i.size s) := ⟨Nat.le_refl _, Nat.le_add_right _ _⟩
  have hbudget := budgeted_handlerOf i _ hroom
  have hctx := chunkContext_handlerOf i (headerLatched (chunkId i) i.size s)
  have hexec : exec i s = .next (chunkEnd (handlerOf i (headerLatched (chunkId i) i.size s))) := by
    rw [exec_eq, runChunk_ok h]
  have hend {t : State} (ht : t.chunkContext = (headerLatched (chunkId i) i.size s).chunkContext) :
      t.cstart + t.csize.toNat = s.pos + (i.size.toNat - 4) := by
    have hstart : t.cstart = s.pos := congrArg ChunkContext.cstart ht
    have hsize : t.csize = BitVec.ofNat 24 (i.size.toNat - 4) := congrArg ChunkContext.csize ht
    rw [hstart, hsize, size_sub_toNat]
  rcases hr : handlerOf i (headerLatched (chunkId i) i.size s) with ⟨_, t⟩ | ⟨_ | ⟨c, n⟩, t⟩ <;>
    rw [hr] at hbudget hctx hexec
  · exact .inl ⟨t, hctx, by rw [hexec, ← hend hctx]; rfl⟩
  · exact .inl ⟨t, hctx, by rw [hexec, ← hend hctx]; rfl⟩
  · have hunder : PayloadUnderrun c n t := hbudget
    obtain ⟨rfl, rfl, _⟩ := hunder
    exact .inr ⟨t, hctx, hbudget, hexec⟩

/-- Settles O34: the reposition goes to the chunk's end whatever the handler read, and a read that fails was inside
the budget. -/
theorem chunksEndAtTheirSizeOrUnderrun : Obligations.ChunksEndAtTheirSizeOrUnderrun := by
  intro i s hsize
  rcases exec_ends (s := s) hsize with ⟨t, hctx, he⟩ | ⟨t, hctx, ⟨_, _, hin, hcut, hcutEnd⟩, he⟩
  · exact ⟨_, he, .inl ⟨rfl, congrArg ChunkContext.phase hctx, congrArg ChunkContext.cause hctx,
      congrArg ChunkContext.finfo hctx⟩⟩
  · have hstart : t.cstart = s.pos := congrArg ChunkContext.cstart hctx
    have hbudget : t.csize.toNat = i.size.toNat - 4 := by
      rw [← size_sub_toNat]
      exact congrArg (fun c => c.csize.toNat) hctx
    have hlen : t.streamLen = s.streamLen := congrArg ChunkContext.streamLen hctx
    rw [hstart, hbudget] at hin hcutEnd
    rw [hlen] at hcut hcutEnd
    exact ⟨_, he, .inr ⟨rfl, rfl, rfl, exec_pos_le he, hin, hcut, hcutEnd⟩⟩

/-! ### Every frame decode ends -/

/-- A chunk fails, or leaves the status as it was and `POS` no further back. -/
theorem exec_phase {i : Instr} {s t : State} (h : exec i s = .next t) :
    t.phase = .failed ∨ (t.phase = s.phase ∧ s.pos ≤ t.pos) := by
  by_cases hsize : i.size.toNat < 4
  · rw [everyChunkTrapsOnASmallSize i s hsize] at h
    injection h with h
    exact .inl (h ▸ rfl)
  · obtain ⟨u, he, hu⟩ := chunksEndAtTheirSizeOrUnderrun i s (Nat.not_lt.mp hsize)
    rw [he] at h
    injection h with h
    subst h
    rcases hu with ⟨hpos, hphase, _⟩ | ⟨hfailed, _⟩
    · exact .inr ⟨hphase, by omega⟩
    · exact .inl hfailed

/-- A chunk's turn fails, or moves `POS` past its header at least (40_frame_decoder.md R130). -/
theorem chunkStep_phase {s t : State} (h : chunkStep s = .next t) :
    t.phase = .failed ∨ (t.phase = s.phase ∧ s.pos + 4 ≤ t.pos) := by
  rcases chunkStep_cases s with ⟨_, u, he, _⟩ | ⟨_, i, _, _, he⟩ | ⟨_, _, he⟩ <;> rw [he] at h
  · injection h with h
    exact .inl (h ▸ rfl)
  · exact exec_phase h
  · rw [rejectHeader_next] at h
    injection h with h
    refine .inl (h ▸ ?_)
    split <;> rfl

/-- What is left of a frame decode: the headers and strips to come, counted from the greatest number of strips a
frame can have, and the rest of the current span. -/
def State.remaining (s : State) : Nat ×ₗ Nat :=
  match s.seq with
  | .frameHeader => toLex (2 * 65536 + 1, 0)
  | .stripHeader => toLex (2 * (65536 - s.si.toNat), 0)
  | .chunkLoop => toLex (2 * (65536 - s.si.toNat) - 1, s.spanEnd - s.pos)

theorem remaining_frameHeader {s : State} (h : s.seq = .frameHeader) :
    s.remaining = toLex (2 * 65536 + 1, 0) := by rw [State.remaining, h]

theorem remaining_stripHeader {s : State} (h : s.seq = .stripHeader) :
    s.remaining = toLex (2 * (65536 - s.si.toNat), 0) := by rw [State.remaining, h]

theorem remaining_chunkLoop {s : State} (h : s.seq = .chunkLoop) :
    s.remaining = toLex (2 * (65536 - s.si.toNat) - 1, s.spanEnd - s.pos) := by rw [State.remaining, h]

/-- The decode has ended in the second state, or goes on there with less left to do. -/
def Progress (s t : State) : Prop :=
  (t.phase = .done ∨ t.phase = .failed) ∨ (t.phase = .busy ∧ t.remaining < s.remaining)

theorem frameHeaderStep_progress {s t : State} (hb : s.phase = .busy) (hq : s.seq = .frameHeader)
    (h : finish frameHeaderStep s = .next t) : Progress s t := by
  rcases frameHeaderStep_next h with ⟨u, c, n, _, _, rfl⟩ | ⟨u, hu, _, rfl⟩
  · exact .inl (.inr rfl)
  · rw [State.enterStrips]
    split
    · exact .inl (.inl rfl)
    · refine .inr ⟨(latched_status u).1.trans (hu.status.1.trans hb), ?_⟩
      rw [remaining_frameHeader hq, remaining_stripHeader rfl]
      exact Prod.Lex.toLex_lt_toLex.mpr (.inl (by simp only; omega))

theorem stripHeaderStep_progress {s t : State} (hb : s.phase = .busy) (hq : s.seq = .stripHeader)
    (h : finish stripHeaderStep s = .next t) : Progress s t := by
  rw [finish_next] at h
  injection h with h
  subst h
  rcases stripHeaderStep_cases s with ⟨u, c, n, _, _, he⟩ | ⟨u, ⟨hu, _⟩, _, he⟩ <;> rw [he]
  · exact .inl (.inr rfl)
  · have hphase : u.phase = s.phase := by rw [hu]; rfl
    have hsi : u.si = s.si := by rw [hu]; rfl
    have := s.si.isLt
    refine .inr ⟨hphase.trans hb, ?_⟩
    rw [remaining_stripHeader hq, settle, remaining_chunkLoop rfl]
    exact Prod.Lex.toLex_lt_toLex.mpr (.inl (by simp only [hsi]; omega))

theorem endStrip_progress {s : State} (hb : s.phase = .busy) (hq : s.seq = .chunkLoop) :
    Progress s s.endStrip := by
  rw [State.endStrip]
  split
  · have hnstrips := s.nstrips.isLt
    have hsi : (s.si + 1#16).toNat = s.si.toNat + 1 := by
      rw [BitVec.toNat_add]
      simp only [BitVec.toNat_ofNat]
      omega
    refine .inr ⟨hb, ?_⟩
    rw [remaining_chunkLoop hq, remaining_stripHeader rfl]
    exact Prod.Lex.toLex_lt_toLex.mpr (.inl (by simp only [hsi]; omega))
  · exact .inl (.inl rfl)

theorem chunkStep_progress {s t : State} (hb : s.phase = .busy) (hq : s.seq = .chunkLoop)
    (hspan : s.pos < s.spanEnd) (h : chunkStep s = .next t) : Progress s t := by
  rcases chunkStep_phase h with hfailed | ⟨hphase, hpos⟩
  · exact .inl (.inr hfailed)
  · have hsame := sameFrame_chunk.chunkStep h
    have hend : t.spanEnd = s.spanEnd := by
      simp only [State.spanEnd, State.curStrip, State.stripRec, hsame.spanStart, hsame.strips, hsame.si]
    refine .inr ⟨hphase.trans hb, ?_⟩
    rw [remaining_chunkLoop hq, remaining_chunkLoop (hsame.seq.trans hq), hsame.si, hend]
    exact Prod.Lex.toLex_lt_toLex.mpr (.inr ⟨rfl, by simp only; omega⟩)

theorem chunkStep_next (s : State) : ∃ t, chunkStep s = .next t := by
  rcases chunkStep_cases s with ⟨_, u, he, _⟩ | ⟨_, i, _, _, he⟩ | ⟨_, _, he⟩ <;> rw [he]
  · exact ⟨_, rfl⟩
  · rcases exec_cases i { s with cid := streamByte s s.pos, pos := s.pos + 4 } with ⟨_, hi⟩ | ⟨_, hi⟩ <;>
      exact ⟨_, hi⟩
  · exact ⟨_, rfl⟩

/-- Every turn of the block in a running decode makes progress (40_frame_decoder.md R130). -/
theorem advance_progress {s : State} (hb : s.phase = .busy) : ∃ t, advance s = .next t ∧ Progress s t := by
  rcases advance_cases s with ⟨hn, _⟩ | ⟨_, hq, he⟩ | ⟨_, hq, he⟩ | ⟨_, hq, _, he⟩ | ⟨_, hq, hspan, he⟩
  · exact absurd hb hn
  · exact ⟨_, he, frameHeaderStep_progress hb hq rfl⟩
  · exact ⟨_, he, stripHeaderStep_progress hb hq rfl⟩
  · exact ⟨_, he, endStrip_progress hb hq⟩
  · obtain ⟨t, ht⟩ := chunkStep_next s
    exact ⟨t, he.trans ht, chunkStep_progress hb hq hspan ht⟩

theorem run_of_step {s t : State} (h : step s = .next t) (n : Nat) :
    Host.Core.run core (n + 1) s = Host.Core.run core n t := by
  have hcore : core.step s = .next t := h
  simp only [Host.Core.run, hcore]

/-- Settles O53, by induction on what is left of the decode. -/
theorem everyFrameDecodeEnds : Obligations.EveryFrameDecodeEnds := by
  intro s
  induction hrem : s.remaining using WellFoundedLT.induction generalizing s with
  | ind _ ih =>
    intro hquiet hbusy
    obtain ⟨t, ht, hended | ⟨htbusy, hless⟩⟩ := advance_progress hbusy
    · exact ⟨1, t, run_of_step ((step_of_quiet hquiet).trans ht) 0, hended⟩
    · have htquiet : t.host = [] := (congrArg Inputs.host (advance_inputs ht)).trans hquiet
      obtain ⟨n, u, hrun, hu⟩ := ih _ (hrem ▸ hless) t rfl htquiet htbusy
      exact ⟨n + 1, u, (run_of_step ((step_of_quiet hquiet).trans ht) n).trans hrun, hu⟩

end Sys2Proof.Machine
end

section
/-! The family 41_codebook_loader.md, its parts: how a flag is taken, what a loader can change, and an entry that the
stream cuts. -/

namespace Sys2Proof.Machine

/-! ### Flags -/

/-- The mask one bit further down (41_codebook_loader.md R142). -/
theorem twoPow_shiftRight_one {k : Nat} (h : k < 31) :
    BitVec.twoPow 32 (k + 1) >>> 1 = BitVec.twoPow 32 k := by
  apply BitVec.eq_of_getLsbD_eq
  intro j hj
  simp only [BitVec.getLsbD_ushiftRight, BitVec.getLsbD_twoPow]
  grind

/-- Under a mask of one bit a word shows that bit. -/
theorem and_twoPow_ne_zero (w : FlagWord) {k : Nat} (h : k < 32) :
    (w &&& BitVec.twoPow 32 k != 0#32) = w.getLsbD k := by
  have hne : BitVec.twoPow 32 k ≠ 0#32 := fun he => by
    simpa [h] using congrArg (BitVec.getLsbD · k) he
  rw [BitVec.and_twoPow]
  split <;> simp_all

/-- The word a refill reads, as the 32-bit field it is. -/
theorem wordAtPos_eq (s : State) : wordAtPos s = BitVec.ofNat 32 (s.field32 s.pos) := by
  rw [wordAtPos, field32_eq_bytes]

/-- A mask is exhausted at 0, before the first word, and at bit 0, after a word's last flag. -/
theorem shiftRight_one_of_exhausted {m : FlagWord} (h : m = 0#32 ∨ m = 1#32) : m >>> 1 = 0#32 := by
  rcases h with rfl | rfl <;> rfl

/-- A flag of the word in force (41_codebook_loader.md R142). -/
theorem takeFlag_within {f : FlagStream} {s : State} {k : Nat} (hk : k < 31)
    (hmask : s.flagMask f = BitVec.twoPow 32 (k + 1)) :
    takeFlag f s = .ok ((s.flagWord f).getLsbD k) (s.setFlag f (s.flagWord f) (BitVec.twoPow 32 k)) := by
  have hnext : s.flagMask f >>> 1 = BitVec.twoPow 32 k := by rw [hmask, twoPow_shiftRight_one hk]
  have hbit := and_twoPow_ne_zero (s.flagWord f) (k := k) (by omega)
  have hne : s.flagMask f >>> 1 ≠ 0#32 := fun he => by
    simpa [hnext, show k < 32 by omega] using congrArg (BitVec.getLsbD · k) he
  rw [takeFlag_next hne, hnext, hbit]

/-- The first flag of a new word (41_codebook_loader.md R142). -/
theorem takeFlag_fetch {f : FlagStream} {s : State} (hmask : s.flagMask f = 0#32 ∨ s.flagMask f = 1#32)
    (hrem : 4 ≤ s.rem) (hlen : s.pos + 4 ≤ s.streamLen) :
    takeFlag f s = .ok ((BitVec.ofNat 32 (s.field32 s.pos)).getLsbD 31)
      (({ s with pos := s.pos + 4 } : State).setFlag f (BitVec.ofNat 32 (s.field32 s.pos))
        (BitVec.twoPow 32 31)) := by
  have htop : 0x80000000#32 = BitVec.twoPow 32 31 := rfl
  rw [takeFlag_refill (shiftRight_one_of_exhausted hmask) hrem hlen, wordAtPos_eq, htop,
    and_twoPow_ne_zero _ (by omega)]

/-- Settles O35: the four ways a flag can be taken. -/
theorem flagsRunFromBit31Down : Obligations.FlagsRunFromBit31Down := fun _ _ =>
  ⟨fun _ hk hmask => takeFlag_within hk hmask, fun hmask =>
    ⟨takeFlag_stop (shiftRight_one_of_exhausted hmask), takeFlag_under (shiftRight_one_of_exhausted hmask),
      takeFlag_fetch hmask⟩⟩

/-! ### What a loader can change -/

theorem loaderFrame_chain (t : Table) : Chain fun s u => LoaderFrame s u t where
  refl _ := ⟨rfl, fun _ _ _ _ => rfl⟩
  trans s u v := by
    rintro ⟨hu, huentries⟩ ⟨hv, hventries⟩
    have hsi : u.si = s.si := by rw [hu]
    rw [hu] at hv
    exact ⟨hv, fun slot t' k h => (hventries slot t' k (hsi ▸ h)).trans (huentries slot t' k h)⟩

theorem loaderFrame_kept (t : Table) : LoaderKept (fun s u => LoaderFrame s u t) t where
  toChain := loaderFrame_chain t
  forward _ _ _ := ⟨rfl, fun _ _ _ _ => rfl⟩
  flag _ _ _ := ⟨rfl, fun _ _ _ _ => rfl⟩
  index _ _ := ⟨rfl, fun _ _ _ _ => rfl⟩
  entry s i g := by
    refine ⟨rfl, fun slot t' k h => ?_⟩
    rw [State.entry_updEntry, if_neg]
    rintro ⟨rfl, rfl, _⟩
    simp at h

/-- A loader chunk, whatever its size and however it ends (41_codebook_loader.md R140). -/
theorem runChunk_loaderFrame {id : Byte} {z : Size} {t : Table} {cond : Bool} {form : EntryForm} {s u : State}
    (h : runChunk id z (loadCodebook t cond form) s = .next u) : LoaderFrame s u t := by
  have hR := loaderFrame_kept t
  by_cases hsize : z.toNat < 4
  · rw [runChunk_small hsize] at h
    injection h with h
    subst h
    exact ⟨rfl, fun _ _ _ _ => rfl⟩
  · rw [runChunk_ok (Nat.not_lt.mp hsize)] at h
    injection h with h
    subst h
    refine hR.trans s (headerLatched id z s) _ ⟨rfl, fun _ _ _ _ => rfl⟩ ?_
    exact chunkEnd_kept hR.toChain (fun _ _ => ⟨rfl, fun _ _ _ _ => rfl⟩)
      (fun _ _ _ _ => ⟨rfl, fun _ _ _ _ => rfl⟩) (.loadCodebook hR cond form) _

/-- Settles O41: every kind of update of a loader stays in its frame. -/
theorem loadersTouchOnlyTheirTable : Obligations.LoadersTouchOnlyTheirTable := fun _ _ _ =>
  ⟨runChunk_loaderFrame, runChunk_loaderFrame, runChunk_loaderFrame, runChunk_loaderFrame, runChunk_loaderFrame,
    runChunk_loaderFrame, runChunk_loaderFrame, runChunk_loaderFrame⟩

/-! ### An entry that the stream cuts -/

/-- The effect of reading `n` bytes of entry `i`: `POS` is past them, and what they changed of the entry is `f`. -/
structure EntryBytesRead (s : State) (t : Table) (i : Byte) (n : Nat) (f : Entry → Entry) (u : State) : Prop where
  frame : u = { s with pos := s.pos + n, cb := u.cb }
  entries : ∀ slot t' (k : Byte), u.entry slot t' k =
    if slot = s.si.toNat ∧ t' = t ∧ k = i then f (s.entry s.si.toNat t i) else s.entry slot t' k

theorem entryBytesRead_entryRead (s : State) (t : Table) (i : Byte) (n : Nat) (f : Entry → Entry) :
    EntryBytesRead s t i n f (s.entryRead t i n f) where
  frame := rfl
  entries slot t' k := State.entry_updEntry _ t t' i k f slot

theorem entryBytesRead_none (s : State) (t : Table) (i : Byte) : EntryBytesRead s t i 0 id s where
  frame := rfl
  entries slot t' k := by
    split
    · rename_i h
      obtain ⟨rfl, rfl, rfl⟩ := h
      rfl
    · rfl

/-- The field at which the stream ends is not read, and the entry keeps what the fields before it changed. -/
theorem loadField_next_cut {t : Table} {i : Byte} {put : Byte → Entry → Entry} {s : State} {k : Nat}
    {f : Entry → Entry} (h : s.streamLen < s.pos + (k + 1)) :
    loadField t i put (s.entryRead t i k f) =
      .error (.raise .streamUnderrun (s.pos + k)) (s.entryRead t i k f) :=
  loadField_under (s := s.entryRead t i k f) h

/-- The luma bytes before the end of the stream are kept (41_codebook_loader.md R145). -/
theorem loadLuma_cut {t : Table} {form : EntryForm} {i : Byte} {s : State} {n : Nat} (hn : n < 4)
    (h : s.avail = n) :
    ∃ u, loadLuma t i s = .error (.raise .streamUnderrun (s.pos + n)) u ∧
      EntryBytesRead s t i n (entryHeld form s.payload 0 n) u := by
  rw [State.avail] at h
  rw [loadLuma]
  match n, hn with
  | 0, _ =>
    refine ⟨s, act_bind_error (loadField_under (by omega)), ?_⟩
    exact (funext (entryHeld_zero form s.payload 0) : _ = id) ▸ entryBytesRead_none s t i
  | 1, _ =>
    rw [act_bind_ok (loadField_first (by omega)), act_bind_error (loadField_next_cut (by omega))]
    exact ⟨_, rfl, by cases form <;> exact entryBytesRead_entryRead s t i 1 _⟩
  | 2, _ =>
    rw [act_bind_ok (loadField_first (by omega)), act_bind_ok (loadField_next (by omega)),
      act_bind_error (loadField_next_cut (by omega))]
    exact ⟨_, rfl, by cases form <;> exact entryBytesRead_entryRead s t i 2 _⟩
  | 3, _ =>
    rw [act_bind_ok (loadField_first (by omega)), act_bind_ok (loadField_next (by omega)),
      act_bind_ok (loadField_next (by omega)), loadField_next_cut (by omega)]
    exact ⟨_, rfl, by cases form <;> exact entryBytesRead_entryRead s t i 3 _⟩

/-- An entry of either form that the stream cuts (41_codebook_loader.md R145, R146; 60_exceptions.md R208). -/
theorem loadEntry_cut {t : Table} {form : EntryForm} {i : Byte} {s : State} {n : Nat} (hn : n < form.width)
    (h : s.avail = n) :
    ∃ u, loadEntry t form i s = .error (.raise .streamUnderrun (s.pos + n)) u ∧
      EntryBytesRead s t i n (entryHeld form s.payload 0 n) u := by
  rcases Nat.lt_or_ge n 4 with h4 | h4
  · obtain ⟨u, he, hu⟩ := loadLuma_cut (t := t) (form := form) (i := i) h4 h
    exact ⟨u, by cases form <;> exact act_bind_error he, hu⟩
  · cases form with
    | four => exact absurd hn (Nat.not_lt.mpr h4)
    | six =>
      have hn6 : n < 6 := hn
      rw [State.avail] at h
      rw [loadEntry, loadEntry6, act_bind_ok (loadLuma_ok (by omega))]
      obtain rfl | rfl : n = 4 ∨ n = 5 := by omega
      · rw [act_bind_error (loadField_next_cut (by omega))]
        exact ⟨_, rfl, entryBytesRead_entryRead s t i 4 _⟩
      · rw [act_bind_ok (loadField_next (by omega)), loadField_next_cut (by omega), biasChroma_eq]
        exact ⟨_, rfl, entryBytesRead_entryRead s t i 5 _⟩

/-- Settles O37. -/
theorem entryCutShortKeepsItsFields : Obligations.EntryCutShortKeepsItsFields := by
  intro s t form i n hn h
  have havail : s.avail = n := by rw [State.avail, ← h, Nat.add_sub_cancel_left]
  obtain ⟨u, he, hframe, hentries⟩ := loadEntry_cut (t := t) (i := i) hn havail
  refine ⟨u, he, hframe, fun slot t' k => ?_⟩
  rw [hentries, entryHeld, if_neg (Nat.not_le.mpr hn)]
  exact ite_congr rfl (fun hplace => by rw [hplace.1]) fun _ => rfl

end Sys2Proof.Machine
end

section
/-! The family 41_codebook_loader.md, the whole loaders: a loader's plan says where in the payload each entry's bytes
lie, in the order of the attempts (`PlanInOrder`), and after any number of payload bytes the table holds of each
planned entry exactly the bytes so far (`LoadedTo`). Each mode has an invariant of its 256 attempts, and one attempt
keeps it or ends the loader as the closed forms of Safety.lean say (`LoaderEnds`). -/

namespace Sys2Proof.Machine

/-! ### Plans -/

/-- The entries of a plan lie in the payload in the order of their attempts: `next k` is the unread position before
attempt `k`, none once the loader has ended. -/
structure PlanInOrder (width : Nat) (next plan : Nat → Option Nat) : Prop where
  ended : ∀ k, next k = none → next (k + 1) = none
  grows : ∀ k a b, next k = some a → next (k + 1) = some b → a ≤ b
  within : ∀ k o, plan k = some o → ∃ a, next k = some a ∧ a ≤ o ∧ next (k + 1) = some (o + width)

section
variable {width : Nat} {next plan : Nat → Option Nat}

theorem PlanInOrder.ended_of_le (h : PlanInOrder width next plan) {j k : Nat} (hjk : j ≤ k)
    (hj : next j = none) : next k = none := by
  induction hjk with
  | refl => exact hj
  | step _ ih => exact h.ended _ ih

theorem PlanInOrder.next_mono (h : PlanInOrder width next plan) {j k a b : Nat} (hjk : j ≤ k)
    (hj : next j = some a) (hk : next k = some b) : a ≤ b := by
  induction hjk generalizing b with
  | refl => exact (Option.some.inj (hj.symm.trans hk)).le
  | @step m _ ih =>
    cases hm : next m with
    | none => rw [h.ended m hm] at hk; cases hk
    | some c => exact (ih hm).trans (h.grows m c b hm hk)

/-- The entries of the attempts before `k` end by the position before attempt `k`. -/
theorem PlanInOrder.before (h : PlanInOrder width next plan) {i k o n : Nat} (hik : i < k)
    (hi : plan i = some o) (hk : next k = some n) : o + width ≤ n := by
  obtain ⟨_, _, _, hnext⟩ := h.within i o hi
  exact h.next_mono hik hnext hk

/-- The entries of the attempts from `k` on begin at or after the position before attempt `k`. -/
theorem PlanInOrder.after (h : PlanInOrder width next plan) {i k o n : Nat} (hki : k ≤ i)
    (hi : plan i = some o) (hk : next k = some n) : n ≤ o := by
  obtain ⟨a, hnext, hle, _⟩ := h.within i o hi
  exact (h.next_mono hki hk hnext).trans hle

/-- A loader that ends in attempt `k` has planned entries for the attempts before it alone. -/
theorem PlanInOrder.lt_of_ended (h : PlanInOrder width next plan) {i k o : Nat} (hk : next (k + 1) = none)
    (hi : plan i = some o) : i < k := by
  by_contra hki
  obtain ⟨_, _, _, hnext⟩ := h.within i o hi
  rw [h.ended_of_le (Nat.succ_le_succ (Nat.not_lt.mp hki)) hk] at hnext
  cases hnext

/-- While attempt `k` reads its own entry, no other planned entry is touched. -/
theorem PlanInOrder.apart (h : PlanInOrder width next plan) {i k o n : Nat} (hk : plan k = some n)
    (hik : i ≠ k) (hi : plan i = some o) : o + width ≤ n ∨ n + width ≤ o := by
  obtain ⟨a, hbefore, hle, hafter⟩ := h.within k n hk
  rcases Nat.lt_or_gt_of_ne hik with hlt | hgt
  · exact .inl ((h.before hlt hi hbefore).trans hle)
  · exact .inr (h.after hgt hi hafter)

end

/-- The unread position before attempt `k` of an unconditional loader. -/
def inOrderNext (width budget k : Nat) : Option Nat :=
  if k * width ≤ budget then some (k * width) else none

theorem inOrderFrom_inOrder (width budget : Nat) :
    PlanInOrder width (inOrderNext width budget) (inOrderFrom width budget) where
  ended k h := by
    simp only [inOrderNext, Nat.succ_mul] at h ⊢
    split at h
    · cases h
    · rw [if_neg (by omega)]
  grows k a b ha hb := by
    simp only [inOrderNext, Option.ite_none_right_eq_some, Option.some.injEq, Nat.succ_mul] at ha hb
    omega
  within k o h := by
    obtain ⟨hfits, rfl⟩ := inOrderFrom_eq_some.mp h
    refine ⟨k * width, if_pos ?_, le_rfl, ?_⟩
    · rw [Nat.succ_mul] at hfits
      omega
    · rw [inOrderNext, if_pos hfits, Nat.succ_mul]

theorem LoadCursor.next_le_atAttempt (c : LoadCursor) (k : Nat) : c.next ≤ (c.atAttempt k).next := by
  rw [LoadCursor.atAttempt]
  split
  · exact Nat.le_add_right _ _
  · rfl

section
variable {p : Nat → Byte} {width budget k : Nat} {c : LoadCursor}

theorem loadCursor_succ (h : loadCursor p width budget k = some c) :
    loadCursor p width budget (k + 1) =
      if budget < (c.atAttempt k).next then none
      else if flagAt p (c.atAttempt k).word (k % 32) then
        if budget < (c.atAttempt k).next + width then none
        else some { c.atAttempt k with next := (c.atAttempt k).next + width }
      else some (c.atAttempt k) := by
  rw [loadCursor, h]

theorem loadCursor_succ_le {d : LoadCursor} (h : loadCursor p width budget k = some c)
    (hd : loadCursor p width budget (k + 1) = some d) : (c.atAttempt k).next ≤ d.next := by
  rw [loadCursor_succ h] at hd
  split at hd
  · cases hd
  · split at hd
    · split at hd
      · cases hd
      · cases hd
        exact Nat.le_add_right _ _
    · cases hd
      rfl

theorem replacedFrom_eq_some {o : Nat} (h : loadCursor p width budget k = some c) :
    replacedFrom p width budget k = some o ↔
      o = (c.atAttempt k).next ∧ flagAt p (c.atAttempt k).word (k % 32) = true ∧ o + width ≤ budget := by
  simp only [replacedFrom, h, Option.ite_none_right_eq_some, Option.some.injEq]
  constructor
  · rintro ⟨⟨_, hflag, hfits⟩, rfl⟩
    exact ⟨rfl, hflag, hfits⟩
  · rintro ⟨rfl, hflag, hfits⟩
    exact ⟨⟨by omega, hflag, hfits⟩, rfl⟩

theorem cursor_of_replacedFrom {o : Nat} (h : replacedFrom p width budget k = some o) :
    ∃ c, loadCursor p width budget k = some c := by
  cases hc : loadCursor p width budget k with
  | none => simp [replacedFrom, hc] at h
  | some c => exact ⟨c, rfl⟩

end

/-- The unread position before attempt `k` of a conditional loader. -/
def flaggedNext (p : Nat → Byte) (width budget k : Nat) : Option Nat :=
  (loadCursor p width budget k).map LoadCursor.next

theorem replacedFrom_inOrder (p : Nat → Byte) (width budget : Nat) :
    PlanInOrder width (flaggedNext p width budget) (replacedFrom p width budget) where
  ended k h := by
    rw [flaggedNext, Option.map_eq_none_iff] at h ⊢
    rw [loadCursor, h]
  grows k a b ha hb := by
    rw [flaggedNext, Option.map_eq_some_iff] at ha hb
    obtain ⟨c, hc, rfl⟩ := ha
    obtain ⟨d, hd, rfl⟩ := hb
    exact (c.next_le_atAttempt k).trans (loadCursor_succ_le hc hd)
  within k o h := by
    obtain ⟨c, hc⟩ := cursor_of_replacedFrom h
    obtain ⟨rfl, hflag, hfits⟩ := (replacedFrom_eq_some hc).mp h
    refine ⟨c.next, by rw [flaggedNext, hc, Option.map_some], c.next_le_atAttempt k, ?_⟩
    rw [flaggedNext, loadCursor_succ hc, if_neg (by omega), if_pos hflag, if_neg (by omega), Option.map_some]

/-- A planned entry of an attempt from `k` on lies behind the flag word that attempt `k` may read. -/
theorem replacedFrom_after {p : Nat → Byte} {width budget i k o : Nat} {c : LoadCursor}
    (hc : loadCursor p width budget k = some c) (hki : k ≤ i) (hi : replacedFrom p width budget i = some o) :
    (c.atAttempt k).next ≤ o := by
  rcases Nat.eq_or_lt_of_le hki with rfl | hlt
  · exact ((replacedFrom_eq_some hc).mp hi).1.ge
  · have hplan := replacedFrom_inOrder p width budget
    cases hd : loadCursor p width budget (k + 1) with
    | none => exact absurd (hplan.lt_of_ended (k := k) (by rw [flaggedNext, hd]; rfl) hi) (by omega)
    | some d =>
      exact (loadCursor_succ_le hc hd).trans (hplan.after (n := d.next) hlt hi (by rw [flaggedNext, hd]; rfl))

/-- Once the budget has ended a loader, the stream cuts nothing more of it. -/
theorem loadCut_none_of_ended {p : Nat → Byte} {width budget avail k m : Nat}
    (hcut : loadCut p width budget avail k = none) (hended : loadCursor p width budget k = none) (hkm : k ≤ m) :
    loadCut p width budget avail m = none := by
  have hplan := replacedFrom_inOrder p width budget
  induction hkm with
  | refl => exact hcut
  | @step j hkj ih =>
    have hj : flaggedNext p width budget j = none := hplan.ended_of_le hkj (by rw [flaggedNext, hended]; rfl)
    rw [loadCut_succ_of_none ih, Option.map_eq_none_iff.mp hj]
    rfl

/-! ### The table after a part of the payload -/

/-- How much of an entry is held depends only on which of its own bytes have been read. -/
theorem entryHeld_congr {form : EntryForm} {p : Nat → Byte} {o n m : Nat} {old : Entry}
    (h : (o + form.width ≤ n ∧ o + form.width ≤ m) ∨ (n ≤ o ∧ m ≤ o)) :
    entryHeld form p o (n - o) old = entryHeld form p o (m - o) old := by
  rcases h with ⟨hn, hm⟩ | ⟨hn, hm⟩
  · rw [entryHeld_of_width_le (by omega), entryHeld_of_width_le (by omega)]
  · rw [Nat.sub_eq_zero_of_le hn, Nat.sub_eq_zero_of_le hm]

/-- What entry `i` of the table holds once the first `n` bytes of the payload have been read. -/
def State.heldAt (s : State) (t : Table) (form : EntryForm) (plan : Nat → Option Nat) (n : Nat) (i : Byte) :
    Entry :=
  match plan i.toNat with
  | some o => entryHeld form s.payload o (n - o) (s.entry s.si.toNat t i)
  | none => s.entry s.si.toNat t i

theorem State.heldAt_congr {s : State} {t : Table} {form : EntryForm} {plan : Nat → Option Nat} {n m : Nat}
    {i : Byte} (h : ∀ o, plan i.toNat = some o →
      (o + form.width ≤ n ∧ o + form.width ≤ m) ∨ (n ≤ o ∧ m ≤ o)) :
    s.heldAt t form plan n i = s.heldAt t form plan m i := by
  rw [State.heldAt, State.heldAt]
  cases hi : plan i.toNat with
  | none => rfl
  | some o => exact entryHeld_congr (h o hi)

/-- The state of a loader that started in `s`, once it has read the first `n` bytes of the payload. -/
structure LoadedTo (s : State) (t : Table) (form : EntryForm) (plan : Nat → Option Nat) (n : Nat)
    (u : State) : Prop where
  frame : u = { s with pos := s.pos + n, lflag := u.lflag, lmask := u.lmask, li := u.li, cb := u.cb }
  entries : ∀ i : Byte, u.entry s.si.toNat t i = s.heldAt t form plan n i
  others : ∀ slot t' (i : Byte), slot ≠ s.si.toNat ∨ t' ≠ t → u.entry slot t' i = s.entry slot t' i

section
variable {s u v : State} {t : Table} {form : EntryForm} {plan : Nat → Option Nat} {n : Nat}

theorem loadedTo_zero (s : State) (t : Table) (form : EntryForm) (plan : Nat → Option Nat) :
    LoadedTo s t form plan 0 s where
  frame := rfl
  entries i := by
    rw [State.heldAt]
    split <;> simp
  others _ _ _ _ := rfl

/-- The loader's registers are no part of what `LoadedTo` says. -/
theorem LoadedTo.withRegs (h : LoadedTo s t form plan n u) (word mask : FlagWord) (i : BitVec 9) :
    LoadedTo s t form plan n { u with lflag := word, lmask := mask, li := i } where
  frame := congrArg (fun x : State => { x with lflag := word, lmask := mask, li := i }) h.frame
  entries := h.entries
  others := h.others

theorem LoadedTo.pos_eq (h : LoadedTo s t form plan n u) : u.pos = s.pos + n := by rw [h.frame]

theorem LoadedTo.si_eq (h : LoadedTo s t form plan n u) : u.si = s.si := by rw [h.frame]

theorem LoadedTo.streamLen_eq (h : LoadedTo s t form plan n u) : u.streamLen = s.streamLen := by
  rw [h.frame]

theorem LoadedTo.streamByte_eq (h : LoadedTo s t form plan n u) (a : Nat) : streamByte u a = streamByte s a := by
  rw [h.frame]
  rfl

theorem LoadedTo.avail_eq (h : LoadedTo s t form plan n u) : u.avail = s.avail - n := by
  rw [State.avail, State.avail, h.pos_eq, h.streamLen_eq, Nat.sub_sub]

/-- The budget left is the payload less what has been read (40_frame_decoder.md R126). -/
theorem LoadedTo.rem_eq (h : LoadedTo s t form plan n u) (hstart : s.cstart = s.pos) :
    u.rem = s.csize.toNat - n := by
  have hcstart : u.cstart = s.cstart := by rw [h.frame]
  have hcsize : u.csize = s.csize := by rw [h.frame]
  rw [State.rem, hcsize, hcstart, h.pos_eq, hstart, Nat.add_sub_cancel_left]

theorem LoadedTo.payload_eq (h : LoadedTo s t form plan n u) : u.payload = fun j => s.payload (n + j) := by
  funext j
  rw [State.payload, State.payload, h.streamByte_eq, h.pos_eq, Nat.add_assoc]

/-- Bytes that belong to no entry, such as a flag word's, change no entry. -/
theorem LoadedTo.skip (h : LoadedTo s t form plan n u) {m : Nat} (hnm : n ≤ m)
    (hgap : ∀ i o, plan i = some o → o + form.width ≤ n ∨ m ≤ o) :
    LoadedTo s t form plan m (u.atPos (s.pos + m)) where
  frame := congrArg (State.atPos · (s.pos + m)) h.frame
  entries i := by
    refine (h.entries i).trans (State.heldAt_congr fun o ho => ?_)
    have := hgap i.toNat o ho
    omega
  others := h.others

/-- Bytes of the entry planned at the unread position go to that entry alone. -/
theorem LoadedTo.read (h : LoadedTo s t form plan n u) {i : Byte} {j : Nat} (hj : j ≤ form.width)
    (hplan : plan i.toNat = some n)
    (hgap : ∀ k o, k ≠ i.toNat → plan k = some o → o + form.width ≤ n ∨ n + form.width ≤ o)
    (hread : EntryBytesRead u t i j (entryHeld form u.payload 0 j) v) :
    LoadedTo s t form plan (n + j) v where
  frame := by
    have hv := hread.frame
    rw [h.frame, Nat.add_assoc] at hv
    exact hv.trans (by rw [hv])
  entries k := by
    rw [hread.entries, h.si_eq]
    by_cases hk : k = i
    · subst hk
      rw [if_pos ⟨rfl, rfl, rfl⟩, h.entries, h.payload_eq, State.heldAt, State.heldAt, hplan]
      simp only [Nat.sub_self, Nat.add_sub_cancel_left, entryHeld_zero]
      rfl
    · have hne : k.toNat ≠ i.toNat := fun he => hk (BitVec.eq_of_toNat_eq he)
      rw [if_neg fun hc => hk hc.2.2, h.entries]
      refine State.heldAt_congr fun o ho => ?_
      have := hgap k.toNat o hne ho
      omega
  others slot t' k hother := by
    rw [hread.entries, h.si_eq, if_neg, h.others slot t' k hother]
    rintro ⟨rfl, rfl, _⟩
    simp at hother

/-- Once every planned entry has been read, each holds its own bytes. -/
theorem LoadedTo.entry_of_done (h : LoadedTo s t form plan n u)
    (hdone : ∀ i o, i < 256 → plan i = some o → o + form.width ≤ n) (i : Byte) :
    u.entry s.si.toNat t i =
      match plan i.toNat with
      | some o => entryAt form s.payload o
      | none => s.entry s.si.toNat t i := by
  rw [h.entries, State.heldAt]
  cases hi : plan i.toNat with
  | none => rfl
  | some o =>
    have := hdone i.toNat o i.isLt hi
    exact entryHeld_of_width_le (by omega) _ _ _

end

/-! ### One attempt -/

theorem EntryForm.width_pos (form : EntryForm) : 0 < form.width := by cases form <;> decide

section
variable {t : Table} {cond : Bool} {form : EntryForm} {s u v : State} {next plan : Nat → Option Nat} {k n : Nat}

/-- An attempt whose entry is not due goes to the next index (41_codebook_loader.md R144). -/
theorem loadAttempt_not_due (h : updateDue cond u = .ok false v) :
    loadAttempt t cond form u = .ok () { v with li := v.li + 1#9 } := act_bind_ok h

theorem loadIfDue_true (t : Table) (form : EntryForm) (s : State) :
    loadIfDue t form true s = (do needPayload form.width; loadEntry t form (s.li.setWidth 8) : Act Unit) s := rfl

/-- An attempt whose entry is due tests the budget and reads the entry (41_codebook_loader.md R144). -/
theorem loadAttempt_due (h : updateDue cond u = .ok true v) :
    loadAttempt t cond form u =
      (do needPayload form.width; loadEntry t form (v.li.setWidth 8); modify fun s => { s with li := s.li + 1#9 } :
        Act Unit) v := by
  rw [loadAttempt, act_bind_ok h, act_bind, loadIfDue_true, act_bind, act_bind]
  cases needPayload form.width v with
  | ok _ _ => exact (act_bind _ _ _).symm
  | error _ _ => rfl

theorem loadAttempt_due_stop (h : updateDue cond u = .ok true v) (hrem : v.rem < form.width) :
    loadAttempt t cond form u = .error .stop v := by
  rw [loadAttempt_due h, act_bind_error (needPayload_stop hrem)]

/-- The index of attempt `k`, as the loader's register and as an entry's (10_state.md R29). -/
theorem setWidth_li_toNat (hk : k < 256) (hli : v.li = BitVec.ofNat 9 k) : (v.li.setWidth 8).toNat = k := by
  rw [hli, BitVec.toNat_setWidth, BitVec.toNat_ofNat]
  omega

/-- A due entry that the stream holds is loaded (41_codebook_loader.md R144). -/
theorem loadAttempt_due_held (h : updateDue cond u = .ok true v) (hrem : form.width ≤ v.rem) (hk : k < 256)
    (hli : v.li = BitVec.ofNat 9 k) (horder : PlanInOrder form.width next plan) (hplan : plan k = some n)
    (hloaded : LoadedTo s t form plan n v) (havail : n + form.width ≤ s.avail) :
    ∃ w, loadAttempt t cond form u = .ok () w ∧ LoadedTo s t form plan (n + form.width) w ∧
      w.li = BitVec.ofNat 9 (k + 1) ∧ w.lflag = v.lflag ∧ w.lmask = v.lmask := by
  have hfits : v.pos + form.width ≤ v.streamLen := by
    rw [State.avail] at havail
    rw [hloaded.pos_eq, hloaded.streamLen_eq]
    have := form.width_pos
    omega
  have hentry : entryHeld form v.payload 0 form.width = fun _ => entryAt form v.payload 0 :=
    funext (entryHeld_of_width_le le_rfl v.payload 0)
  have hread := entryBytesRead_entryRead v t (v.li.setWidth 8) form.width (entryHeld form v.payload 0 form.width)
  have hi := setWidth_li_toNat hk hli
  have hw := hloaded.read le_rfl (hi ▸ hplan) (hi ▸ fun _ _ => horder.apart hplan) hread
  rw [hentry] at hw
  refine ⟨_, ?_, hw.withRegs v.lflag v.lmask (v.li + 1#9), ?_, rfl, rfl⟩
  · rw [loadAttempt_due h, act_bind_ok (needPayload_ok hrem), act_bind_ok (loadEntry_ok hfits)]
    rfl
  · rw [BitVec.ofNat_add, ← hli]

/-- A due entry that the stream cuts is loaded as far as the stream goes (41_codebook_loader.md R145, R146). -/
theorem loadAttempt_due_cut (h : updateDue cond u = .ok true v) (hrem : form.width ≤ v.rem) (hk : k < 256)
    (hli : v.li = BitVec.ofNat 9 k) (horder : PlanInOrder form.width next plan) (hplan : plan k = some n)
    (hloaded : LoadedTo s t form plan n v) (hn : n ≤ s.avail) (havail : s.avail < n + form.width) :
    ∃ w, loadAttempt t cond form u = .error (.raise .streamUnderrun (s.pos + s.avail)) w ∧
      LoadedTo s t form plan s.avail w := by
  obtain ⟨w, he, hread⟩ := loadEntry_cut (t := t) (form := form) (i := v.li.setWidth 8) (s := v) (n := s.avail - n)
    (by omega) hloaded.avail_eq
  have hi := setWidth_li_toNat hk hli
  have hw := hloaded.read (by omega) (hi ▸ hplan) (hi ▸ fun _ _ => horder.apart hplan) hread
  rw [Nat.add_sub_cancel' hn] at hw
  refine ⟨w, ?_, hw⟩
  rw [loadAttempt_due h, act_bind_ok (needPayload_ok hrem), act_bind_error he, hloaded.pos_eq, Nat.add_assoc,
    Nat.add_sub_cancel' hn]

end

/-! ### How a loader ends -/

/-- How a loader's handler that started in `s` may end, by its plan and its cut: with every planned entry loaded and
the property `Q`, or in `StreamUnderrun` at the cut. -/
inductive LoaderEnds (s : State) (t : Table) (form : EntryForm) (plan : Nat → Option Nat) (cut : Option Nat)
    (Q : State → Prop) : EStateM.Result Ending State Unit → Prop
  | complete {u n r} (hr : r = .ok () u ∨ r = .error .stop u) (hcut : cut = none)
      (hloaded : LoadedTo s t form plan n u)
      (hdone : ∀ i o, i < 256 → plan i = some o → o + form.width ≤ n) (hq : Q u) :
      LoaderEnds s t form plan cut Q r
  | cut {u n} (hcut : cut = some n) (hloaded : LoadedTo s t form plan n u) :
      LoaderEnds s t form plan cut Q (.error (.raise .streamUnderrun (s.pos + n)) u)

/-- Attempts that each keep an invariant, or end the loader as `P` says, end it as `P` says. -/
theorem loadAttempts_ends {t : Table} {cond : Bool} {form : EntryForm} {Inv : Nat → State → Prop}
    {P : EStateM.Result Ending State Unit → Prop}
    (hstep : ∀ k u, k < 256 → Inv k u → (∃ v, loadAttempt t cond form u = .ok () v ∧ Inv (k + 1) v) ∨
      ∃ e v, loadAttempt t cond form u = .error e v ∧ P (.error e v))
    (hend : ∀ u, Inv 256 u → P (.ok () u)) :
    ∀ n k u, k + n = 256 → Inv k u → P (loadAttempts t cond form n u)
  | 0, k, u, hk, hu => hend u ((show k = 256 by omega) ▸ hu)
  | n + 1, k, u, hk, hu => by
    rw [loadAttempts]
    rcases hstep k u (by omega) hu with ⟨v, he, hv⟩ | ⟨e, v, he, hv⟩
    · rw [act_bind_ok he]
      exact loadAttempts_ends hstep hend n (k + 1) v (by omega) hv
    · rwa [act_bind_error he]

/-- A loader empties its flag stream and starts at index 0 (41_codebook_loader.md R141). -/
theorem loadCodebook_eq (t : Table) (cond : Bool) (form : EntryForm) (s : State) :
    loadCodebook t cond form s =
      loadAttempts t cond form 256 { s with lflag := 0#32, lmask := 0#32, li := 0#9 } := rfl

/-! ### The unconditional loaders -/

/-- What an unconditional loader's registers hold at the end (log entry 11). -/
def InOrderRegs (form : EntryForm) (z : Size) (u : State) : Prop :=
  u.lflag = 0#32 ∧ u.lmask = 0#32 ∧ u.li = BitVec.ofNat 9 (min 256 ((z.toNat - 4) / form.width))

/-- The invariant of an unconditional loader before attempt `k`: `k` entries are loaded. -/
structure InOrderInv (s : State) (t : Table) (form : EntryForm) (z : Size) (k : Nat) (u : State) : Prop where
  inBudget : k * form.width ≤ z.toNat - 4
  held : k * form.width ≤ s.avail
  loaded : LoadedTo s t form (inOrderFrom form.width (z.toNat - 4)) (k * form.width) u
  index : u.li = BitVec.ofNat 9 k
  word : u.lflag = 0#32
  mask : u.lmask = 0#32

section
variable {s u : State} {t : Table} {form : EntryForm} {z : Size} {k : Nat}

/-- An unconditional loader ends after as many entries as the budget holds, 256 at most. -/
theorem InOrderInv.complete (h : InOrderInv s t form z k u) (hk : min 256 ((z.toNat - 4) / form.width) = k)
    {r : EStateM.Result Ending State Unit} (hr : r = .ok () u ∨ r = .error .stop u) :
    LoaderEnds s t form (inOrderFrom form.width (z.toNat - 4)) (s.inOrderCut form z) (InOrderRegs form z) r := by
  refine .complete hr ?_ h.loaded (fun i o hi ho => ?_) ⟨h.word, h.mask, hk ▸ h.index⟩
  · rw [State.inOrderCut, hk, if_neg (Nat.not_lt.mpr h.held)]
  · obtain ⟨hfits, rfl⟩ := inOrderFrom_eq_some.mp ho
    have hik : i + 1 ≤ k := by
      have := (Nat.le_div_iff_mul_le form.width_pos).mpr hfits
      omega
    rw [← Nat.succ_mul]
    exact Nat.mul_le_mul_right _ hik

theorem InOrderInv.step (hstart : s.cstart = s.pos) (hsize : s.csize.toNat = z.toNat - 4) (hk : k < 256)
    (h : InOrderInv s t form z k u) :
    (∃ v, loadAttempt t false form u = .ok () v ∧ InOrderInv s t form z (k + 1) v) ∨
      ∃ e v, loadAttempt t false form u = .error e v ∧
        LoaderEnds s t form (inOrderFrom form.width (z.toNat - 4)) (s.inOrderCut form z) (InOrderRegs form z)
          (.error e v) := by
  have hdue : updateDue false u = .ok true u := rfl
  have hrem : u.rem = z.toNat - 4 - k * form.width := by rw [h.loaded.rem_eq hstart, hsize]
  have hsucc : (k + 1) * form.width = k * form.width + form.width := Nat.succ_mul _ _
  have hadm := h.inBudget
  by_cases hbudget : (k + 1) * form.width ≤ z.toNat - 4
  · have hplan : inOrderFrom form.width (z.toNat - 4) k = some (k * form.width) :=
      inOrderFrom_eq_some.mpr ⟨hbudget, rfl⟩
    by_cases hfits : (k + 1) * form.width ≤ s.avail
    · obtain ⟨v, he, hv, hli, hword, hmask⟩ := loadAttempt_due_held hdue (by omega) hk h.index
        (inOrderFrom_inOrder _ _) hplan h.loaded (by omega)
      exact .inl ⟨v, he, hbudget, hfits, hsucc ▸ hv, hli, hword.trans h.word, hmask.trans h.mask⟩
    · obtain ⟨v, he, hv⟩ := loadAttempt_due_cut hdue (by omega) hk h.index
        (inOrderFrom_inOrder _ _) hplan h.loaded h.held (by omega)
      have hcount : k + 1 ≤ min 256 ((z.toNat - 4) / form.width) :=
        le_min hk ((Nat.le_div_iff_mul_le form.width_pos).mpr hbudget)
      refine .inr ⟨_, v, he, .cut ?_ hv⟩
      rw [State.inOrderCut, if_pos ((Nat.not_le.mp hfits).trans_le (Nat.mul_le_mul_right _ hcount))]
  · have hcount : (z.toNat - 4) / form.width = k := Nat.div_eq_of_lt_le hadm (by simpa using hbudget)
    exact .inr ⟨_, u, loadAttempt_due_stop hdue (by omega), h.complete (by omega) (.inr rfl)⟩

/-- All an unconditional loader can do (41_codebook_loader.md R144, R147). -/
theorem loadCodebook_inOrder (t : Table) (form : EntryForm) (hstart : s.cstart = s.pos)
    (hsize : s.csize.toNat = z.toNat - 4) :
    LoaderEnds s t form (inOrderFrom form.width (z.toNat - 4)) (s.inOrderCut form z) (InOrderRegs form z)
      (loadCodebook t false form s) := by
  rw [loadCodebook_eq]
  refine loadAttempts_ends (Inv := InOrderInv s t form z) (fun k u hk hu => hu.step hstart hsize hk)
    (fun u hu => hu.complete ?_ (.inl rfl)) 256 0 _ rfl
    ⟨by simp, by simp, by simpa using (loadedTo_zero s t form _).withRegs _ _ _, rfl, rfl, rfl⟩
  have := (Nat.le_div_iff_mul_le form.width_pos).mpr hu.inBudget
  omega

end

/-! ### The flags of a conditional loader -/

theorem toNat_append_byte {w : Nat} (x : BitVec w) (b : Byte) : (x ++ b).toNat = x.toNat * 256 + b.toNat := by
  rw [BitVec.toNat_append, ← Nat.shiftLeft_add_eq_or_of_lt b.isLt, Nat.shiftLeft_eq]

/-- The 32-bit field of S is its four bytes, the first uppermost (20_memory.md R61). -/
theorem ofNat_field32 (s : State) (a : Nat) : BitVec.ofNat 32 (s.field32 a) =
    streamByte s a ++ streamByte s (a + 1) ++ streamByte s (a + 2) ++ streamByte s (a + 3) := by
  apply BitVec.eq_of_toNat_eq
  rw [field32_eq_bytes, BitVec.toNat_ofNat, toNat_append_byte, toNat_append_byte, toNat_append_byte]
  refine Nat.mod_eq_of_lt ?_
  have := (streamByte s a).isLt
  have := (streamByte s (a + 1)).isLt
  have := (streamByte s (a + 2)).isLt
  have := (streamByte s (a + 3)).isLt
  omega

/-- Flag `r` of a word is its bit `31 - r` (30_encoding.md R91). -/
theorem getLsbD_field32 (s : State) (o : Nat) {r : Nat} (hr : r < 32) :
    (BitVec.ofNat 32 (s.field32 (s.pos + o))).getLsbD (31 - r) = flagAt s.payload o r := by
  rw [ofNat_field32, flagAt, State.payload, BitVec.getLsbD_append, BitVec.getLsbD_append, BitVec.getLsbD_append]
  obtain hq | hq | hq | hq : r / 8 = 0 ∨ r / 8 = 1 ∨ r / 8 = 2 ∨ r / 8 = 3 := by omega
  · rw [hq, if_neg (by omega), if_neg (by omega), if_neg (by omega), show 31 - r - 8 - 8 - 8 = 7 - r % 8 by omega]
    rfl
  · rw [hq, if_neg (by omega), if_neg (by omega), if_pos (by omega), show 31 - r - 8 - 8 = 7 - r % 8 by omega]
    rfl
  · rw [hq, if_neg (by omega), if_pos (by omega), show 31 - r - 8 = 7 - r % 8 by omega]
    rfl
  · rw [hq, if_pos (by omega), show 31 - r = 7 - r % 8 by omega]
    rfl

/-- The mask after `m` flags: at the bit of the last one (41_codebook_loader.md R142). -/
def maskAfter (m : Nat) : FlagWord := if m = 0 then 0#32 else BitVec.twoPow 32 (31 - (m - 1) % 32)

theorem maskAfter_succ (k : Nat) : maskAfter (k + 1) = BitVec.twoPow 32 (31 - k % 32) := rfl

theorem maskAfter_exhausted {k : Nat} (h : k % 32 = 0) : maskAfter k = 0#32 ∨ maskAfter k = 1#32 := by
  rw [maskAfter]
  split
  · exact .inl rfl
  · rw [show (k - 1) % 32 = 31 by omega]
    exact .inr rfl

theorem maskAfter_within {k : Nat} (h : k % 32 ≠ 0) : maskAfter k = BitVec.twoPow 32 (31 - k % 32 + 1) := by
  rw [maskAfter, if_neg (by omega), show 31 - (k - 1) % 32 = 31 - k % 32 + 1 by omega]

theorem LoadCursor.atAttempt_due {c : LoadCursor} {k : Nat} (h : k % 32 = 0) :
    c.atAttempt k = { word := c.next, next := c.next + 4 } := if_pos h

theorem LoadCursor.atAttempt_within {c : LoadCursor} {k : Nat} (h : k % 32 ≠ 0) : c.atAttempt k = c := if_neg h

/-! ### The conditional loaders -/

/-- A conditional loader that has taken `m` flags: its flag registers, its table and its place in the payload agree
with the cursor. -/
structure FlagsTaken (s : State) (t : Table) (form : EntryForm) (z : Size) (m : Nat) (c : LoadCursor)
    (u : State) : Prop where
  inBudget : c.next ≤ z.toNat - 4
  held : c.next ≤ s.avail
  loaded : LoadedTo s t form (replacedFrom s.payload form.width (z.toNat - 4)) c.next u
  mask : u.lmask = maskAfter m
  word : m ≠ 0 → u.lflag = BitVec.ofNat 32 (s.field32 (s.pos + c.word))

/-- The invariant of a conditional loader before attempt `k`. -/
structure FlaggedInv (s : State) (t : Table) (form : EntryForm) (z : Size) (k : Nat) (c : LoadCursor)
    (u : State) : Prop where
  cursor : loadCursor s.payload form.width (z.toNat - 4) k = some c
  uncut : loadCut s.payload form.width (z.toNat - 4) s.avail k = none
  taken : FlagsTaken s t form z k c u
  index : u.li = BitVec.ofNat 9 k

/-- How a conditional loader ends, by its closed forms. -/
abbrev FlaggedEnds (s : State) (t : Table) (form : EntryForm) (z : Size)
    (r : EStateM.Result Ending State Unit) : Prop :=
  LoaderEnds s t form (replacedFrom s.payload form.width (z.toNat - 4)) (s.flaggedCut form z) (fun _ => True) r

section
variable {s u v : State} {t : Table} {form : EntryForm} {z : Size} {k n : Nat} {c : LoadCursor}

theorem FlaggedInv.mask_exhausted (h : FlaggedInv s t form z k c u) (hk : k % 32 = 0) :
    u.flagMask .loader = 0#32 ∨ u.flagMask .loader = 1#32 := by
  rw [State.flagMask, h.taken.mask]
  exact maskAfter_exhausted hk

/-- The flag word that attempt `k` may read lies between planned entries. -/
theorem FlaggedInv.apart_from_word (h : FlaggedInv s t form z k c u) {i o : Nat}
    (ho : replacedFrom s.payload form.width (z.toNat - 4) i = some o) :
    o + form.width ≤ c.next ∨ (c.atAttempt k).next ≤ o := by
  rcases Nat.lt_or_ge i k with hik | hki
  · exact .inl ((replacedFrom_inOrder _ _ _).before hik ho (by rw [flaggedNext, h.cursor]; rfl))
  · exact .inr (replacedFrom_after h.cursor hki ho)

/-- The state after attempt `k` has fetched a flag word from payload position `o`. -/
def State.wordFetched (s u : State) (o k : Nat) : State :=
  (u.atPos (s.pos + (o + 4))).setFlag .loader (BitVec.ofNat 32 (s.field32 (s.pos + o))) (maskAfter (k + 1))

/-- Every 32nd attempt takes the first flag of a new word (41_codebook_loader.md R142). -/
theorem FlaggedInv.flag_fetched (hstart : s.cstart = s.pos) (hsize : s.csize.toNat = z.toNat - 4)
    (h : FlaggedInv s t form z k c u) (hk : k % 32 = 0) (hinBudget : c.next + 4 ≤ z.toNat - 4)
    (hheld : c.next + 4 ≤ s.avail) :
    updateDue true u = .ok (flagAt s.payload c.next (k % 32)) (s.wordFetched u c.next k) := by
  have hloaded := h.taken.loaded
  have hpos := hloaded.pos_eq
  have hlen := hloaded.streamLen_eq
  have hfield : u.field32 u.pos = s.field32 (s.pos + c.next) := by
    rw [field32_eq_bytes, field32_eq_bytes, hpos]
    simp only [hloaded.streamByte_eq]
  rw [State.avail] at hheld
  have hfetch := takeFlag_fetch (h.mask_exhausted hk) (by rw [hloaded.rem_eq hstart, hsize]; omega) (by omega)
  rw [hfield, hpos, Nat.add_assoc] at hfetch
  rw [State.wordFetched, maskAfter_succ, hk, ← getLsbD_field32 s c.next (Nat.zero_lt_succ 31)]
  exact hfetch

/-- Every other attempt takes the next flag of the word in force (41_codebook_loader.md R142). -/
theorem FlaggedInv.flag_within (h : FlaggedInv s t form z k c u) (hk : k % 32 ≠ 0) :
    updateDue true u =
      .ok (flagAt s.payload c.word (k % 32)) (u.setFlag .loader u.lflag (maskAfter (k + 1))) := by
  have hflag := takeFlag_within (f := .loader) (s := u) (k := 31 - k % 32) (by omega)
    (h.taken.mask.trans (maskAfter_within hk))
  have hword : u.flagWord .loader = BitVec.ofNat 32 (s.field32 (s.pos + c.word)) :=
    h.taken.word fun hz => hk (by rw [hz])
  rw [hword, getLsbD_field32 s c.word (Nat.mod_lt _ (by decide)), ← hword] at hflag
  exact hflag

/-- The flag of attempt `k`, where the budget and the stream hold the word it may have to fetch. -/
theorem FlaggedInv.flag (hstart : s.cstart = s.pos) (hsize : s.csize.toNat = z.toNat - 4)
    (h : FlaggedInv s t form z k c u) (hinBudget : (c.atAttempt k).next ≤ z.toNat - 4)
    (hheld : (c.atAttempt k).next ≤ s.avail) :
    ∃ v, updateDue true u = .ok (flagAt s.payload (c.atAttempt k).word (k % 32)) v ∧
      FlagsTaken s t form z (k + 1) (c.atAttempt k) v ∧ v.li = BitVec.ofNat 9 k := by
  have hskip := h.taken.loaded.skip (c.next_le_atAttempt k) fun _ _ => h.apart_from_word
  by_cases hk : k % 32 = 0
  · rw [LoadCursor.atAttempt_due hk] at hinBudget hheld hskip ⊢
    exact ⟨s.wordFetched u c.next k, h.flag_fetched hstart hsize hk hinBudget hheld,
      ⟨hinBudget, hheld, hskip.withRegs _ _ _, rfl, fun _ => rfl⟩, h.index⟩
  · rw [LoadCursor.atAttempt_within hk] at hinBudget hheld ⊢
    exact ⟨u.setFlag .loader u.lflag (maskAfter (k + 1)), h.flag_within hk,
      ⟨hinBudget, hheld, h.taken.loaded.withRegs _ _ _, rfl, fun _ => h.taken.word fun hz => hk (by rw [hz])⟩,
      h.index⟩

/-- An attempt that reads past the position before it, before its entry, has a flag word due. -/
theorem LoadCursor.due_of_next_lt {b : Nat} (hc : c.next ≤ b) (h : b < (c.atAttempt k).next) : k % 32 = 0 := by
  by_contra hk
  rw [LoadCursor.atAttempt_within hk] at h
  omega

/-- Without budget for the flag word it needs, an attempt stops (41_codebook_loader.md R147). -/
theorem FlaggedInv.flag_stop (hstart : s.cstart = s.pos) (hsize : s.csize.toNat = z.toNat - 4)
    (h : FlaggedInv s t form z k c u) (hbudget : z.toNat - 4 < (c.atAttempt k).next) :
    loadAttempt t true form u = .error .stop { u with lmask := 0#32 } := by
  have hk := LoadCursor.due_of_next_lt h.taken.inBudget hbudget
  have hword : z.toNat - 4 < c.next + 4 := by rwa [LoadCursor.atAttempt_due hk] at hbudget
  have hrem : u.rem < 4 := by
    rw [h.taken.loaded.rem_eq hstart, hsize]
    omega
  exact act_bind_error (takeFlag_stop (shiftRight_one_of_exhausted (h.mask_exhausted hk)) hrem)

/-- A flag word that the budget holds and the stream does not fails the frame (20_memory.md R62). -/
theorem FlaggedInv.flag_cut (hstart : s.cstart = s.pos) (hsize : s.csize.toNat = z.toNat - 4)
    (h : FlaggedInv s t form z k c u) (hbudget : (c.atAttempt k).next ≤ z.toNat - 4)
    (hcut : s.avail < (c.atAttempt k).next) :
    loadAttempt t true form u = .error (.raise .streamUnderrun (s.pos + c.next)) { u with lmask := 0#32 } := by
  have hk := LoadCursor.due_of_next_lt h.taken.held hcut
  rw [LoadCursor.atAttempt_due hk] at hbudget hcut
  have hword : c.next + 4 ≤ z.toNat - 4 := hbudget
  have hshort : s.streamLen - s.pos < c.next + 4 := hcut
  have hrem : 4 ≤ u.rem := by
    rw [h.taken.loaded.rem_eq hstart, hsize]
    omega
  have hlen : u.streamLen < u.pos + 4 := by
    rw [h.taken.loaded.pos_eq, h.taken.loaded.streamLen_eq]
    omega
  rw [← h.taken.loaded.pos_eq]
  exact act_bind_error (takeFlag_under (shiftRight_one_of_exhausted (h.mask_exhausted hk)) hrem hlen)

/-- A loader that the budget ends in attempt `k` has loaded every planned entry. -/
theorem FlaggedInv.ended (h : FlaggedInv s t form z k c u) (hk : k < 256)
    (hended : loadCursor s.payload form.width (z.toNat - 4) (k + 1) = none)
    (hcut : attemptCut s.payload form.width (z.toNat - 4) s.avail k c = none) (hn : c.next ≤ n)
    (hloaded : LoadedTo s t form (replacedFrom s.payload form.width (z.toNat - 4)) n v) :
    FlaggedEnds s t form z (.error .stop v) := by
  have hplan := replacedFrom_inOrder s.payload form.width (z.toNat - 4)
  have huncut : loadCut s.payload form.width (z.toNat - 4) s.avail (k + 1) = none := by
    rw [loadCut_succ_of_none h.uncut, h.cursor, Option.bind_some, hcut]
  refine .complete (.inr rfl) (loadCut_none_of_ended huncut hended hk) hloaded (fun i o _ ho => ?_) trivial
  have hik := hplan.lt_of_ended (k := k) (by rw [flaggedNext, hended]; rfl) ho
  exact (hplan.before hik ho (by rw [flaggedNext, h.cursor]; rfl)).trans hn

/-- A loader that the stream cuts in attempt `k` ends at its first cut. -/
theorem FlaggedInv.cut (h : FlaggedInv s t form z k c u) (hk : k < 256)
    (hcut : attemptCut s.payload form.width (z.toNat - 4) s.avail k c = some n)
    (hloaded : LoadedTo s t form (replacedFrom s.payload form.width (z.toNat - 4)) n v) :
    FlaggedEnds s t form z (.error (.raise .streamUnderrun (s.pos + n)) v) := by
  refine .cut (loadCut_mono (n := k + 1) ?_ hk) hloaded
  rw [loadCut_succ_of_none h.uncut, h.cursor, Option.bind_some, hcut]

/-- An attempt without a cut gives the invariant before the next. -/
theorem FlaggedInv.succ {d : LoadCursor} (h : FlaggedInv s t form z k c u)
    (hcut : attemptCut s.payload form.width (z.toNat - 4) s.avail k c = none)
    (hcursor : loadCursor s.payload form.width (z.toNat - 4) (k + 1) = some d)
    (htaken : FlagsTaken s t form z (k + 1) d v) (hindex : v.li = BitVec.ofNat 9 (k + 1)) :
    FlaggedInv s t form z (k + 1) d v where
  cursor := hcursor
  uncut := by rw [loadCut_succ_of_none h.uncut, h.cursor, Option.bind_some, hcut]
  taken := htaken
  index := hindex

/-- Once an attempt has its flag, only its entry can be cut. -/
theorem attemptCut_of_flag {p : Nat → Byte} {width budget avail : Nat} (hbudget : (c.atAttempt k).next ≤ budget)
    (havail : (c.atAttempt k).next ≤ avail) :
    attemptCut p width budget avail k c =
      if flagAt p (c.atAttempt k).word (k % 32) = true ∧ (c.atAttempt k).next + width ≤ budget ∧
        avail < (c.atAttempt k).next + width then some avail else none :=
  (if_neg (Nat.not_lt.mpr hbudget)).trans (if_neg (Nat.not_lt.mpr havail))

/-- An attempt whose flag is 0 leaves its entry alone (41_codebook_loader.md R143). -/
theorem FlaggedInv.step_not_due (h : FlaggedInv s t form z k c u)
    (hflag : flagAt s.payload (c.atAttempt k).word (k % 32) = false) (hdue : updateDue true u = .ok false v)
    (htaken : FlagsTaken s t form z (k + 1) (c.atAttempt k) v) (hindex : v.li = BitVec.ofNat 9 k) :
    ∃ w, loadAttempt t true form u = .ok () w ∧ FlaggedInv s t form z (k + 1) (c.atAttempt k) w := by
  have hcut := attemptCut_of_flag (p := s.payload) (width := form.width) htaken.inBudget htaken.held
  have hnext := loadCursor_succ h.cursor
  rw [hflag, if_neg (by simp)] at hcut
  rw [hflag, if_neg (Nat.not_lt.mpr htaken.inBudget), if_neg (by simp)] at hnext
  refine ⟨_, loadAttempt_not_due hdue, h.succ hcut hnext
    ⟨htaken.inBudget, htaken.held, htaken.loaded.withRegs _ _ _, htaken.mask, htaken.word⟩ ?_⟩
  rw [hindex, BitVec.ofNat_add]

/-- An attempt whose flag is 1 reads its entry, if the budget and the stream hold it (41_codebook_loader.md R143,
R144). -/
theorem FlaggedInv.step_due (hstart : s.cstart = s.pos) (hsize : s.csize.toNat = z.toNat - 4) (hk : k < 256)
    (h : FlaggedInv s t form z k c u) (hflag : flagAt s.payload (c.atAttempt k).word (k % 32) = true)
    (hdue : updateDue true u = .ok true v) (htaken : FlagsTaken s t form z (k + 1) (c.atAttempt k) v)
    (hindex : v.li = BitVec.ofNat 9 k) :
    (∃ w, loadAttempt t true form u = .ok () w ∧ ∃ d, FlaggedInv s t form z (k + 1) d w) ∨
      ∃ e w, loadAttempt t true form u = .error e w ∧ FlaggedEnds s t form z (.error e w) := by
  have hcut := attemptCut_of_flag (p := s.payload) (width := form.width) htaken.inBudget htaken.held
  have hnext := loadCursor_succ h.cursor
  rw [hflag] at hcut
  rw [hflag, if_neg (Nat.not_lt.mpr htaken.inBudget), if_pos rfl] at hnext
  have hrem : v.rem = z.toNat - 4 - (c.atAttempt k).next := by rw [htaken.loaded.rem_eq hstart, hsize]
  have hinBudget := htaken.inBudget
  by_cases hbudget : z.toNat - 4 < (c.atAttempt k).next + form.width
  · rw [if_pos hbudget] at hnext
    rw [if_neg fun hc => Nat.not_le.mpr hbudget hc.2.1] at hcut
    exact .inr ⟨_, v, loadAttempt_due_stop hdue (by omega),
      h.ended hk hnext hcut (c.next_le_atAttempt k) htaken.loaded⟩
  · have hplan := (replacedFrom_eq_some h.cursor).mpr ⟨rfl, hflag, Nat.not_lt.mp hbudget⟩
    have horder := replacedFrom_inOrder s.payload form.width (z.toNat - 4)
    rw [if_neg hbudget] at hnext
    by_cases havail : s.avail < (c.atAttempt k).next + form.width
    · rw [if_pos ⟨rfl, Nat.not_lt.mp hbudget, havail⟩] at hcut
      obtain ⟨w, he, hw⟩ := loadAttempt_due_cut hdue (by omega) hk hindex horder hplan htaken.loaded htaken.held
        havail
      exact .inr ⟨_, w, he, h.cut hk hcut hw⟩
    · rw [if_neg fun hc => havail hc.2.2] at hcut
      obtain ⟨w, he, hw, hli, hword, hmask⟩ := loadAttempt_due_held hdue (by omega) hk hindex horder hplan
        htaken.loaded (Nat.not_lt.mp havail)
      exact .inl ⟨w, he, _, h.succ hcut hnext ⟨Nat.not_lt.mp hbudget, Nat.not_lt.mp havail, hw,
        hmask.trans htaken.mask, fun hz => hword.trans (htaken.word hz)⟩ hli⟩

/-- One attempt of a conditional loader: its flag, then the entry if the flag is 1 (41_codebook_loader.md R142 to
R144). -/
theorem FlaggedInv.step (hstart : s.cstart = s.pos) (hsize : s.csize.toNat = z.toNat - 4) (hk : k < 256)
    (h : FlaggedInv s t form z k c u) :
    (∃ v, loadAttempt t true form u = .ok () v ∧ ∃ d, FlaggedInv s t form z (k + 1) d v) ∨
      ∃ e v, loadAttempt t true form u = .error e v ∧ FlaggedEnds s t form z (.error e v) := by
  have hregs := h.taken.loaded.withRegs u.lflag 0#32 u.li
  by_cases hbudget : z.toNat - 4 < (c.atAttempt k).next
  · have hnext := (loadCursor_succ h.cursor).trans (if_pos hbudget)
    exact .inr ⟨_, _, h.flag_stop hstart hsize hbudget, h.ended hk hnext (if_pos hbudget) le_rfl hregs⟩
  by_cases havail : s.avail < (c.atAttempt k).next
  · exact .inr ⟨_, _, h.flag_cut hstart hsize (Nat.not_lt.mp hbudget) havail,
      h.cut hk ((if_neg hbudget).trans (if_pos havail)) hregs⟩
  obtain ⟨v, hdue, htaken, hindex⟩ := h.flag hstart hsize (Nat.not_lt.mp hbudget) (Nat.not_lt.mp havail)
  cases hflag : flagAt s.payload (c.atAttempt k).word (k % 32) with
  | false =>
    obtain ⟨w, he, hw⟩ := h.step_not_due hflag (hflag ▸ hdue) htaken hindex
    exact .inl ⟨w, he, _, hw⟩
  | true => exact h.step_due hstart hsize hk hflag (hflag ▸ hdue) htaken hindex

/-- All a conditional loader can do (41_codebook_loader.md R142 to R147). -/
theorem loadCodebook_flagged (t : Table) (form : EntryForm) (hstart : s.cstart = s.pos)
    (hsize : s.csize.toNat = z.toNat - 4) : FlaggedEnds s t form z (loadCodebook t true form s) := by
  rw [loadCodebook_eq]
  refine loadAttempts_ends (Inv := fun k u => ∃ c, FlaggedInv s t form z k c u)
    (fun k u hk ⟨c, hc⟩ => hc.step hstart hsize hk) ?_ 256 0 _ rfl
    ⟨{ word := 0, next := 0 }, rfl, rfl, ⟨Nat.zero_le _, Nat.zero_le _,
      (loadedTo_zero s t form _).withRegs _ _ _, rfl, fun hz => absurd rfl hz⟩, rfl⟩
  rintro u ⟨c, hc⟩
  exact .complete (.inl rfl) hc.uncut hc.taken.loaded (fun i o hi ho =>
    (replacedFrom_inOrder _ _ _).before hi ho (by rw [flaggedNext, hc.cursor]; rfl)) trivial

end

/-! ### The loader chunks -/

section
variable {id : Byte} {z : Size} {s : State} {t : Table} {form : EntryForm} {plan : Nat → Option Nat}
  {cut : Option Nat} {Q : State → Prop} {r : EStateM.Result Ending State Unit}

/-- A handler without a cut is followed by the reposition (40_frame_decoder.md R129). -/
theorem LoaderEnds.chunkEnd_complete (h : LoaderEnds (headerLatched id z s) t form plan cut Q r)
    (hcut : cut = none) :
    ∃ u n, chunkEnd r = u.atPos (s.pos + (z.toNat - 4)) ∧ LoadedTo (headerLatched id z s) t form plan n u ∧
      (∀ i o, i < 256 → plan i = some o → o + form.width ≤ n) ∧ Q u := by
  cases h with
  | @complete u n _ hr _ hloaded hdone hq =>
    refine ⟨u, n, ?_, hloaded, hdone, hq⟩
    have hend : u.cstart + u.csize.toNat = s.pos + (z.toNat - 4) := by
      rw [← size_sub_toNat, hloaded.frame]
      rfl
    rcases hr with rfl | rfl <;> rw [← hend] <;> rfl
  | cut h _ => rw [hcut] at h; cases h

/-- A handler with a cut is followed by the fault (60_exceptions.md R208). -/
theorem LoaderEnds.chunkEnd_cut {n : Nat} (h : LoaderEnds (headerLatched id z s) t form plan cut Q r)
    (hcut : cut = some n) :
    ∃ u, chunkEnd r = u.raiseFault .streamUnderrun (s.pos + n) ∧
      LoadedTo (headerLatched id z s) t form plan n u := by
  cases h with
  | complete _ h => rw [hcut] at h; cases h
  | @cut u m h hloaded =>
    obtain rfl : m = n := Option.some.inj (h.symm.trans hcut)
    exact ⟨u, rfl, hloaded⟩

/-- The chunk of a loader that the stream cuts. -/
theorem LoaderEnds.loadsUntilCut {cond : Bool} {n : Nat} (hz : 4 ≤ z.toNat)
    (h : LoaderEnds (headerLatched id z s) t form plan cut Q (loadCodebook t cond form (headerLatched id z s)))
    (hcut : cut = some n) : LoadsUntilCut (runChunk id z (loadCodebook t cond form) s) s id z t form plan n := by
  obtain ⟨u, hend, hloaded⟩ := h.chunkEnd_cut hcut
  exact ⟨u.raiseFault .streamUnderrun (s.pos + n), by rw [runChunk_ok hz, hend],
    congrArg (State.raiseFault · .streamUnderrun (s.pos + n)) hloaded.frame, hloaded.entries, hloaded.others⟩

/-- The chunk of an unconditional loader that the stream holds. -/
theorem runChunk_loadsInOrder (id : Byte) (t : Table) (hz : 4 ≤ z.toNat) (hcut : s.inOrderCut form z = none) :
    LoadsInOrder (runChunk id z (loadCodebook t false form) s) s id z t form := by
  obtain ⟨u, n, hend, hloaded, hdone, hword, hmask, hindex⟩ :=
    (loadCodebook_inOrder (s := headerLatched id z s) t form rfl (size_sub_toNat z)).chunkEnd_complete hcut
  have hframe := hloaded.frame
  rw [hword, hmask, hindex] at hframe
  refine ⟨u.atPos (s.pos + (z.toNat - 4)), by rw [runChunk_ok hz, hend], congrArg (State.atPos · _) hframe,
    fun k => (hloaded.entry_of_done hdone k).trans ?_, hloaded.others⟩
  have hfits : k.toNat < (z.toNat - 4) / form.width ↔ (k.toNat + 1) * form.width ≤ z.toNat - 4 :=
    Nat.le_div_iff_mul_le form.width_pos
  by_cases hk : k.toNat < (z.toNat - 4) / form.width
  · rw [inOrderFrom_eq_some.mpr ⟨hfits.mp hk, rfl⟩, if_pos hk]
    rfl
  · rw [inOrderFrom, if_neg (hfits.not.mp hk), if_neg hk]
    rfl

/-- The chunk of a conditional loader that the stream holds. -/
theorem runChunk_loadsFlagged (id : Byte) (t : Table) (hz : 4 ≤ z.toNat) (hcut : s.flaggedCut form z = none) :
    LoadsFlagged (runChunk id z (loadCodebook t true form) s) s id z t form := by
  obtain ⟨u, n, hend, hloaded, hdone, _⟩ :=
    (loadCodebook_flagged (s := headerLatched id z s) t form rfl (size_sub_toNat z)).chunkEnd_complete hcut
  exact ⟨u.atPos (s.pos + (z.toNat - 4)), by rw [runChunk_ok hz, hend], congrArg (State.atPos · _) hloaded.frame,
    hloaded.entry_of_done hdone, hloaded.others⟩

theorem runChunk_inOrder_cut {n : Nat} (id : Byte) (t : Table) (hz : 4 ≤ z.toNat)
    (hcut : s.inOrderCut form z = some n) :
    LoadsUntilCut (runChunk id z (loadCodebook t false form) s) s id z t form
      (inOrderFrom form.width (z.toNat - 4)) n :=
  (loadCodebook_inOrder (s := headerLatched id z s) t form rfl (size_sub_toNat z)).loadsUntilCut hz hcut

theorem runChunk_flagged_cut {n : Nat} (id : Byte) (t : Table) (hz : 4 ≤ z.toNat)
    (hcut : s.flaggedCut form z = some n) :
    LoadsUntilCut (runChunk id z (loadCodebook t true form) s) s id z t form
      (replacedFrom s.payload form.width (z.toNat - 4)) n :=
  (loadCodebook_flagged (s := headerLatched id z s) t form rfl (size_sub_toNat z)).loadsUntilCut hz hcut

end

/-- Settles O38: an unconditional loader keeps `InOrderInv`, and ends where the budget does. -/
theorem unconditionalLoadersFillFromIndexZero : Obligations.UnconditionalLoadersFillFromIndexZero :=
  fun _ _ hz =>
    ⟨fun hcut => ⟨runChunk_loadsInOrder _ _ hz hcut, runChunk_loadsInOrder _ _ hz hcut⟩,
      fun hcut => ⟨runChunk_loadsInOrder _ _ hz hcut, runChunk_loadsInOrder _ _ hz hcut⟩⟩

/-- Settles O39: a conditional loader keeps `FlaggedInv`, and ends where its cursor does. -/
theorem conditionalLoadersReplaceFlaggedEntries : Obligations.ConditionalLoadersReplaceFlaggedEntries :=
  fun _ _ hz =>
    ⟨fun hcut => ⟨runChunk_loadsFlagged _ _ hz hcut, runChunk_loadsFlagged _ _ hz hcut⟩,
      fun hcut => ⟨runChunk_loadsFlagged _ _ hz hcut, runChunk_loadsFlagged _ _ hz hcut⟩⟩

/-- Settles O40: under the same invariants, the read that the stream cuts is the first cut of the closed form. -/
theorem cutLoadersKeepWhatTheyLoaded : Obligations.CutLoadersKeepWhatTheyLoaded := fun _ _ _ hz =>
  ⟨fun hcut => ⟨runChunk_inOrder_cut _ _ hz hcut, runChunk_inOrder_cut _ _ hz hcut⟩,
    fun hcut => ⟨runChunk_inOrder_cut _ _ hz hcut, runChunk_inOrder_cut _ _ hz hcut⟩,
    fun hcut => ⟨runChunk_flagged_cut _ _ hz hcut, runChunk_flagged_cut _ _ hz hcut⟩,
    fun hcut => ⟨runChunk_flagged_cut _ _ hz hcut, runChunk_flagged_cut _ _ hz hcut⟩⟩

end Sys2Proof.Machine
end

section
/-! The family 42_vector_unpacker.md, its parts: what a V1 and a V4 block read and paint, and what the flags of a block
decide. -/

namespace Sys2Proof.Machine

/-! ### The pixels of a block -/

/-- The pixels of a list are those of one block, each once, and have the given colours. -/
structure PaintsBlock (ps : List BlockPixel) (colour : Nat → Nat → Rgb) : Prop where
  apart : ps.Pairwise fun p q => ¬ (p.dx = q.dx ∧ p.dy = q.dy)
  inside : ∀ p ∈ ps, p.dx < 4 ∧ p.dy < 4
  covers : ∀ dx dy, dx < 4 → dy < 4 → 
    ∃ p ∈ ps, p.dx = dx ∧ p.dy = dy ∧ convert p.lum p.u p.v = colour dx dy

/-- The place of a pixel in its block. -/
def BlockPixel.place (p : BlockPixel) : Nat × Nat := (p.dx, p.dy)

/-- Pixels at distinct places are apart. -/
theorem pairwise_apart_of_places {ps : List BlockPixel} (h : (ps.map BlockPixel.place).Nodup) :
    ps.Pairwise fun p q => ¬ (p.dx = q.dx ∧ p.dy = q.dy) :=
  (List.pairwise_map.mp h).imp fun hne he => hne (Prod.ext he.1 he.2)

theorem blockPlaces_covers : ∀ dx < 4, ∀ dy < 4, (dx, dy) ∈ blockPlaces := by decide

theorem v1Pixels_places (e : Entry) : (v1Pixels e).map BlockPixel.place = blockPlaces := rfl

/-- The colour of a pixel of a V1 block (42_vector_unpacker.md R170). -/
def Entry.v1Colour (e : Entry) (dx dy : Nat) : Rgb := convert (e.luma (2 * (dy / 2) + dx / 2)) e.u e.v

theorem v1Pixels_paintsBlock (e : Entry) : PaintsBlock (v1Pixels e) e.v1Colour where
  apart := pairwise_apart_of_places (v1Pixels_places e ▸ by decide)
  inside p hp := by
    obtain ⟨q, hq, rfl⟩ := List.mem_map.mp hp
    exact (show ∀ q ∈ blockPlaces, q.1 < 4 ∧ q.2 < 4 by decide) q hq
  covers dx dy hx hy := ⟨_, List.mem_map_of_mem (blockPlaces_covers dx hx dy hy), rfl, rfl, rfl⟩

/-- The entry of a quadrant (30_encoding.md R95). -/
def Quad.entry (e : Quad) : Nat → Entry
  | 0 => e.q0
  | 1 => e.q1
  | 2 => e.q2
  | _ => e.q3

/-- The colour of a pixel of a V4 block (42_vector_unpacker.md R172). -/
def Quad.v4Colour (e : Quad) (dx dy : Nat) : Rgb :=
  convert ((e.entry (2 * (dy / 2) + dx / 2)).luma (2 * (dy % 2) + dx % 2))
    (e.entry (2 * (dy / 2) + dx / 2)).u (e.entry (2 * (dy / 2) + dx / 2)).v

/-- The places of a V4 block in the order of painting, quadrant by quadrant. -/
def v4Places : List (Nat × Nat) :=
  [0, 1, 2, 3].flatMap fun q => [0, 1, 2, 3].map fun j => (2 * (q % 2) + j % 2, 2 * (q / 2) + j / 2)

theorem v4Pixels_places (e : Quad) : (v4Pixels e).map BlockPixel.place = v4Places := rfl

/-- Pixel `j` of quadrant `q` (42_vector_unpacker.md R172). -/
theorem pixel_mem_v4Pixels (e : Quad) {q j : Nat} (hq : q < 4) (hj : j < 4) :
    { dx := 2 * (q % 2) + j % 2, dy := 2 * (q / 2) + j / 2, lum := (e.entry q).luma j, u := (e.entry q).u,
      v := (e.entry q).v : BlockPixel } ∈ v4Pixels e := by
  have hfour : ∀ n < 4, n ∈ [0, 1, 2, 3] := by decide
  have hquads : v4Pixels e = [0, 1, 2, 3].flatMap fun q => quadrantPixels q (e.entry q) := rfl
  rw [hquads, List.mem_flatMap]
  exact ⟨q, hfour q hq, List.mem_map_of_mem (hfour j hj)⟩

theorem v4Pixels_paintsBlock (e : Quad) : PaintsBlock (v4Pixels e) e.v4Colour where
  apart := pairwise_apart_of_places (v4Pixels_places e ▸ by decide)
  inside p hp := by
    have hplace : p.place ∈ v4Places := v4Pixels_places e ▸ List.mem_map_of_mem hp
    exact (show ∀ q ∈ v4Places, q.1 < 4 ∧ q.2 < 4 by decide) p.place hplace
  covers dx dy hx hy := by
    refine ⟨_, pixel_mem_v4Pixels e (q := 2 * (dy / 2) + dx / 2) (j := 2 * (dy % 2) + dx % 2) (by omega) (by omega),
      ?_, ?_, rfl⟩ <;> simp only <;> omega

/-! ### R after a block -/

/-- Byte `c` of a pixel that has been given a colour, or left as it was. -/
def colouredByte (colour : Option Rgb) (c : Nat) (old : Option Byte) : Option Byte :=
  match colour with
  | some rgb => rgb.bytes[c]?
  | none => old

@[simp] theorem colouredByte_some (rgb : Rgb) (c : Nat) (old : Option Byte) :
    colouredByte (some rgb) c old = rgb.bytes[c]? := rfl

@[simp] theorem colouredByte_none (c : Nat) (old : Option Byte) : colouredByte none c old = old := rfl

/-- R after the block at (x, y) of a frame has been treated: its pixels in the frame have their colours, if they are
given one, and every other byte is as it was. -/
structure BlockPainted (width height x y : Nat) (colour : Nat → Nat → Option Rgb) (m m' : Memory) : Prop where
  pixels : ∀ dx dy c, dx < 4 → dy < 4 → c < 3 → x + dx < width → y + dy < height →
    m'.read (pixelAddr width (x + dx) (y + dy) + c) =
      colouredByte (colour dx dy) c (m.read (pixelAddr width (x + dx) (y + dy) + c))
  others : ∀ a, (∀ dx dy c, dx < 4 → dy < 4 → c < 3 → x + dx < width → y + dy < height →
    a ≠ pixelAddr width (x + dx) (y + dy) + c) → m'.read a = m.read a

/-- A byte of none of the painted pixels stays. -/
theorem paintPixels_read_of_ne {width height x y a : Nat} {ps : List BlockPixel} {m : Memory}
    (h : ∀ p ∈ ps, x + p.dx < width → y + p.dy < height →
      ∀ c < 3, a ≠ pixelAddr width (x + p.dx) (y + p.dy) + c) :
    (paintPixels width height x y ps m).read a = m.read a := by
  induction ps generalizing m with
  | nil => rfl
  | cons p ps ih =>
    rw [paintPixels, List.foldl_cons]
    refine (ih fun q hq => h q (List.mem_cons_of_mem p hq)).trans ?_
    by_cases hin : x + p.dx < width ∧ y + p.dy < height
    · refine pixelWrite_other ?_
      have := h p List.mem_cons_self hin.1 hin.2 (a - pixelAddr width (x + p.dx) (y + p.dy))
      omega
    · rw [pixelWrite_outside hin]

theorem PaintsBlock.blockPainted {ps : List BlockPixel} {colour : Nat → Nat → Rgb} (h : PaintsBlock ps colour)
    (width height x y : Nat) (m : Memory) :
    BlockPainted width height x y (fun dx dy => some (colour dx dy)) m (paintPixels width height x y ps m) where
  pixels dx dy c hdx hdy hc hx hy := by
    obtain ⟨p, hp, rfl, rfl, hcolour⟩ := h.covers dx dy hdx hdy
    rw [colouredByte_some, ← hcolour]
    exact paintPixels_at hp h.apart hx hy hc
  others a ha := paintPixels_read_of_ne fun p hp hx hy c hc => by
    obtain ⟨hdx, hdy⟩ := h.inside p hp
    exact ha p.dx p.dy c hdx hdy hc hx hy

/-! ### The index bytes of a block -/

/-- Byte `k` of the payload, read in its turn (20_memory.md R58). -/
theorem readU8_payload {s : State} {k : Nat} (h : s.pos + k + 1 ≤ s.streamLen) :
    readU8 (s.atPos (s.pos + k)) = .ok (s.payload k) (s.atPos (s.pos + (k + 1))) :=
  readU8_ok (s := s.atPos (s.pos + k)) h

theorem readU8_payload_zero {s : State} (h : s.pos + 1 ≤ s.streamLen) :
    readU8 s = .ok (s.payload 0) (s.atPos (s.pos + 1)) := readU8_payload (k := 0) h

theorem readU8_payload_under {s : State} {k : Nat} (h : s.streamLen < s.pos + k + 1) :
    readU8 (s.atPos (s.pos + k)) = .error (.raise .streamUnderrun (s.pos + k)) (s.atPos (s.pos + k)) :=
  readU8_under (s := s.atPos (s.pos + k)) h

/-- The entries that the four index bytes at `POS` name (42_vector_unpacker.md R171). -/
def State.quadAtPos (s : State) : Quad :=
  { q0 := s.entry s.si.toNat .v4 (s.payload 0), q1 := s.entry s.si.toNat .v4 (s.payload 1),
    q2 := s.entry s.si.toNat .v4 (s.payload 2), q3 := s.entry s.si.toNat .v4 (s.payload 3) }

theorem State.quadAtPos_entry (s : State) {q : Nat} (hq : q < 4) :
    s.quadAtPos.entry q = s.entry s.si.toNat .v4 (s.payload q) := by
  obtain rfl | rfl | rfl | rfl : q = 0 ∨ q = 1 ∨ q = 2 ∨ q = 3 := by omega
  all_goals rfl

/-- A V1 block without budget (42_vector_unpacker.md R173). -/
theorem v1Block_stop {s : State} (hrem : s.rem < 1) : v1Block s = .error .stop s :=
  act_bind_error (act_bind_error (needPayload_stop hrem))

/-- A V1 block that the stream cuts. -/
theorem v1Block_under {s : State} (hrem : 1 ≤ s.rem) (hlen : s.streamLen < s.pos + 1) :
    v1Block s = .error (.raise .streamUnderrun s.pos) s := by
  refine act_bind_error ?_
  rw [readV1, act_bind_ok (needPayload_ok hrem), act_bind_error (readU8_under hlen)]

/-- A V1 block reads its index and paints (42_vector_unpacker.md R169, R170). -/
theorem v1Block_ok {s : State} (hrem : 1 ≤ s.rem) (hlen : s.pos + 1 ≤ s.streamLen) :
    v1Block s =
      .ok () ((s.atPos (s.pos + 1)).paint (v1Pixels (s.entry s.si.toNat .v1 (s.payload 0)))) := by
  refine act_bind_ok (t := s.atPos (s.pos + 1)) ?_
  rw [readV1, act_bind_ok (needPayload_ok hrem), act_bind_ok (readU8_ok hlen)]
  rfl

/-- A V4 block without budget for its four bytes reads none (42_vector_unpacker.md R171). -/
theorem v4Block_stop {s : State} (hrem : s.rem < 4) : v4Block s = .error .stop s :=
  act_bind_error (act_bind_error (needPayload_stop hrem))

/-- A V4 block that the stream cuts reads as far as the stream goes (42_vector_unpacker.md R171, R179). -/
theorem v4Block_under {s : State} (hrem : 4 ≤ s.rem) (havail : s.avail < 4) :
    v4Block s =
      .error (.raise .streamUnderrun (s.pos + s.avail)) (s.atPos (s.pos + s.avail)) := by
  have hlen : s.streamLen - s.pos = s.avail := rfl
  refine act_bind_error ?_
  rw [readV4, act_bind_ok (needPayload_ok hrem)]
  obtain h | h | h | h : s.avail = 0 ∨ s.avail = 1 ∨ s.avail = 2 ∨ s.avail = 3 := by omega
  all_goals rw [h] at hlen ⊢
  · exact act_bind_error (readU8_under (by omega))
  · rw [act_bind_ok (readU8_payload_zero (by omega)), act_bind_error (readU8_payload_under (by omega))]
  · rw [act_bind_ok (readU8_payload_zero (by omega)), act_bind_ok (readU8_payload (by omega)),
      act_bind_error (readU8_payload_under (by omega))]
  · rw [act_bind_ok (readU8_payload_zero (by omega)), act_bind_ok (readU8_payload (by omega)),
      act_bind_ok (readU8_payload (by omega)), act_bind_error (readU8_payload_under (by omega))]

/-- A V4 block reads its four indices and paints (42_vector_unpacker.md R171, R172). -/
theorem v4Block_ok {s : State} (hrem : 4 ≤ s.rem) (hlen : s.pos + 4 ≤ s.streamLen) :
    v4Block s = .ok () ((s.atPos (s.pos + 4)).paint (v4Pixels s.quadAtPos)) := by
  refine act_bind_ok (t := s.atPos (s.pos + 4)) ?_
  rw [readV4, act_bind_ok (needPayload_ok hrem), act_bind_ok (readU8_payload_zero (by omega)),
    act_bind_ok (readU8_payload (by omega)), act_bind_ok (readU8_payload (by omega)),
    act_bind_ok (readU8_payload (by omega))]
  rfl

/-- Settles O42: the three ways a V1 block ends, and the pixels it paints. -/
theorem v1BlockPaintsItsQuadrants : Obligations.V1BlockPaintsItsQuadrants := fun s =>
  ⟨v1Block_stop, v1Block_under, fun hrem hlen =>
    have hpainted := (v1Pixels_paintsBlock (s.entry s.si.toNat .v1 (s.payload 0))).blockPainted
      s.width.toNat s.height.toNat s.bX.toNat s.bY.toNat s.raster
    ⟨_, v1Block_ok hrem hlen, rfl, hpainted.pixels, hpainted.others⟩⟩

/-- Settles O43: the three ways a V4 block ends, and the pixels it paints. -/
theorem v4BlockPaintsEachQuadrantFromItsEntry : Obligations.V4BlockPaintsEachQuadrantFromItsEntry := by
  intro s
  refine ⟨v4Block_stop, fun hrem hlen => ?_, fun hrem hlen => ?_⟩
  · have havail : s.avail < 4 := by rw [State.avail]; omega
    have hend : max s.pos s.streamLen = s.pos + s.avail := by rw [State.avail]; omega
    rw [hend]
    exact v4Block_under hrem havail
  · have hpainted := (v4Pixels_paintsBlock s.quadAtPos).blockPainted
      s.width.toNat s.height.toNat s.bX.toNat s.bY.toNat s.raster
    refine ⟨_, v4Block_ok hrem hlen, rfl, fun dx dy c hdx hdy hc hx hy => ?_, hpainted.others⟩
    rw [← s.quadAtPos_entry (q := 2 * (dy / 2) + dx / 2) (by omega)]
    exact hpainted.pixels dx dy c hdx hdy hc hx hy

/-! ### What the flags of a block decide -/

/-- Taking a flag writes no byte of R. -/
theorem takeFlag_raster (f : FlagStream) {s t : State} {b : Bool} (h : takeFlag f s = .ok b t) :
    t.raster = s.raster := by
  have hR : ReadKept fun s t : State => t.raster = s.raster :=
    { chain_eq State.raster with forward := fun _ _ _ => rfl }
  have hkept := (Keeps.takeFlag hR f fun s w m => s.setFlag_raster f w m) s
  rw [h] at hkept
  exact hkept.1

theorem vectorBlock_of_skip {s t : State} {skipEn selEn skip : Bool} (h : flagIfActive .skip skipEn s = .ok skip t) :
    vectorBlock skipEn selEn s = if skip then .ok () t else codedBlock selEn t := by
  rw [vectorBlock, act_bind_ok h]
  cases skip <;> rfl

theorem codedBlock_of_sel {s t : State} {selEn isV4 : Bool} (h : flagIfActive .sel selEn s = .ok isV4 t) :
    codedBlock selEn s = if isV4 then v4Block t else v1Block t := by
  rw [codedBlock, act_bind_ok h]
  cases isV4 <;> rfl

/-- Settles O44: a block is sequenced by its two flags. -/
theorem blockDecisionPolicy : Obligations.BlockDecisionPolicy := fun _ _ _ _ =>
  ⟨fun h => ⟨vectorBlock_of_skip (skipEn := true) h, takeFlag_raster .skip h⟩,
    fun h => vectorBlock_of_skip (skipEn := true) h, vectorBlock_of_skip (skipEn := false) rfl,
    fun h => codedBlock_of_sel (selEn := true) h, codedBlock_of_sel (selEn := false) rfl,
    fun _ h => act_bind_error h, fun _ h => act_bind_error h⟩

end Sys2Proof.Machine
end

section
/-! The family 42_vector_unpacker.md, one block against its plan: where the machine's registers agree with the plan's
cursor before a block (`BlockAt`), the block is treated as `planBlock` and `blockCut` say (`BlockRuns`). -/

namespace Sys2Proof.Machine

/-! ### The state between two reads -/

/-- The state of a vector chunk whose handler started in `s`, once it has read the first `n` bytes of the payload. -/
structure UnpackedTo (s : State) (n : Nat) (u : State) : Prop where
  begun : s.cstart = s.pos
  inBudget : n ≤ s.csize.toNat
  held : n ≤ s.avail
  frame : u = { s with pos := s.pos + n, bX := u.bX, bY := u.bY, skf := u.skf, skm := u.skm, slf := u.slf,
                       slm := u.slm, raster := u.raster }

section
variable {s u v : State} {n : Nat}

theorem UnpackedTo.pos_eq (h : UnpackedTo s n u) : u.pos = s.pos + n := by rw [h.frame]

theorem UnpackedTo.si_eq (h : UnpackedTo s n u) : u.si = s.si := by rw [h.frame]

theorem UnpackedTo.width_eq (h : UnpackedTo s n u) : u.width = s.width := by rw [h.frame]

theorem UnpackedTo.height_eq (h : UnpackedTo s n u) : u.height = s.height := by rw [h.frame]

theorem UnpackedTo.streamLen_eq (h : UnpackedTo s n u) : u.streamLen = s.streamLen := by rw [h.frame]

theorem UnpackedTo.curStrip_eq (h : UnpackedTo s n u) : u.curStrip = s.curStrip := by
  rw [h.frame]
  rfl

theorem UnpackedTo.entry_eq (h : UnpackedTo s n u) (slot : Nat) (t : Table) (i : Byte) :
    u.entry slot t i = s.entry slot t i := by
  rw [h.frame]
  rfl

theorem UnpackedTo.streamByte_eq (h : UnpackedTo s n u) (a : Nat) : streamByte u a = streamByte s a := by
  rw [h.frame]
  rfl

theorem UnpackedTo.payload_eq (h : UnpackedTo s n u) (k : Nat) : u.payload k = s.payload (n + k) := by
  rw [State.payload, State.payload, h.streamByte_eq, h.pos_eq, Nat.add_assoc]

theorem UnpackedTo.field32_eq (h : UnpackedTo s n u) (a : Nat) : u.field32 a = s.field32 a := by
  rw [field32_eq_bytes, field32_eq_bytes]
  simp only [h.streamByte_eq]

theorem UnpackedTo.avail_eq (h : UnpackedTo s n u) : u.avail = s.avail - n := by
  rw [State.avail, State.avail, h.pos_eq, h.streamLen_eq, Nat.sub_sub]

/-- The budget left is the payload less what has been read (40_frame_decoder.md R126). -/
theorem UnpackedTo.rem_eq (h : UnpackedTo s n u) : u.rem = s.csize.toNat - n := by
  have hcstart : u.cstart = s.cstart := by rw [h.frame]
  have hcsize : u.csize = s.csize := by rw [h.frame]
  rw [State.rem, hcsize, hcstart, h.pos_eq, h.begun, Nat.add_sub_cancel_left]

/-- A read of `k` bytes is cut exactly when the stream does not hold them. -/
theorem UnpackedTo.fits_iff (h : UnpackedTo s n u) {k : Nat} (hk : 0 < k) :
    u.pos + k ≤ u.streamLen ↔ n + k ≤ s.avail := by
  rw [State.avail, h.pos_eq, h.streamLen_eq]
  omega

theorem UnpackedTo.atPos (h : UnpackedTo s n u) {m : Nat} (hinBudget : m ≤ s.csize.toNat) (hheld : m ≤ s.avail) :
    UnpackedTo s m (u.atPos (s.pos + m)) where
  begun := h.begun
  inBudget := hinBudget
  held := hheld
  frame := congrArg (State.atPos · (s.pos + m)) h.frame

theorem UnpackedTo.paint (h : UnpackedTo s n u) (ps : List BlockPixel) : UnpackedTo s n (u.paint ps) where
  begun := h.begun
  inBudget := h.inBudget
  held := h.held
  frame := congrArg (fun x : State => { x with raster := (u.paint ps).raster }) h.frame

theorem UnpackedTo.setFlag (h : UnpackedTo s n u) {f : FlagStream} (hf : f ≠ .loader) (word mask : FlagWord) :
    UnpackedTo s n (u.setFlag f word mask) where
  begun := h.begun
  inBudget := h.inBudget
  held := h.held
  frame := by
    cases f with
    | loader => exact absurd rfl hf
    | skip => exact congrArg (fun x : State => { x with skf := word, skm := mask }) h.frame
    | sel => exact congrArg (fun x : State => { x with slf := word, slm := mask }) h.frame

theorem UnpackedTo.atCorner (h : UnpackedTo s n u) (x : BitVec 17) (y : BitVec 33) :
    UnpackedTo s n { u with bX := x, bY := y } where
  begun := h.begun
  inBudget := h.inBudget
  held := h.held
  frame := congrArg (fun t : State => { t with bX := x, bY := y }) h.frame

end

/-! ### One flag -/

/-- The registers of a flag stream after `m` flags, the word in force being the one at payload position `word`. -/
structure FlagsTo (s : State) (f : FlagStream) (m word : Nat) (u : State) : Prop where
  mask : u.flagMask f = maskAfter m
  word : m ≠ 0 → u.flagWord f = BitVec.ofNat 32 (s.field32 (s.pos + word))

/-- Which word is in force after flag `m` has been asked for, and the next unread position: an active stream fetches
a word for every 32nd flag (30_encoding.md R96; 42_vector_unpacker.md R162). -/
inductive Served (active : Bool) (m word n : Nat) : Nat → Nat → Prop
  | fetched (hactive : active = true) (hdue : m % 32 = 0) : Served active m word n n (n + 4)
  | kept (h : ¬ (active = true ∧ m % 32 = 0)) : Served active m word n word n

section
variable {s u v : State} {f : FlagStream} {active : Bool} {m word n word' n' : Nat}

/-- Only the stream's own two registers matter. -/
theorem FlagsTo.of_regs (h : FlagsTo s f m word u) (hword : v.flagWord f = u.flagWord f)
    (hmask : v.flagMask f = u.flagMask f) : FlagsTo s f m word v where
  mask := hmask.trans h.mask
  word hm := hword.trans (h.word hm)

/-- Only a fetched word takes the unread position further. -/
theorem Served.fetched_of_lt {b : Nat} (h : Served active m word n word' n') (hn : n ≤ b) (hb : b < n') :
    active = true ∧ m % 32 = 0 ∧ n' = n + 4 := by
  cases h with
  | fetched hactive hdue => exact ⟨hactive, hdue, rfl⟩
  | kept => exact absurd hn (Nat.not_le.mpr hb)

/-- Without budget for the word that is due, taking a flag stops (42_vector_unpacker.md R173). -/
theorem flagIfActive_stop (hread : UnpackedTo s n u) (hflags : active = true → FlagsTo s f m word u)
    (hserved : Served active m word n word' n') (hbudget : s.csize.toNat < n') :
    flagIfActive f active u = .error .stop (u.setFlag f (u.flagWord f) 0#32) := by
  obtain ⟨rfl, hdue, rfl⟩ := hserved.fetched_of_lt hread.inBudget hbudget
  have hmask := (hflags rfl).mask ▸ maskAfter_exhausted hdue
  exact takeFlag_stop (shiftRight_one_of_exhausted hmask) (by rw [hread.rem_eq]; omega)

/-- A flag word that the budget holds and the stream does not fails the frame at its own position (20_memory.md
R62). -/
theorem flagIfActive_cut (hread : UnpackedTo s n u) (hflags : active = true → FlagsTo s f m word u)
    (hserved : Served active m word n word' n') (hbudget : n' ≤ s.csize.toNat) (havail : s.avail < n') :
    flagIfActive f active u =
      .error (.raise .streamUnderrun (s.pos + n)) (u.setFlag f (u.flagWord f) 0#32) := by
  obtain ⟨rfl, hdue, rfl⟩ := hserved.fetched_of_lt hread.held havail
  have hmask := (hflags rfl).mask ▸ maskAfter_exhausted hdue
  have hfits := hread.fits_iff (k := 4) (by decide)
  rw [← hread.pos_eq]
  exact takeFlag_under (shiftRight_one_of_exhausted hmask) (by rw [hread.rem_eq]; omega) (by omega)

/-- A flag that the budget and the stream hold is the payload's own (30_encoding.md R91). -/
theorem flagIfActive_taken (hread : UnpackedTo s n u) (hflags : active = true → FlagsTo s f m word u)
    (hserved : Served active m word n word' n') (hbudget : n' ≤ s.csize.toNat) (havail : n' ≤ s.avail) :
    ∃ w k, flagIfActive f active u =
        .ok (active && flagAt s.payload word' (m % 32)) ((u.atPos (s.pos + n')).setFlag f w k) ∧
      (active = true → FlagsTo s f (m + 1) word' ((u.atPos (s.pos + n')).setFlag f w k)) := by
  cases hserved with
  | fetched hactive hdue =>
    subst hactive
    have hmask : u.flagMask f = 0#32 ∨ u.flagMask f = 1#32 := (hflags rfl).mask ▸ maskAfter_exhausted hdue
    have hfits := hread.fits_iff (k := 4) (by decide)
    have hflag := takeFlag_fetch hmask (by rw [hread.rem_eq]; omega) (by omega)
    rw [hread.field32_eq, hread.pos_eq, Nat.add_assoc, getLsbD_field32 s n (r := 0) (by decide), ← hdue] at hflag
    refine ⟨_, _, hflag, fun _ => ⟨?_, fun _ => State.setFlag_flagWord _ _ _ _⟩⟩
    rw [State.setFlag_flagMask, maskAfter_succ, hdue]
  | kept hkept =>
    have hpos : u.atPos (s.pos + n) = u := by
      rw [← hread.pos_eq]
      rfl
    rw [hpos]
    cases active with
    | false =>
      have hsame : u.setFlag f (u.flagWord f) (u.flagMask f) = u := by cases f <;> rfl
      exact ⟨u.flagWord f, u.flagMask f, by rw [hsame]; rfl, nofun⟩
    | true =>
      have hdue : m % 32 ≠ 0 := fun hdue => hkept ⟨rfl, hdue⟩
      have hword := (hflags rfl).word fun hm => hdue (by rw [hm])
      have hflag := takeFlag_within (f := f) (s := u) (k := 31 - m % 32) (by omega)
        ((hflags rfl).mask.trans (maskAfter_within hdue))
      rw [hword, getLsbD_field32 s word (Nat.mod_lt _ (by decide))] at hflag
      refine ⟨_, _, hflag, fun _ => ⟨?_, fun _ => State.setFlag_flagWord _ _ _ _⟩⟩
      rw [State.setFlag_flagMask, maskAfter_succ]

end

/-! ### The plan of one block -/

theorem VecCursor.serveSkip_served (c : VecCursor) (skipEn : Bool) (b : Nat) :
    Served skipEn b c.skipWord c.next (c.serveSkip skipEn b).skipWord (c.serveSkip skipEn b).next := by
  unfold VecCursor.serveSkip
  split
  · exact .fetched ‹_ ∧ _›.1 ‹_ ∧ _›.2
  · exact .kept ‹_›

theorem VecCursor.serveSel_served (c : VecCursor) (selEn : Bool) :
    Served selEn c.coded c.selWord c.next (c.serveSel selEn).selWord (c.serveSel selEn).next := by
  unfold VecCursor.serveSel
  split
  · exact .fetched ‹_ ∧ _›.1 ‹_ ∧ _›.2
  · exact .kept ‹_›

theorem VecCursor.serveSkip_sel (c : VecCursor) (skipEn : Bool) (b : Nat) :
    (c.serveSkip skipEn b).selWord = c.selWord ∧ (c.serveSkip skipEn b).coded = c.coded := by
  unfold VecCursor.serveSkip
  split <;> exact ⟨rfl, rfl⟩

theorem VecCursor.serveSel_skip (c : VecCursor) (selEn : Bool) :
    (c.serveSel selEn).skipWord = c.skipWord ∧ (c.serveSel selEn).coded = c.coded := by
  unfold VecCursor.serveSel
  split <;> exact ⟨rfl, rfl⟩

/-- How many index bytes a coded block has (42_vector_unpacker.md R169, R171). -/
def indexCount (isV4 : Bool) : Nat := if isV4 then 4 else 1

/-- Where the stream cuts the index bytes of a coded block. -/
def indexCut (budget avail : Nat) (isV4 : Bool) (c : VecCursor) : Option Nat :=
  if c.next + indexCount isV4 ≤ budget ∧ avail < c.next + indexCount isV4 then some avail else none

/-- The part of `planBlock` after the skip decision. -/
def planCoded (selEn : Bool) (p : Nat → Byte) (budget : Nat) (c : VecCursor) : Option (BlockAct × VecCursor) :=
  if budget < (c.serveSel selEn).next then none
  else codeBlock p budget (selEn && flagAt p (c.serveSel selEn).selWord ((c.serveSel selEn).coded % 32))
    (c.serveSel selEn)

/-- The part of `blockCut` after the skip decision. -/
def codedCut (selEn : Bool) (p : Nat → Byte) (budget avail : Nat) (c : VecCursor) : Option Nat :=
  if budget < (c.serveSel selEn).next then none
  else if avail < (c.serveSel selEn).next then some c.next
  else indexCut budget avail (selEn && flagAt p (c.serveSel selEn).selWord ((c.serveSel selEn).coded % 32))
    (c.serveSel selEn)

theorem planBlock_eq (skipEn selEn : Bool) (p : Nat → Byte) (budget b : Nat) (c : VecCursor) :
    planBlock skipEn selEn p budget b c =
      if budget < (c.serveSkip skipEn b).next then none
      else if skipEn && flagAt p (c.serveSkip skipEn b).skipWord (b % 32) then
        some (.skip, c.serveSkip skipEn b)
      else planCoded selEn p budget (c.serveSkip skipEn b) := rfl

theorem blockCut_eq (skipEn selEn : Bool) (p : Nat → Byte) (budget avail b : Nat) (c : VecCursor) :
    blockCut skipEn selEn p budget avail b c =
      if budget < (c.serveSkip skipEn b).next then none
      else if avail < (c.serveSkip skipEn b).next then some c.next
      else if skipEn && flagAt p (c.serveSkip skipEn b).skipWord (b % 32) then none
      else codedCut selEn p budget avail (c.serveSkip skipEn b) := rfl

/-! ### One block -/

/-- The unpacker with `k` skip flags taken, at the block whose corner is (x, y), with the cursor `c` and R as `m`. -/
structure BlockAt (s : State) (skipEn selEn : Bool) (x y : Nat) (m : Memory) (k : Nat) (c : VecCursor)
    (u : State) : Prop where
  read : UnpackedTo s c.next u
  skip : skipEn = true → FlagsTo s .skip k c.skipWord u
  sel : selEn = true → FlagsTo s .sel c.coded c.selWord u
  column : u.bX.toNat = x
  row : u.bY.toNat = y
  raster : u.raster = m

/-- How block `b`, at the corner (x, y), may end, by its plan and its cut: treated as planned with the registers ready
for the next block; stopped by the budget, or cut by the stream, and then with R as it was. -/
inductive BlockRuns (s : State) (skipEn selEn : Bool) (b x y : Nat) (m : Memory) :
    Option (BlockAct × VecCursor) → Option Nat → EStateM.Result Ending State Unit → Prop
  | done {act d v} (hat : BlockAt s skipEn selEn x y v.raster (b + 1) d v)
      (hpaint : BlockPainted s.width.toNat s.height.toNat x y (s.actColour act) m v.raster) :
      BlockRuns s skipEn selEn b x y m (some (act, d)) none (.ok () v)
  | stopped {n v} (hread : UnpackedTo s n v) (hraster : v.raster = m) :
      BlockRuns s skipEn selEn b x y m none none (.error .stop v)
  | cut {plan n v} (hread : UnpackedTo s n v) (hraster : v.raster = m) :
      BlockRuns s skipEn selEn b x y m plan (some n) (.error (.raise .streamUnderrun (s.pos + n)) v)

/-- A skipped block is left as it was (42_vector_unpacker.md R166). -/
theorem blockPainted_skip (s : State) (width height x y : Nat) (m : Memory) :
    BlockPainted width height x y (s.actColour .skip) m m where
  pixels _ _ _ _ _ _ _ _ := rfl
  others _ _ := rfl

/-- Only the colours inside the block matter. -/
theorem BlockPainted.congr {width height x y : Nat} {f g : Nat → Nat → Option Rgb} {m m' : Memory}
    (h : BlockPainted width height x y f m m') (hfg : ∀ dx dy, dx < 4 → dy < 4 → f dx dy = g dx dy) :
    BlockPainted width height x y g m m' where
  pixels dx dy c hdx hdy hc hx hy := hfg dx dy hdx hdy ▸ h.pixels dx dy c hdx hdy hc hx hy
  others := h.others

section
variable {s u v : State} {skipEn selEn : Bool} {b x y k : Nat} {m : Memory} {c : VecCursor}

/-- A painted block, by the state that is painted. -/
theorem BlockAt.blockPainted (h : BlockAt s skipEn selEn x y m k c u) (n : Nat) {ps : List BlockPixel}
    {colour : Nat → Nat → Rgb} (hps : PaintsBlock ps colour) :
    BlockPainted s.width.toNat s.height.toNat x y (fun dx dy => some (colour dx dy)) m
      ((u.atPos n).paint ps).raster := by
  have hraster : ((u.atPos n).paint ps).raster = paintPixels s.width.toNat s.height.toNat x y ps m := by
    rw [← h.read.width_eq, ← h.read.height_eq, ← h.column, ← h.row, ← h.raster]
    rfl
  rw [hraster]
  exact hps.blockPainted _ _ _ _ _

/-- The unpacker after `n` index bytes of a block have been read and the block has been painted. -/
theorem BlockAt.painted (h : BlockAt s skipEn selEn x y m k { c with coded := c.coded + 1 } u) {n : Nat}
    (hbudget : c.next + n ≤ s.csize.toNat) (havail : c.next + n ≤ s.avail) (ps : List BlockPixel) :
    BlockAt s skipEn selEn x y ((u.atPos (s.pos + (c.next + n))).paint ps).raster k
      { c with next := c.next + n, coded := c.coded + 1 } ((u.atPos (s.pos + (c.next + n))).paint ps) where
  read := (h.read.atPos hbudget havail).paint ps
  skip he := (h.skip he).of_regs rfl rfl
  sel he := (h.sel he).of_regs rfl rfl
  column := h.column
  row := h.row
  raster := rfl

/-- Of the four indices of a V4 block, the one of a pixel's quadrant (42_vector_unpacker.md R172). -/
theorem actColour_v4 (s : State) (i : Nat → Byte) {dx dy : Nat} (hdx : dx < 4) (hdy : dy < 4) :
    s.actColour (.v4 (i 0) (i 1) (i 2) (i 3)) dx dy =
      some (convert ((s.entry s.si.toNat .v4 (i (2 * (dy / 2) + dx / 2))).luma (2 * (dy % 2) + dx % 2))
        (s.entry s.si.toNat .v4 (i (2 * (dy / 2) + dx / 2))).u
        (s.entry s.si.toNat .v4 (i (2 * (dy / 2) + dx / 2))).v) := by
  have hindex : (if dy < 2 then (if dx < 2 then i 0 else i 1) else (if dx < 2 then i 2 else i 3)) =
      i (2 * (dy / 2) + dx / 2) := by
    split <;> split <;> exact congrArg i (by omega)
  rw [State.actColour, hindex]

/-- The colours of the V4 block at the unread position (42_vector_unpacker.md R172). -/
theorem UnpackedTo.v4Colour_eq {n : Nat} (h : UnpackedTo s n u) {dx dy : Nat} (hdx : dx < 4) (hdy : dy < 4) :
    some (u.quadAtPos.v4Colour dx dy) =
      s.actColour (.v4 (s.payload n) (s.payload (n + 1)) (s.payload (n + 2)) (s.payload (n + 3))) dx dy := by
  rw [Quad.v4Colour, u.quadAtPos_entry (by omega), h.payload_eq, h.entry_eq, h.si_eq]
  exact (actColour_v4 s (fun k => s.payload (n + k)) hdx hdy).symm

/-- A V1 block as planned (42_vector_unpacker.md R169, R170, R173, R179). -/
theorem v1Block_runs (h : BlockAt s skipEn selEn x y m (b + 1) { c with coded := c.coded + 1 } u) :
    BlockRuns s skipEn selEn b x y m (codeBlock s.payload s.csize.toNat false c)
      (indexCut s.csize.toNat s.avail false c) (v1Block u) := by
  have hread : UnpackedTo s c.next u := h.read
  have hrem := hread.rem_eq
  have hfits := hread.fits_iff (k := 1) (by decide)
  have hplan : codeBlock s.payload s.csize.toNat false c = if s.csize.toNat < c.next + 1 then none
    else some (.v1 (s.payload c.next), { c with next := c.next + 1, coded := c.coded + 1 }) := rfl
  have hcut : indexCut s.csize.toNat s.avail false c =
    if c.next + 1 ≤ s.csize.toNat ∧ s.avail < c.next + 1 then some s.avail else none := rfl
  by_cases hbudget : s.csize.toNat < c.next + 1
  · rw [hplan, hcut, if_pos hbudget, if_neg (by omega), v1Block_stop (by omega)]
    exact .stopped hread h.raster
  by_cases havail : s.avail < c.next + 1
  · have hend : s.avail = c.next := by have := hread.held; omega
    rw [hcut, if_pos (by omega), v1Block_under (by omega) (by omega), hread.pos_eq, hend]
    exact .cut hread h.raster
  · rw [hplan, hcut, if_neg hbudget, if_neg (by omega), v1Block_ok (by omega) (by omega), hread.pos_eq,
      hread.entry_eq, hread.si_eq, hread.payload_eq, Nat.add_assoc]
    exact .done (h.painted (by omega) (by omega) _) (h.blockPainted _ (v1Pixels_paintsBlock _))

/-- A V4 block as planned (42_vector_unpacker.md R171 to R173, R179). -/
theorem v4Block_runs (h : BlockAt s skipEn selEn x y m (b + 1) { c with coded := c.coded + 1 } u) :
    BlockRuns s skipEn selEn b x y m (codeBlock s.payload s.csize.toNat true c)
      (indexCut s.csize.toNat s.avail true c) (v4Block u) := by
  have hread : UnpackedTo s c.next u := h.read
  have hrem := hread.rem_eq
  have hfits := hread.fits_iff (k := 4) (by decide)
  have hplan : codeBlock s.payload s.csize.toNat true c = if s.csize.toNat < c.next + 4 then none
    else some (.v4 (s.payload c.next) (s.payload (c.next + 1)) (s.payload (c.next + 2)) (s.payload (c.next + 3)),
      { c with next := c.next + 4, coded := c.coded + 1 }) := rfl
  have hcut : indexCut s.csize.toNat s.avail true c =
    if c.next + 4 ≤ s.csize.toNat ∧ s.avail < c.next + 4 then some s.avail else none := rfl
  by_cases hbudget : s.csize.toNat < c.next + 4
  · rw [hplan, hcut, if_pos hbudget, if_neg (by omega), v4Block_stop (by omega)]
    exact .stopped hread h.raster
  by_cases havail : s.avail < c.next + 4
  · have hend : u.pos + u.avail = s.pos + s.avail := by
      have := hread.held
      rw [hread.pos_eq, hread.avail_eq]
      omega
    rw [hcut, if_pos (by omega), v4Block_under (by omega) (by rw [hread.avail_eq]; omega), hend]
    exact .cut (hread.atPos (by omega) le_rfl) h.raster
  · rw [hplan, hcut, if_neg hbudget, if_neg (by omega), v4Block_ok (by omega) (by omega), hread.pos_eq,
      Nat.add_assoc]
    exact .done (h.painted (by omega) (by omega) _)
      ((h.blockPainted _ (v4Pixels_paintsBlock _)).congr fun _ _ => hread.v4Colour_eq)

/-- A coded block: its selector flag, then its indices (42_vector_unpacker.md R167 to R173). -/
theorem codedBlock_runs (h : BlockAt s skipEn selEn x y m (b + 1) c u) :
    BlockRuns s skipEn selEn b x y m (planCoded selEn s.payload s.csize.toNat c)
      (codedCut selEn s.payload s.csize.toNat s.avail c) (codedBlock selEn u) := by
  have hserved := c.serveSel_served selEn
  obtain ⟨hskipWord, hcoded⟩ := c.serveSel_skip selEn
  unfold planCoded codedCut
  by_cases hbudget : s.csize.toNat < (c.serveSel selEn).next
  · rw [if_pos hbudget, if_pos hbudget, codedBlock, act_bind_error (flagIfActive_stop h.read h.sel hserved hbudget)]
    exact .stopped (h.read.setFlag (by decide) _ _) h.raster
  by_cases havail : s.avail < (c.serveSel selEn).next
  · rw [if_neg hbudget, if_neg hbudget, if_pos havail, codedBlock,
      act_bind_error (flagIfActive_cut h.read h.sel hserved (Nat.not_lt.mp hbudget) havail)]
    exact .cut (h.read.setFlag (by decide) _ _) h.raster
  obtain ⟨w, q, hflag, hsel⟩ :=
    flagIfActive_taken h.read h.sel hserved (Nat.not_lt.mp hbudget) (Nat.not_lt.mp havail)
  rw [if_neg hbudget, if_neg hbudget, if_neg havail, codedBlock_of_sel hflag, hcoded]
  have hat : BlockAt s skipEn selEn x y m (b + 1)
      { c.serveSel selEn with coded := (c.serveSel selEn).coded + 1 }
      ((u.atPos (s.pos + (c.serveSel selEn).next)).setFlag .sel w q) :=
    { read := (h.read.atPos (Nat.not_lt.mp hbudget) (Nat.not_lt.mp havail)).setFlag (by decide) w q
      skip := fun he => by
        rw [hskipWord]
        exact (h.skip he).of_regs rfl rfl
      sel := fun he => by
        rw [hcoded]
        exact hsel he
      column := h.column
      row := h.row
      raster := h.raster }
  cases selEn && flagAt s.payload (c.serveSel selEn).selWord (c.coded % 32) with
  | false => exact v1Block_runs hat
  | true => exact v4Block_runs hat

/-- One block of the walk: its skip flag, then the coded block (42_vector_unpacker.md R164 to R166, R174). -/
theorem vectorBlock_runs (h : BlockAt s skipEn selEn x y m b c u) :
    BlockRuns s skipEn selEn b x y m (planBlock skipEn selEn s.payload s.csize.toNat b c)
      (blockCut skipEn selEn s.payload s.csize.toNat s.avail b c) (vectorBlock skipEn selEn u) := by
  have hserved := c.serveSkip_served skipEn b
  obtain ⟨hselWord, hcoded⟩ := c.serveSkip_sel skipEn b
  rw [planBlock_eq, blockCut_eq]
  by_cases hbudget : s.csize.toNat < (c.serveSkip skipEn b).next
  · rw [if_pos hbudget, if_pos hbudget, vectorBlock,
      act_bind_error (flagIfActive_stop h.read h.skip hserved hbudget)]
    exact .stopped (h.read.setFlag (by decide) _ _) h.raster
  by_cases havail : s.avail < (c.serveSkip skipEn b).next
  · rw [if_neg hbudget, if_neg hbudget, if_pos havail, vectorBlock,
      act_bind_error (flagIfActive_cut h.read h.skip hserved (Nat.not_lt.mp hbudget) havail)]
    exact .cut (h.read.setFlag (by decide) _ _) h.raster
  obtain ⟨w, q, hflag, hskip⟩ :=
    flagIfActive_taken h.read h.skip hserved (Nat.not_lt.mp hbudget) (Nat.not_lt.mp havail)
  rw [if_neg hbudget, if_neg hbudget, if_neg havail, vectorBlock_of_skip hflag]
  have hat : BlockAt s skipEn selEn x y m (b + 1) (c.serveSkip skipEn b)
      ((u.atPos (s.pos + (c.serveSkip skipEn b).next)).setFlag .skip w q) :=
    { read := (h.read.atPos (Nat.not_lt.mp hbudget) (Nat.not_lt.mp havail)).setFlag (by decide) w q
      skip := hskip
      sel := fun he => by
        rw [hselWord, hcoded]
        exact (h.sel he).of_regs rfl rfl
      column := h.column
      row := h.row
      raster := h.raster }
  cases skipEn && flagAt s.payload (c.serveSkip skipEn b).skipWord (b % 32) with
  | false => exact codedBlock_runs hat
  | true =>
    refine .done (d := c.serveSkip skipEn b) { hat with raster := rfl } ?_
    rw [hat.raster]
    exact blockPainted_skip s _ _ x y m

end

end Sys2Proof.Machine
end

section
/-! The family 42_vector_unpacker.md, the whole chunks: each block of the walk keeps an invariant (`WalkAt`), or ends
the walk as the closed forms of Safety.lean say (`VectorEnds`). -/

namespace Sys2Proof.Machine

/-! ### The blocks of a walk -/

section
variable {r : StripRec} {i j x y : Nat}

/-- The turns that cover `n` in steps of 4 are those that begin before `n`. -/
theorem lt_steps4 {n : Nat} : i < steps4 n ↔ 4 * i < n := by
  rw [steps4]
  omega

/-- Before a column of the walk ends, `BX` is left of the strip's right edge (42_vector_unpacker.md R163). -/
theorem StripRec.column_lt (h : i < r.blockCols) : r.left.toNat + 4 * i < r.right.toNat := by
  have := lt_steps4.mp h
  omega

theorem StripRec.row_lt (h : j < r.blockRows) : r.top.toNat + 4 * j < r.bottom.toNat := by
  have := lt_steps4.mp h
  omega

/-- The blocks of a walk are numbered below their count. -/
theorem StripRec.block_lt (hi : i < r.blockCols) (hj : j < r.blockRows) :
    j * r.blockCols + i < r.blockCols * r.blockRows :=
  calc j * r.blockCols + i < (j + 1) * r.blockCols := by rw [Nat.succ_mul]; omega
    _ ≤ r.blockRows * r.blockCols := Nat.mul_le_mul_right _ hj
    _ = r.blockCols * r.blockRows := Nat.mul_comm _ _

/-- A block of the walk holds the sixteen pixels from its corner on. -/
theorem StripRec.blockOf_eq_some_iff (hi : i < r.blockCols) (hj : j < r.blockRows) :
    r.blockOf x y = some (j * r.blockCols + i) ↔
      ∃ dx dy, dx < 4 ∧ dy < 4 ∧ x = r.left.toNat + 4 * i + dx ∧ y = r.top.toNat + 4 * j + dy := by
  have hcols : 0 < r.blockCols := by omega
  simp only [StripRec.blockOf, Option.ite_none_right_eq_some, Option.some.injEq]
  constructor
  · rintro ⟨⟨hx, hcol, hy, hrow⟩, heq⟩
    have hcolumn : (x - r.left.toNat) / 4 = i := by
      have := congrArg (· % r.blockCols) heq
      simpa [Nat.mul_add_mod', Nat.mod_eq_of_lt, hcol, hi] using this
    have hline : (y - r.top.toNat) / 4 = j := by
      rw [hcolumn, Nat.add_right_cancel_iff] at heq
      exact Nat.eq_of_mul_eq_mul_right hcols heq
    exact ⟨(x - r.left.toNat) % 4, (y - r.top.toNat) % 4, by omega, by omega, by omega, by omega⟩
  · rintro ⟨dx, dy, hdx, hdy, rfl, rfl⟩
    have hcolumn : (r.left.toNat + 4 * i + dx - r.left.toNat) / 4 = i := by omega
    have hline : (r.top.toNat + 4 * j + dy - r.top.toNat) / 4 = j := by omega
    rw [hcolumn, hline]
    exact ⟨⟨by omega, hi, by omega, hj⟩, rfl⟩

/-- A pixel in a block of the walk is in one of its blocks. -/
theorem StripRec.blockOf_lt {b : Nat} (h : r.blockOf x y = some b) : b < r.blockCols * r.blockRows := by
  simp only [StripRec.blockOf, Option.ite_none_right_eq_some, Option.some.injEq] at h
  obtain ⟨⟨_, hcol, _, hrow⟩, rfl⟩ := h
  exact StripRec.block_lt hcol hrow

end

/-! ### R after a part of a plan -/

/-- A plan as far as the blocks before `k`. -/
def planBefore (plan : Nat → Option BlockAct) (k : Nat) : Nat → Option BlockAct :=
  fun b => if b < k then plan b else none

theorem planColour_eq (s : State) (plan : Nat → Option BlockAct) (x y : Nat) :
    s.planColour plan x y = (s.curStrip.blockOf x y).bind fun b => (plan b).bind fun act =>
      s.actColour act ((x - s.curStrip.left.toNat) % 4) ((y - s.curStrip.top.toNat) % 4) := by
  rw [State.planColour]
  cases s.curStrip.blockOf x y with
  | none => rfl
  | some b => cases hb : plan b <;> simp only [Option.bind_some, hb, Option.bind_none]

/-- What a plan gives a pixel is what it says of the pixel's block. -/
theorem planColour_congr {s : State} {plan plan' : Nat → Option BlockAct} {x y : Nat}
    (h : ∀ b, s.curStrip.blockOf x y = some b → plan b = plan' b) :
    s.planColour plan x y = s.planColour plan' x y := by
  rw [planColour_eq, planColour_eq]
  cases hb : s.curStrip.blockOf x y with
  | none => rfl
  | some b => rw [Option.bind_some, Option.bind_some, h b hb]

theorem painted_iff {s u : State} {plan : Nat → Option BlockAct} : Painted s u plan ↔
    (∀ x y c : Nat, x < s.width.toNat → y < s.height.toNat → c < 3 →
      u.raster.read (pixelAddr s.width.toNat x y + c) =
        colouredByte (s.planColour plan x y) c (s.raster.read (pixelAddr s.width.toNat x y + c))) ∧
    ∀ a, s.width.toNat * s.height.toNat * 3 ≤ a → u.raster.read a = s.raster.read a := Iff.rfl

section
variable {s u v : State} {plan plan' : Nat → Option BlockAct} {i j k : Nat}

theorem Painted.congr (h : Painted s u plan)
    (heq : ∀ b, b < s.curStrip.blockCols * s.curStrip.blockRows → plan b = plan' b) : Painted s u plan' := by
  rw [painted_iff] at h ⊢
  refine ⟨fun x y c hx hy hc => ?_, h.2⟩
  rw [h.1 x y c hx hy hc, planColour_congr fun b hb => heq b (StripRec.blockOf_lt hb)]

theorem painted_none (s : State) (hu : u.raster = s.raster) : Painted s u (planBefore plan 0) := by
  rw [painted_iff, hu]
  refine ⟨fun x y c _ _ _ => ?_, fun _ _ => rfl⟩
  rw [planColour_eq]
  cases s.curStrip.blockOf x y <;> rfl

/-- R is all that matters of the painted state. -/
theorem Painted.of_raster (h : Painted s u plan) (hv : v.raster = u.raster) : Painted s v plan := by
  rw [painted_iff, hv]
  exact h

/-- Where a plan says nothing of the blocks from `k` on, R is as the whole plan paints it. -/
theorem Painted.whole (h : Painted s u (planBefore plan k))
    (hrest : ∀ b, k ≤ b → b < s.curStrip.blockCols * s.curStrip.blockRows → plan b = none) :
    Painted s u plan := by
  refine h.congr fun b hb => ?_
  rw [planBefore]
  split
  · rfl
  · exact (hrest b (Nat.not_lt.mp ‹_›) hb).symm

/-- A pixel outside the blocks of the walk is left as it was. -/
theorem Painted.outside (h : Painted s u plan) {x y c : Nat} (hx : x < s.width.toNat) (hy : y < s.height.toNat)
    (hc : c < 3) (hout : s.curStrip.blockOf x y = none) :
    u.raster.read (pixelAddr s.width.toNat x y + c) = s.raster.read (pixelAddr s.width.toNat x y + c) := by
  rw [(painted_iff.mp h).1 x y c hx hy hc, planColour_eq, hout]
  rfl

/-- A byte of a pixel outside a block is left as it was. -/
theorem BlockPainted.other_pixel {width height x y px py c : Nat} {colour : Nat → Nat → Option Rgb} {m m' : Memory}
    (h : BlockPainted width height x y colour m m') (hpx : px < width) (hc : c < 3)
    (hout : ∀ dx dy, dx < 4 → dy < 4 → ¬ (px = x + dx ∧ py = y + dy)) :
    m'.read (pixelAddr width px py + c) = m.read (pixelAddr width px py + c) := by
  refine h.others _ fun dx dy d hdx hdy hd hx _ => ?_
  rcases pixelAddr_apart hpx hx (hout dx dy hdx hdy) with h | h <;> omega

/-- A byte beyond the frame is left as it was. -/
theorem BlockPainted.beyond {width height x y a : Nat} {colour : Nat → Nat → Option Rgb} {m m' : Memory}
    (h : BlockPainted width height x y colour m m') (ha : width * height * 3 ≤ a) : m'.read a = m.read a := by
  refine h.others _ fun dx dy d _ _ hd hx hy => ?_
  have := pixelAddr_bound hx hy
  omega

/-- Treating the next block as planned takes the plan one block further. -/
theorem Painted.next_block {act : BlockAct} (hi : i < s.curStrip.blockCols) (hj : j < s.curStrip.blockRows)
    (h : Painted s u (planBefore plan (j * s.curStrip.blockCols + i)))
    (hplan : plan (j * s.curStrip.blockCols + i) = some act)
    (hblock : BlockPainted s.width.toNat s.height.toNat (s.curStrip.left.toNat + 4 * i)
      (s.curStrip.top.toNat + 4 * j) (s.actColour act) u.raster v.raster) :
    Painted s v (planBefore plan (j * s.curStrip.blockCols + i + 1)) := by
  rw [painted_iff] at h ⊢
  obtain ⟨hpixels, hbeyond⟩ := h
  have hblockOf {x y : Nat} := s.curStrip.blockOf_eq_some_iff (x := x) (y := y) hi hj
  refine ⟨fun x y c hx hy hc => ?_, fun a ha => (hblock.beyond ha).trans (hbeyond a ha)⟩
  by_cases hin : s.curStrip.blockOf x y = some (j * s.curStrip.blockCols + i)
  · obtain ⟨dx, dy, hdx, hdy, rfl, rfl⟩ := hblockOf.mp hin
    rw [hblock.pixels dx dy c hdx hdy hc hx hy, hpixels _ _ c hx hy hc, planColour_eq, planColour_eq, hin]
    simp only [planBefore, Option.bind_some, lt_irrefl, if_false, Option.bind_none, Nat.lt_succ_self, if_true,
      hplan, colouredByte_none]
    rw [show (s.curStrip.left.toNat + 4 * i + dx - s.curStrip.left.toNat) % 4 = dx by omega,
      show (s.curStrip.top.toNat + 4 * j + dy - s.curStrip.top.toNat) % 4 = dy by omega]
  · have hout : ∀ dx dy, dx < 4 → dy < 4 →
        ¬ (x = s.curStrip.left.toNat + 4 * i + dx ∧ y = s.curStrip.top.toNat + 4 * j + dy) :=
      fun dx dy hdx hdy he => hin (hblockOf.mpr ⟨dx, dy, hdx, hdy, he.1, he.2⟩)
    rw [hblock.other_pixel hx hc hout, hpixels x y c hx hy hc, planColour_congr fun b hb => ?_]
    have hb : b ≠ j * s.curStrip.blockCols + i := fun he => hin (he ▸ hb)
    exact if_congr (by omega) rfl rfl

end

/-! ### Plans and cuts of a walk -/

section
variable {skipEn selEn : Bool} {p : Nat → Byte} {budget avail b k : Nat} {c : VecCursor}

theorem vecCursor_succ (h : vecCursor skipEn selEn p budget b = some c) :
    vecCursor skipEn selEn p budget (b + 1) = (planBlock skipEn selEn p budget b c).map Prod.snd := by
  rw [vecCursor, h]

theorem vecPlan_of_cursor (h : vecCursor skipEn selEn p budget b = some c) :
    vecPlan skipEn selEn p budget b = (planBlock skipEn selEn p budget b c).map Prod.fst := by
  rw [vecPlan, h]

theorem vecCut_succ (h : vecCut skipEn selEn p budget avail b = none)
    (hc : vecCursor skipEn selEn p budget b = some c) :
    vecCut skipEn selEn p budget avail (b + 1) =
      (blockCut skipEn selEn p budget avail b c).map fun next => { block := b, next := next } := by
  rw [vecCut_succ_of_none h, hc, Option.bind_some]

/-- Once the budget has ended a walk, it has no cursor for any later block. -/
theorem vecCursor_none_of_le (h : vecCursor skipEn selEn p budget b = none) (hbk : b ≤ k) :
    vecCursor skipEn selEn p budget k = none := by
  induction hbk with
  | refl => exact h
  | step _ ih => rw [vecCursor, ih]

theorem vecPlan_none_of_cursor (h : vecCursor skipEn selEn p budget b = none) :
    vecPlan skipEn selEn p budget b = none := by
  rw [vecPlan, h]

/-- A walk that the budget ends in block `b` has no plan from that block on. -/
theorem vecPlan_none_of_ended (hc : vecCursor skipEn selEn p budget b = some c)
    (h : planBlock skipEn selEn p budget b c = none) (hbk : b ≤ k) : vecPlan skipEn selEn p budget k = none := by
  rcases Nat.eq_or_lt_of_le hbk with rfl | hlt
  · rw [vecPlan_of_cursor hc, h]
    rfl
  · have hended : vecCursor skipEn selEn p budget (b + 1) = none := by
      rw [vecCursor_succ hc, h]
      rfl
    exact vecPlan_none_of_cursor (vecCursor_none_of_le hended hlt)

/-- Once the budget has ended a walk, the stream cuts nothing more of it. -/
theorem vecCut_none_of_ended (hcut : vecCut skipEn selEn p budget avail b = none)
    (hended : vecCursor skipEn selEn p budget b = none) (hbk : b ≤ k) :
    vecCut skipEn selEn p budget avail k = none := by
  induction hbk with
  | refl => exact hcut
  | step hbj ih => rw [vecCut_succ_of_none ih, vecCursor_none_of_le hended hbj, Option.bind_none]

end

/-! ### How a walk ends -/

/-- The plan of a vector chunk whose handler starts in `s`. -/
abbrev State.walkPlan (s : State) (skipEn selEn : Bool) : Nat → Option BlockAct :=
  vecPlan skipEn selEn s.payload s.csize.toNat

/-- The cut of a vector chunk within the given number of blocks, its handler starting in `s`. -/
abbrev State.walkCut (s : State) (skipEn selEn : Bool) (n : Nat) : Option VecCut :=
  vecCut skipEn selEn s.payload s.csize.toNat s.avail n

/-- How the handler of a vector chunk that started in `s` may end: with R as the plan paints it, or in
`StreamUnderrun` at the cut with the blocks before it painted. -/
inductive VectorEnds (s : State) (skipEn selEn : Bool) : EStateM.Result Ending State Unit → Prop
  | complete {u n r} (hr : r = .ok () u ∨ r = .error .stop u)
      (hcut : s.walkCut skipEn selEn (s.curStrip.blockCols * s.curStrip.blockRows) = none)
      (hread : UnpackedTo s n u) (hpainted : Painted s u (s.walkPlan skipEn selEn)) :
      VectorEnds s skipEn selEn r
  | cut {u cut} (hcut : s.walkCut skipEn selEn (s.curStrip.blockCols * s.curStrip.blockRows) = some cut)
      (hread : UnpackedTo s cut.next u)
      (hpainted : Painted s u (planBefore (s.walkPlan skipEn selEn) cut.block)) :
      VectorEnds s skipEn selEn (.error (.raise .streamUnderrun (s.pos + cut.next)) u)

/-- The invariant of the walk before block `b`, with `BX` and `BY` at x and y. -/
structure WalkAt (s : State) (skipEn selEn : Bool) (x y b : Nat) (c : VecCursor) (u : State) : Prop where
  cursor : vecCursor skipEn selEn s.payload s.csize.toNat b = some c
  uncut : s.walkCut skipEn selEn b = none
  block : BlockAt s skipEn selEn x y u.raster b c u
  painted : Painted s u (planBefore (s.walkPlan skipEn selEn) b)

/-- An action goes on from a state with the property `P`, or ends early as `E` says. -/
inductive GoesOn (P : State → Prop) (E : EStateM.Result Ending State Unit → Prop) :
    EStateM.Result Ending State Unit → Prop
  | on {v} (h : P v) : GoesOn P E (.ok () v)
  | ended {e v} (h : E (.error e v)) : GoesOn P E (.error e v)

theorem GoesOn.bind {P Q : State → Prop} {E : EStateM.Result Ending State Unit → Prop} {act next : Act Unit}
    {s : State} (h : GoesOn P E (act s)) (hnext : ∀ v, P v → GoesOn Q E (next v)) :
    GoesOn Q E ((do act; next : Act Unit) s) := by
  generalize hr : act s = r at h
  cases h with
  | on h =>
    rw [act_bind_ok hr]
    exact hnext _ h
  | ended h =>
    rw [act_bind_error hr]
    exact .ended h

theorem GoesOn.ends {P : State → Prop} {E : EStateM.Result Ending State Unit → Prop}
    {r : EStateM.Result Ending State Unit} (h : GoesOn P E r) (hend : ∀ v, P v → E (.ok () v)) : E r := by
  cases h with
  | on h => exact hend _ h
  | ended h => exact h

section
variable {s u : State} {skipEn selEn : Bool} {i j x y b : Nat} {c : VecCursor}

theorem WalkAt.atCorner (h : WalkAt s skipEn selEn x y b c u) {bx : BitVec 17} {bY : BitVec 33} {x' y' : Nat}
    (hx : bx.toNat = x') (hy : bY.toNat = y') : WalkAt s skipEn selEn x' y' b c { u with bX := bx, bY := bY } where
  cursor := h.cursor
  uncut := h.uncut
  block :=
    { read := h.block.read.atCorner bx bY
      skip := fun he => (h.block.skip he).of_regs rfl rfl
      sel := fun he => (h.block.sel he).of_regs rfl rfl
      column := hx
      row := hy
      raster := rfl }
  painted := h.painted

/-- One block of the walk (42_vector_unpacker.md R164 to R174). -/
theorem WalkAt.block_goesOn (hi : i < s.curStrip.blockCols) (hj : j < s.curStrip.blockRows)
    (h : WalkAt s skipEn selEn (s.curStrip.left.toNat + 4 * i) (s.curStrip.top.toNat + 4 * j)
      (j * s.curStrip.blockCols + i) c u) :
    GoesOn (fun v => ∃ d, WalkAt s skipEn selEn (s.curStrip.left.toNat + 4 * i) (s.curStrip.top.toNat + 4 * j)
      (j * s.curStrip.blockCols + i + 1) d v) (VectorEnds s skipEn selEn) (vectorBlock skipEn selEn u) := by
  have hlt := s.curStrip.block_lt hi hj
  have hcut := vecCut_succ h.uncut h.cursor
  have hcursor := vecCursor_succ h.cursor
  have hplan := vecPlan_of_cursor h.cursor
  have hruns := vectorBlock_runs h.block
  generalize hr : vectorBlock skipEn selEn u = r at hruns
  generalize hp : planBlock skipEn selEn s.payload s.csize.toNat (j * s.curStrip.blockCols + i) c = plan
    at hruns hcursor hplan
  generalize blockCut skipEn selEn s.payload s.csize.toNat s.avail (j * s.curStrip.blockCols + i) c = cut
    at hruns hcut
  cases hruns with
  | @done act d v hat hpaint =>
    exact .on ⟨d, hcursor, hcut, hat, h.painted.next_block hi hj hplan hpaint⟩
  | stopped hread hraster =>
    refine .ended (.complete (.inr rfl) (vecCut_none_of_ended hcut hcursor hlt) hread ?_)
    refine Painted.whole (k := j * s.curStrip.blockCols + i) ?_ fun b hb _ => vecPlan_none_of_ended h.cursor hp hb
    exact h.painted.of_raster hraster
  | cut hread hraster =>
    exact .ended (.cut (cut := { block := j * s.curStrip.blockCols + i, next := _ }) (vecCut_mono hcut hlt) hread
      (h.painted.of_raster hraster))

/-- `BX` takes the next column without wrapping (42_vector_unpacker.md R163). -/
theorem column_step {bx : BitVec 17} (hi : i < s.curStrip.blockCols)
    (h : bx.toNat = s.curStrip.left.toNat + 4 * i) : (bx + 4#17).toNat = s.curStrip.left.toNat + 4 * (i + 1) := by
  have hlt := s.curStrip.column_lt hi
  have := s.curStrip.right.isLt
  rw [BitVec.toNat_add, h, BitVec.toNat_ofNat]
  omega

/-- `BY` takes the next row without wrapping (42_vector_unpacker.md R163). -/
theorem row_step {bY : BitVec 33} (hj : j < s.curStrip.blockRows)
    (h : bY.toNat = s.curStrip.top.toNat + 4 * j) : (bY + 4#33).toNat = s.curStrip.top.toNat + 4 * (j + 1) := by
  have hlt := s.curStrip.row_lt hj
  have := s.curStrip.bottom.isLt
  rw [BitVec.toNat_add, h, BitVec.toNat_ofNat]
  omega

/-- One row of the walk, from block `i` of it on (42_vector_unpacker.md R163). -/
theorem walkRow_goesOn (hj : j < s.curStrip.blockRows) (n : Nat) (hn : i + n = s.curStrip.blockCols)
    (h : WalkAt s skipEn selEn (s.curStrip.left.toNat + 4 * i) (s.curStrip.top.toNat + 4 * j)
      (j * s.curStrip.blockCols + i) c u) :
    GoesOn (fun v => ∃ x d, WalkAt s skipEn selEn x (s.curStrip.top.toNat + 4 * j)
      ((j + 1) * s.curStrip.blockCols) d v) (VectorEnds s skipEn selEn) (walkRow skipEn selEn n u) := by
  induction n generalizing i c u with
  | zero =>
    obtain rfl : i = s.curStrip.blockCols := hn
    rw [Nat.succ_mul j]
    exact .on ⟨_, c, h⟩
  | succ n ih =>
    have hi : i < s.curStrip.blockCols := by omega
    rw [walkRow_succ, if_pos (by rw [h.block.column, h.block.read.curStrip_eq]; exact StripRec.column_lt hi)]
    refine (h.block_goesOn hi hj).bind fun v ⟨d, hv⟩ => ?_
    exact ih (by omega) (hv.atCorner (column_step hi hv.block.column) hv.block.row)

/-- `BX` at the first column (42_vector_unpacker.md R163). -/
theorem WalkAt.firstColumn (h : WalkAt s skipEn selEn x y b c u) :
    WalkAt s skipEn selEn (s.curStrip.left.toNat + 4 * 0) y b c { u with bX := u.curStrip.left.setWidth 17 } := by
  refine h.atCorner ?_ h.block.row
  rw [h.block.read.curStrip_eq, BitVec.toNat_setWidth]
  have := s.curStrip.left.isLt
  omega

/-- The rows of the walk from row `j` on (42_vector_unpacker.md R163). -/
theorem walkRows_goesOn (n : Nat) (hn : j + n = s.curStrip.blockRows)
    (h : WalkAt s skipEn selEn x (s.curStrip.top.toNat + 4 * j) (j * s.curStrip.blockCols) c u) :
    GoesOn (fun v => ∃ x y d, WalkAt s skipEn selEn x y (s.curStrip.blockCols * s.curStrip.blockRows) d v)
      (VectorEnds s skipEn selEn) (walkRows skipEn selEn n u) := by
  induction n generalizing j x c u with
  | zero =>
    obtain rfl : j = s.curStrip.blockRows := hn
    rw [Nat.mul_comm]
    exact .on ⟨_, _, c, h⟩
  | succ n ih =>
    have hj : j < s.curStrip.blockRows := by omega
    rw [walkRows_succ, if_pos (by rw [h.block.row, h.block.read.curStrip_eq]; exact StripRec.row_lt hj),
      h.block.read.curStrip_eq]
    refine GoesOn.bind (.on h.firstColumn) fun v hv => ?_
    refine (walkRow_goesOn hj _ (Nat.zero_add _) hv).bind fun v ⟨x', d, hv⟩ => ?_
    exact ih (by omega) (hv.atCorner hv.block.column (row_step hj hv.block.row))

/-- The state in which the walk starts: both flag streams empty, `BY` at the first row (42_vector_unpacker.md R161,
R163). -/
def State.walkStart (s : State) : State :=
  { s with skf := 0#32, skm := 0#32, slf := 0#32, slm := 0#32, bY := s.curStrip.top.setWidth 33 }

theorem decodeVectors_eq (skipEn selEn : Bool) (s : State) :
    decodeVectors skipEn selEn s = walkRows skipEn selEn s.curStrip.blockRows s.walkStart := rfl

theorem walkAt_start (hstart : s.cstart = s.pos) :
    WalkAt s skipEn selEn s.bX.toNat (s.curStrip.top.toNat + 4 * 0) (0 * s.curStrip.blockCols) .start
      s.walkStart := by
  rw [Nat.zero_mul]
  exact
    { cursor := rfl
      uncut := rfl
      block :=
        { read := ⟨hstart, Nat.zero_le _, Nat.zero_le _, rfl⟩
          skip := fun _ => ⟨rfl, fun hm => absurd rfl hm⟩
          sel := fun _ => ⟨rfl, fun hm => absurd rfl hm⟩
          column := rfl
          row := by
            have := s.curStrip.top.isLt
            rw [State.walkStart, BitVec.toNat_setWidth]
            omega
          raster := rfl }
      painted := painted_none s rfl }

/-- All the handler of a vector chunk can do (42_vector_unpacker.md R161 to R174). -/
theorem decodeVectors_ends (skipEn selEn : Bool) (hstart : s.cstart = s.pos) :
    VectorEnds s skipEn selEn (decodeVectors skipEn selEn s) := by
  rw [decodeVectors_eq]
  refine (walkRows_goesOn _ (Nat.zero_add _) (walkAt_start hstart)).ends fun v ⟨_, _, _, hv⟩ => ?_
  exact .complete (.inl rfl) hv.uncut hv.block.read
    (hv.painted.whole fun b hb hlt => absurd hlt (Nat.not_lt.mpr hb))

end

/-! ### The vector chunks -/

section
variable {id : Byte} {z : Size} {s u : State} {skipEn selEn : Bool}

theorem headerLatched_walkPlan (id : Byte) (z : Size) (s : State) (skipEn selEn : Bool) :
    (headerLatched id z s).walkPlan skipEn selEn = vecPlan skipEn selEn s.payload (z.toNat - 4) := by
  rw [← size_sub_toNat z]
  rfl

theorem headerLatched_walkCut (id : Byte) (z : Size) (s : State) (skipEn selEn : Bool) :
    (headerLatched id z s).walkCut skipEn selEn (s.curStrip.blockCols * s.curStrip.blockRows) =
      s.vectorCut skipEn selEn z := by
  rw [State.vectorCut, ← size_sub_toNat z]
  rfl

/-- A vector chunk that the stream holds: the reposition follows (40_frame_decoder.md R129). -/
theorem runChunk_paintsPlan (id : Byte) (hz : 4 ≤ z.toNat) (hcut : s.vectorCut skipEn selEn z = none) :
    PaintsPlan (runChunk id z (decodeVectors skipEn selEn) s) s id z
      (vecPlan skipEn selEn s.payload (z.toNat - 4)) := by
  rw [runChunk_ok hz, ← headerLatched_walkPlan id]
  rw [← headerLatched_walkCut id] at hcut
  have hends := decodeVectors_ends (s := headerLatched id z s) skipEn selEn rfl
  generalize decodeVectors skipEn selEn (headerLatched id z s) = r at hends
  cases hends with
  | @complete u n _ hr _ hread hpainted =>
    have hend : chunkEnd r = u.atPos (s.pos + (z.toNat - 4)) := by
      have hpos : u.cstart + u.csize.toNat = s.pos + (z.toNat - 4) := by
        rw [← size_sub_toNat, hread.frame]
        rfl
      rcases hr with rfl | rfl <;> rw [← hpos] <;> rfl
    exact ⟨_, congrArg _ hend, congrArg (State.atPos · (s.pos + (z.toNat - 4))) hread.frame, hpainted⟩
  | cut h => exact absurd (h.symm.trans hcut) (by simp)

/-- A vector chunk that the stream cuts: the fault is taken (60_exceptions.md R208). -/
theorem runChunk_paintsUntilCut {cut : VecCut} (id : Byte) (hz : 4 ≤ z.toNat)
    (hcut : s.vectorCut skipEn selEn z = some cut) :
    PaintsUntilCut (runChunk id z (decodeVectors skipEn selEn) s) s id z
      (vecPlan skipEn selEn s.payload (z.toNat - 4)) cut := by
  rw [runChunk_ok hz, ← headerLatched_walkPlan id]
  rw [← headerLatched_walkCut id] at hcut
  have hends := decodeVectors_ends (s := headerLatched id z s) skipEn selEn rfl
  generalize decodeVectors skipEn selEn (headerLatched id z s) = r at hends
  cases hends with
  | complete _ h => exact absurd (h.symm.trans hcut) (by simp)
  | @cut u cut' h hread hpainted =>
    obtain rfl : cut' = cut := Option.some.inj (h.symm.trans hcut)
    exact ⟨_, rfl, congrArg (State.raiseFault · .streamUnderrun (s.pos + cut'.next)) hread.frame, hpainted⟩

/-- A vector chunk, whatever its size and however it ends (42_vector_unpacker.md R160). -/
theorem runChunk_vectorFrame (h : runChunk id z (decodeVectors skipEn selEn) s = .next u) : VectorFrame s u := by
  by_cases hz : z.toNat < 4
  · rw [runChunk_small hz] at h
    cases h
    exact ⟨rfl, fun _ _ _ _ _ _ _ => rfl, fun _ _ => rfl⟩
  cases hcut : s.vectorCut skipEn selEn z with
  | none =>
    obtain ⟨v, he, hframe, hpainted⟩ := runChunk_paintsPlan id (Nat.not_lt.mp hz) hcut
    cases he.symm.trans h
    exact ⟨hframe.trans (by rw [hframe]), fun _ _ _ => hpainted.outside, hpainted.2⟩
  | some cut =>
    obtain ⟨v, he, hframe, hpainted⟩ := runChunk_paintsUntilCut id (Nat.not_lt.mp hz) hcut
    cases he.symm.trans h
    exact ⟨hframe.trans (by rw [hframe]), fun _ _ _ => hpainted.outside, hpainted.2⟩

end

/-! ### `VEC.V1` in closed form -/

section
variable {p : Nat → Byte} {budget avail b : Nat}

/-- The cursor of a walk without flag streams, once `b` index bytes have been read. -/
def v1Cursor (b : Nat) : VecCursor := { skipWord := 0, selWord := 0, next := b, coded := b }

theorem VecCursor.serveSkip_false (c : VecCursor) (b : Nat) : c.serveSkip false b = c := if_neg (by simp)

theorem VecCursor.serveSel_false (c : VecCursor) : c.serveSel false = c := if_neg (by simp)

theorem planCoded_v1 (p : Nat → Byte) (budget b : Nat) :
    planCoded false p budget (v1Cursor b) =
      if b < budget then some (.v1 (p b), v1Cursor (b + 1)) else none := by
  rw [planCoded, VecCursor.serveSel_false]
  show (if budget < b then none else if budget < b + 1 then none else some (BlockAct.v1 (p b), v1Cursor (b + 1))) = _
  split
  · rw [if_neg (by omega)]
  · split
    · rw [if_neg (by omega)]
    · rw [if_pos (by omega)]

theorem planBlock_v1 (p : Nat → Byte) {budget b : Nat} (h : b ≤ budget) :
    planBlock false false p budget b (v1Cursor b) =
      if b < budget then some (.v1 (p b), v1Cursor (b + 1)) else none := by
  rw [planBlock_eq, VecCursor.serveSkip_false, planCoded_v1]
  exact (if_neg (Nat.not_lt.mpr h)).trans (if_neg (by simp))

theorem blockCut_v1 (p : Nat → Byte) {budget avail b : Nat} (h : min budget (b + 1) ≤ avail) :
    blockCut false false p budget avail b (v1Cursor b) = none := by
  rw [blockCut_eq, codedCut, VecCursor.serveSkip_false, VecCursor.serveSel_false]
  show (if budget < b then none else if avail < b then some b else if budget < b then none else
    if avail < b then some b else if b + 1 ≤ budget ∧ avail < b + 1 then some avail else none) = none
  by_cases hb : budget < b
  · rw [if_pos hb]
  · rw [if_neg hb, if_neg (by omega), if_neg hb, if_neg (by omega), if_neg (by omega)]

/-- A walk without flag streams has read one byte for each block so far (42_vector_unpacker.md R177). -/
theorem vecCursor_v1 (p : Nat → Byte) (budget b : Nat) :
    vecCursor false false p budget b = if b ≤ budget then some (v1Cursor b) else none := by
  induction b with
  | zero => rfl
  | succ b ih =>
    by_cases hb : b ≤ budget
    · rw [vecCursor_succ (ih.trans (if_pos hb)), planBlock_v1 p hb]
      exact apply_ite (Option.map Prod.snd) _ _ _
    · rw [vecCursor, ih, if_neg hb, if_neg (by omega)]

/-- Block `b` has payload byte `b` (42_vector_unpacker.md R177). -/
theorem vecPlan_v1 (p : Nat → Byte) (budget b : Nat) :
    vecPlan false false p budget b = if b < budget then some (.v1 (p b)) else none := by
  by_cases hb : b ≤ budget
  · rw [vecPlan_of_cursor ((vecCursor_v1 p budget b).trans (if_pos hb)), planBlock_v1 p hb]
    exact apply_ite (Option.map Prod.fst) _ _ _
  · rw [vecPlan, vecCursor_v1, if_neg hb, if_neg (by omega)]

/-- A stream that holds an index for every block that the budget reaches cuts none. -/
theorem vecCut_v1 {n : Nat} (h : min budget n ≤ avail) : vecCut false false p budget avail n = none := by
  induction n with
  | zero => rfl
  | succ n ih =>
    rw [vecCut_succ_of_none (ih (by omega)), vecCursor_v1]
    split
    · rw [Option.bind_some, blockCut_v1 p h, Option.map_none]
    · rfl

end

/-- Settles O45: each block keeps `WalkAt`, and the walk ends where the plan does. -/
theorem flaggedVectorChunksPaintTheirPlan : Obligations.FlaggedVectorChunksPaintTheirPlan := fun _ _ hz =>
  ⟨runChunk_paintsPlan _ hz, runChunk_paintsPlan _ hz⟩

/-- Settles O46: the plan of a walk without flag streams is one index byte for each block. -/
theorem vecV1PaintsOneIndexPerBlock : Obligations.VecV1PaintsOneIndexPerBlock := by
  intro s z hz havail
  have hpaints := runChunk_paintsPlan 0x32#8 (skipEn := false) (selEn := false) hz (vecCut_v1 havail)
  rwa [funext (vecPlan_v1 s.payload (z.toNat - 4))] at hpaints

/-- Settles O47: under the same invariant, the read that the stream cuts is the first cut of the closed form. -/
theorem cutVectorChunksKeepWhatTheyPainted : Obligations.CutVectorChunksKeepWhatTheyPainted := fun _ _ _ hz =>
  ⟨runChunk_paintsUntilCut _ hz, runChunk_paintsUntilCut _ hz, runChunk_paintsUntilCut _ hz⟩

/-- Settles O48: with or without a cut, the walk paints blocks of its strip alone. -/
theorem vectorChunksNeverTouchTables : Obligations.VectorChunksNeverTouchTables := fun _ _ _ =>
  ⟨runChunk_vectorFrame, runChunk_vectorFrame, runChunk_vectorFrame⟩

end Sys2Proof.Machine
end

section
/-! The family 43_yuv_to_rgb.md: the three colour channels and the ranges of their sums, the two special chroma
pairs, and the pixel write. -/

namespace Sys2Proof.Machine

/-! ### The clamp as a byte -/

theorem clipByte_eq_max_min (a : Int) : ((clipByte a).toNat : Int) = max 0 (min 255 a) :=
  (clipByte_toNat a).trans (clip_eq_max_min a)

/-- The clamp leaves a byte's own value alone (43_yuv_to_rgb.md R189). -/
@[simp] theorem clipByte_byte (b : Byte) : clipByte b.toNat = b := by
  have h := clipByte_eq_max_min b.toNat
  exact BitVec.eq_of_toNat_eq (by omega)

theorem clipByte_of_nonpos {a : Int} (ha : a ≤ 0) : clipByte a = 0#8 := by
  have h := clipByte_eq_max_min a
  exact BitVec.eq_of_toNat_eq (by rw [BitVec.toNat_zero]; omega)

/-! ### The sums before the clamp -/

theorem redSum_range (y v : Byte) : -256 ≤ redSum y v ∧ redSum y v ≤ 509 := by
  rw [redSum]
  omega

/-- Blue is formed from `U` as red is from `V` (43_yuv_to_rgb.md R186, R188). -/
theorem blueSum_eq_redSum (y u : Byte) : blueSum y u = redSum y u := rfl

/-- Halving toward zero stays between the halves of the extremes (43_yuv_to_rgb.md R187). -/
theorem tdiv_two_range {a : Int} (hlo : -128 ≤ a) (hhi : a ≤ 127) :
    -64 ≤ Int.tdiv a 2 ∧ Int.tdiv a 2 ≤ 63 :=
  ⟨Int.tdiv_le_tdiv (by decide) hlo, Int.tdiv_le_tdiv (by decide) hhi⟩

theorem greenSum_range (y u v : Byte) : -190 ≤ greenSum y u v ∧ greenSum y u v ≤ 447 := by
  have hhalf := tdiv_two_range (a := (u.toNat : Int) - 128) (by omega) (by omega)
  rw [greenSum]
  omega

/-- Settles O4. -/
theorem colourChannelsAreClampedSums : Obligations.ColourChannelsAreClampedSums := by
  refine ⟨fun y u v => ⟨?_, ?_, ?_, redSum_range y v, greenSum_range y u v, ?_⟩, rfl⟩
  · exact clipByte_eq_max_min (redSum y v)
  · exact clipByte_eq_max_min (greenSum y u v)
  · exact clipByte_eq_max_min (blueSum y u)
  · exact blueSum_eq_redSum y u ▸ redSum_range y u

/-! ### Neutral and never-loaded chroma -/

@[simp] theorem redSum_neutral (y : Byte) : redSum y 128#8 = y.toNat := Int.add_zero _

@[simp] theorem greenSum_neutral (y : Byte) : greenSum y 128#8 128#8 = y.toNat :=
  (Int.sub_zero _).trans (Int.sub_zero _)

theorem redSum_unloaded (y : Byte) : redSum y 0#8 = y.toNat - 256 := rfl

/-- Zero chroma lifts green by 64 for `U` and by 128 for `V`. -/
theorem greenSum_unloaded (y : Byte) : greenSum y 0#8 0#8 = y.toNat + 192 := by
  have hhalf : Int.tdiv (((0#8 : Byte).toNat : Int) - 128) 2 = -64 := rfl
  rw [greenSum, hhalf, BitVec.toNat_zero]
  omega

/-- Settles O5: neutral chroma leaves every sum at `Y`; zero chroma takes red and blue below the clamp's floor. -/
theorem neutralAndUnloadedChroma : Obligations.NeutralAndUnloadedChroma := by
  intro y
  have hfloor : clipByte (redSum y 0#8) = 0#8 :=
    clipByte_of_nonpos (by rw [redSum_unloaded]; omega)
  refine ⟨?_, hfloor, ?_, hfloor⟩
  · simp [convert, blueSum_eq_redSum]
  · have hsum := greenSum_unloaded y
    have hgreen : ((convert y 0#8 0#8).g.toNat : Int) = max 0 (min 255 (greenSum y 0#8 0#8)) :=
      clipByte_eq_max_min _
    omega

/-- Settles O6: the conversion evaluates to each row of R194's table. -/
theorem workedColourValues : Obligations.WorkedColourValues := by
  unfold Obligations.WorkedColourValues
  decide

/-! ### The pixel write -/

/-- What every address of R holds after a pixel write inside the frame (43_yuv_to_rgb.md R190). -/
theorem pixelWrite_read_eq {width height x y : Nat} (m : Memory) (l u v : Byte)
    (hin : x < width ∧ y < height) (a : Nat) :
    (pixelWrite width height m x y l u v).read a =
      if a = pixelAddr width x y then some (convert l u v).b
      else if a = pixelAddr width x y + 1 then some (convert l u v).g
      else if a = pixelAddr width x y + 2 then some (convert l u v).r
      else m.read a := by
  obtain ⟨hx, hy⟩ := hin
  split
  next h => exact h ▸ pixelWrite_read 0 hx hy (by decide)
  next =>
    split
    next h => exact h ▸ pixelWrite_read 1 hx hy (by decide)
    next =>
      split
      next h => exact h ▸ pixelWrite_read 2 hx hy (by decide)
      next => exact pixelWrite_other (by omega)

theorem State.putPixel_outside {s : State} {x y : Nat} (l u v : Byte)
    (hout : ¬ (x < s.width.toNat ∧ y < s.height.toNat)) : s.putPixel x y l u v = s := by
  rw [State.putPixel, pixelWrite_outside hout]

/-- Settles O3. -/
theorem putPixelStoresBlueGreenRed : Obligations.PutPixelStoresBlueGreenRed := fun s _ _ l u v =>
  ⟨fun hin => ⟨rfl, pixelWrite_read_eq s.raster l u v hin⟩, State.putPixel_outside l u v⟩

end Sys2Proof.Machine
end

section
/-! The family 60_exceptions.md: what a command of the host does outside `BUSY` and while `BUSY`, a chunk header with
an unlisted id, and that the block by itself always answers a next state. -/

namespace Sys2Proof.Machine

/-! ### A command of the host -/

/-- A command other than `wait` is the host's own step, taken off the list first (log entry 6). -/
theorem step_hostCmd (s : State) (rest : List HostCmd) {c : HostCmd} (hc : c ≠ .wait) :
    step { s with host := c :: rest } = ({ s with host := rest } : State).hostCmd c :=
  (step_of_cmd rfl).trans (if_neg hc)

/-- Outside `BUSY` the host is free to give any command (60_exceptions.md R218). -/
theorem hostCmd_of_not_busy {s : State} (hp : s.phase ≠ .busy) (c : HostCmd) : s.hostCmd c = s.runCmd c :=
  if_neg fun h => hp h.1

theorem hostCmd_of_allowed (s : State) {c : HostCmd} (hc : c.allowedWhileBusy = true) :
    s.hostCmd c = s.runCmd c :=
  if_neg fun h => by simp [hc] at h

theorem hostCmd_of_forbidden {s : State} (hb : s.phase = .busy) {c : HostCmd}
    (hc : c.allowedWhileBusy = false) : s.hostCmd c = .refused (.hostAccessWhileBusy c) :=
  if_pos ⟨hb, hc⟩

theorem start_of_busy {s : State} (hb : s.phase = .busy) : s.start = s := if_pos hb

/-! A write of R is judged by its whole range, a read by its address (20_memory.md R50; log entry 10). -/

theorem hostWriteRaster_within {s : State} {a : Nat} {bs : List Byte} (h : a + bs.length ≤ s.rasterCap) :
    s.hostWriteRaster a bs = .next { s with raster := s.raster.write a bs } := if_pos h

theorem hostWriteRaster_beyond {s : State} {a : Nat} {bs : List Byte} (h : s.rasterCap < a + bs.length) :
    s.hostWriteRaster a bs = .fault (.rasterAddress (max a s.rasterCap)) := if_neg (Nat.not_le.mpr h)

theorem hostReadRaster_within {s : State} {a : Nat} (h : a < s.rasterCap) :
    s.hostReadRaster a = .next { s with hostData := (rasterByte s a).toNat } := if_pos h

theorem hostReadRaster_beyond {s : State} {a : Nat} (h : s.rasterCap ≤ a) :
    s.hostReadRaster a = .fault (.rasterAddress a) := if_neg (Nat.not_lt.mpr h)

/-- Settles O17: outside `BUSY` each command is its own effect, and an access to R is judged against its end. -/
theorem hostAccessesOutsideBusy : Obligations.HostAccessesOutsideBusy := by
  intro s rest n a bs hp
  have hrun {c : HostCmd} (hc : c ≠ .wait) :
      step { s with host := c :: rest } = ({ s with host := rest } : State).runCmd c :=
    (step_hostCmd s rest hc).trans (hostCmd_of_not_busy (s := { s with host := rest }) hp c)
  exact ⟨hrun (by simp), hrun (by simp), hrun (by simp),
    fun hin => (hrun (by simp)).trans (hostWriteRaster_within hin),
    fun hout => (hrun (by simp)).trans (hostWriteRaster_beyond hout),
    fun hin => (hrun (by simp)).trans (hostReadRaster_within hin),
    fun hout => (hrun (by simp)).trans (hostReadRaster_beyond hout)⟩

/-- Settles O16: START is allowed while `BUSY`, and there it is no effect. -/
theorem startWhileBusyIsIgnored : Obligations.StartWhileBusyIsIgnored := by
  intro s rest hhost hb
  have hstart : ({ s with host := rest } : State).start = { s with host := rest } := start_of_busy hb
  rw [step_of_cmd hhost, if_neg (by simp), hostCmd_of_allowed _ rfl, State.runCmd, hstart]

/-- Settles O18: none of the five commands is among those allowed while `BUSY`. -/
theorem hostAccessesWhileBusyAreRefused : Obligations.HostAccessesWhileBusyAreRefused := by
  intro s rest n a bs hb c hmem
  have hforbidden : c.allowedWhileBusy = false := by
    simp only [List.mem_cons, List.not_mem_nil, or_false] at hmem
    rcases hmem with rfl | rfl | rfl | rfl | rfl <;> rfl
  have hwait : c ≠ .wait := by
    rintro rfl
    cases hforbidden
  exact (step_hostCmd s rest hwait).trans (hostCmd_of_forbidden (s := { s with host := rest }) hb hforbidden)

/-! ### A chunk header with an unlisted id -/

/-- Settles O32: the decoder lists no such id, and the size is large enough not to be the fault. -/
theorem unknownChunkFails : Obligations.UnknownChunkFails := by
  intro s hat hlen hsize hid
  rw [← sizeAtPos_toNat] at hsize ⊢
  rw [hat.step_held hlen, dispatchHeader_eq, instrOfHeader_eq_none hid]
  show finish (rejectHeader _ _) _ = _
  rw [rejectHeader_next, if_neg (Nat.not_lt.mpr hsize)]
  rfl

/-! ### The block by itself -/

/-- Outside `BUSY` the block makes no change (60_exceptions.md R219). -/
theorem advance_of_not_busy {s : State} (hp : s.phase ≠ .busy) : advance s = .next s := by
  rcases advance_cases s with ⟨_, he⟩ | ⟨hb, _⟩ | ⟨hb, _⟩ | ⟨hb, _⟩ | ⟨hb, _⟩
  · exact he
  all_goals exact absurd hb hp

/-- Settles O20. -/
theorem quiescentPhasesChangeNothing : Obligations.QuiescentPhasesChangeNothing := fun _ hquiet hp =>
  (step_of_quiet hquiet).trans (advance_of_not_busy hp)

/-- The block's turn is a next state in every phase: a fault of its own is taken as one (60_exceptions.md R208). -/
theorem advance_next (s : State) : ∃ t, advance s = .next t := by
  by_cases hb : s.phase = .busy
  · obtain ⟨t, ht, _⟩ := advance_progress hb
    exact ⟨t, ht⟩
  · exact ⟨s, advance_of_not_busy hb⟩

/-- Settles O52. -/
theorem blockAlwaysAnswersANextState : Obligations.BlockAlwaysAnswersANextState := fun s hquiet =>
  (advance_next s).imp fun _ ht => (step_of_quiet hquiet).trans ht

end Sys2Proof.Machine
end

section
/-! The family 70_reset_and_hazards.md: what reset leaves, and the host's reset command in any phase. -/

namespace Sys2Proof.Machine

/-! ### The values reset leaves -/

/-- A store that lists no entry is zero at every place (10_state.md R42). -/
@[simp] theorem cbGet_empty (slot : Nat) (t : Table) (i : Byte) : cbGet [] slot t i = Entry.zero := rfl

/-- Settles O13: reset writes the status registers, `ALLOC` and the raster out, and lists no codebook entry. -/
theorem resetLeavesTheSpecifiedValues : Obligations.ResetLeavesTheSpecifiedValues :=
  ⟨rfl, rfl, rfl, rfl, rfl, cbGet_empty⟩

/-! ### The reset command -/

/-- The host is free to reset the block in every phase, also while `BUSY` (70_reset_and_hazards.md R232). -/
theorem hostCmd_reset (s : State) : s.hostCmd .reset = .next s.hostReset := hostCmd_of_allowed s rfl

/-- Settles O14: no phase refuses the command, and its effect keeps nothing of the block's registers. -/
theorem resetCommandRestoresTheBlock : Obligations.ResetCommandRestoresTheBlock := by
  intro s rest hhost
  rw [step_of_cmd hhost, if_neg (by simp), hostCmd_reset]
  rfl

end Sys2Proof.Machine
end
